-- ==== Sys2Proof/Word.lean ====
section
/-! DEFINITION. The plain value types of the core: bytes, 32-bit host registers, words of WMEM and word arrays
(00_scope R9, R10, R11). -/

namespace Sys2Proof

/-- One byte of the byte view of WMEM (20_memory R79). -/
abbrev Byte := BitVec 8

/-- The value of a host register: "Host registers are 32 bits wide" (00_scope R9). -/
abbrev Reg := BitVec 32

/-- A word array, least-significant word first (00_scope R11). A W-bit word is its unsigned value: the width W is a parameter
of the configuration (R6), and "All values in pseudocode are mathematical non-negative integers unless a width is stated"
(R10). A word is a Nat below `2^W`, and every rule narrows with `mod 2^W` where the spec does. Addresses of words, and of
bytes of the byte view, are Nat too ("computed in unbounded integer arithmetic", R15). -/
abbrev WordArray := List Nat

end Sys2Proof
end

