-- ==== Sys2Proof/Machine/Arrays.lean ====
section
/-! DEFINITION. Nat arrays and their values (00_scope R11 to R14): the arithmetic every command's rule is written in. -/

namespace Sys2Proof.Machine

/-- `val(X)`, the sum of `X[i] · 2^(W·i)` (00_scope R11). -/
def val (w : Nat) : WordArray → Nat
  | [] => 0
  | x :: xs => x + 2 ^ w * val w xs

/-- `words_n(v)`, the array of length `n` with `words_n(v)[i] = (v >> (W·i)) mod 2^W` (00_scope R11). -/
def wordsOf (w : Nat) : (n : Nat) → (v : Nat) → WordArray
  | 0, _ => []
  | n + 1, v => v % 2 ^ w :: wordsOf w n (v / 2 ^ w)

/-- The number of words up to and with the most significant nonzero one; 0 if there is none. -/
def significantLen : WordArray → Nat
  | [] => 0
  | x :: xs =>
    match significantLen xs with
    | 0 => if x = 0 then 0 else 1
    | n + 1 => n + 2

/-- `norm_len(X)`: "scan from the most-significant word downward, dropping zero words, stopping at a minimum length of 1"
(00_scope R12). -/
def normLen (xs : WordArray) : Nat := max 1 (significantLen xs)

/-- X is normalized iff `norm_len(X) = n` (00_scope R12). -/
def isNormalized (xs : WordArray) : Bool := decide (normLen xs = xs.length)

/-- The most significant word `X[n−1]`. -/
def topWord (xs : WordArray) : Nat := xs.getD (xs.length - 1) 0

/-- The top bit `X[n−1][W−1]` (00_scope R10, R13). -/
def topBit (w : Nat) (xs : WordArray) : Bool := (topWord xs).testBit (w - 1)

/-- `sval(X) = val(X) − X[n−1][W−1] · 2^(W·n)`, the two's-complement value (00_scope R13). -/
def sval (w : Nat) (xs : WordArray) : Int :=
  (val w xs : Int) - (if topBit w xs then 2 ^ (w * xs.length) else 0)

/-- `clz_W(x)`: `W − 1 − (index of the highest set bit)`, and W for 0 (00_scope R14). -/
def clz (w : Nat) (x : Nat) : Nat := if x = 0 then w else w - 1 - Nat.log2 x

/-- `bitlen(X) = W·(n−1) + (W − clz_W(X[n−1]))` (00_scope R14). -/
def bitlen (w : Nat) (xs : WordArray) : Nat := w * (xs.length - 1) + (w - clz w (topWord xs))

/-- The array followed by zero words up to length `n`: `(i < la) ? A[i] : 0` (41_add_sub R140, R145). -/
def padTo (n : Nat) (xs : WordArray) : WordArray := xs ++ List.replicate (n - xs.length) 0

end Sys2Proof.Machine
end

