-- ==== Sys2Proof/Machine/Flags.lean ====
section
/-! DEFINITION. STATUS.FLAG as each command's rule computes it (10_state R45, R49); a flag of a command that sets it to 0
stands here too, so that every flag has one home. -/

namespace Sys2Proof.Machine

/-- ADD: "the final carry" (41_add_sub R140). -/
def addFlag (carry : Nat) : Bool := decide (carry ≠ 0)

/-- SUB: 0 (41_add_sub R145). -/
def subFlag : Bool := false

/-- MUL: 0 (42_multiply R160). -/
def mulFlag : Bool := false

/-- DIV: 0 (43_divide R170). -/
def divFlag : Bool := false

/-- SHL: "1 iff a nonzero carry escaped the top word" (44_shift R185). -/
def shlFlag (escaped : Nat) : Bool := decide (escaped ≠ 0)

/-- SHR: 0 (44_shift R190). -/
def shrFlag : Bool := false

/-- CLZ: "1 iff the counted word is 0" (40_bit_primitives R130). -/
def clzFlag (x : Nat) : Bool := decide (x = 0)

/-- SCONV: "1 iff a guard word was appended" (46_twos_complement R215). -/
def sconvFlag (guard : Bool) : Bool := guard

/-- NEG: "the carry out of the increment" (46_twos_complement R220). -/
def negFlag (carry : Nat) : Bool := decide (carry ≠ 0)

/-- ISNEG: "the sign bit" (46_twos_complement R225). -/
def isnegFlag (sign : Bool) : Bool := sign

/-- CMPLT: "1 iff val(A) < val(B)" (45_compare_normalize R200). -/
def cmpltFlag (lt : Bool) : Bool := lt

/-- NORM: "1 iff every word of A is 0" (45_compare_normalize R205). -/
def normFlag (w : Nat) (a : WordArray) : Bool := decide (val w a = 0)

end Sys2Proof.Machine
end

