-- ==== Sys2Proof/Config.lean ====
section
/-! DEFINITION. What an implementation or its platform fixes (00_scope R6 to R8, 20_memory R80), and the free values: what
the spec leaves unspecified, as constants that nothing can evaluate. -/

namespace Sys2Proof

/-- The legal values of the word width W: "8, 16, 32, 64 and 128" (00_scope R6). -/
inductive WordWidth where
  | w8 | w16 | w32 | w64 | w128
deriving DecidableEq, Repr

/-- W in bits (00_scope R6). -/
def WordWidth.bits : WordWidth → Nat
  | .w8 => 8
  | .w16 => 16
  | .w32 => 32
  | .w64 => 64
  | .w128 => 128

/-- The parameters of the core (00_scope R6, R7) and of its platform (20_memory R80), "fixed at configuration time"
(R8). -/
structure Config where
  /-- The word width W (R6). -/
  width : WordWidth
  /-- AW − 1, so that AW has its legal values 1 to 24 and no other (R7). -/
  awPred : Fin 24
  /-- P_REG_BASE, the byte address of the register window (R80). -/
  regBase : Nat
  /-- P_WMEM_BASE, the byte address of the WMEM window (R80). -/
  wmemBase : Nat
deriving DecidableEq, Repr

namespace Config

/-- W, the word width in bits (00_scope R6). -/
def W (c : Config) : Nat := c.width.bits

/-- AW, the width of a WMEM word address (00_scope R7). -/
def AW (c : Config) : Nat := c.awPred.val + 1

/-- DEPTH = 2^AW, the number of words of WMEM (00_scope R7). -/
def depth (c : Config) : Nat := 2 ^ c.AW

/-- W/8, the bytes of a word in the byte view (20_memory R79). -/
def bytesPerWord (c : Config) : Nat := c.W / 8

/-- Shift mask = W − 1 (00_scope R8). The rules use it nowhere (44_shift R187). -/
def shiftMask (c : Config) : Nat := c.W - 1

/-- The reference configuration, W = 64 and AW = 10 (00_scope R6, R7). DESIGN CHOICE (log 2): the two window bases, which
the spec leaves open (20_memory R80). -/
def reference : Config := ⟨.w64, 9, 0x10000, 0x20000⟩

/-- FREE VALUE (log 10): byte `a` of a WMEM word that the spec calls unspecified, "a draw" (70_reset R270, R272), at the
`n`-th draw. -/
opaque freeByte : (n : Nat) → (a : Nat) → Byte

/-- FREE VALUE (log 10): the `k`-th shadow register where the spec calls the shadow unspecified (10_state R53), at the
`n`-th draw. -/
opaque freeReg : (n : Nat) → (k : Nat) → Reg

/-- What a byte of WMEM that nothing has written reads as. DESIGN CHOICE (log 4), unsafe: the spec says "unspecified"
(10_state R53). -/
def unwrittenByte : Byte := 0

end Config
end Sys2Proof
end

