-- ==== Sys2Proof/Syntax.lean ====
section
/-! DEFINITION. The twelve commands of the core as syntax, one constructor per row of spec/opcode_table.json
(30_encoding R103). -/

namespace Sys2Proof

/-- A command with the fields of the command word it takes (30_encoding R101 to R103). Its word-array operands are not in
the word: they are the shadow descriptor registers (R102). -/
inductive Instr where
  /-- ADD (41_add_sub R140). -/
  | add
  /-- SUB (41_add_sub R145). -/
  | sub
  /-- MUL (42_multiply R160). -/
  | mul
  /-- DIV (43_divide R170). -/
  | div
  /-- SHL by SHAMT (44_shift R185). -/
  | shl (shamt : Nat)
  /-- SHR by SHAMT (44_shift R190). -/
  | shr (shamt : Nat)
  /-- CLZ (40_bit_primitives R130). -/
  | clz
  /-- SCONV with ANEG and RNEG (46_twos_complement R215). -/
  | sconv (aneg rneg : Bool)
  /-- NEG (46_twos_complement R220). -/
  | neg
  /-- ISNEG (46_twos_complement R225). -/
  | isneg
  /-- CMPLT (45_compare_normalize R200). -/
  | cmplt
  /-- NORM (45_compare_normalize R205). -/
  | norm
deriving DecidableEq, Repr

end Sys2Proof
end

