-- ==== Sys2Proof/WellFormed.lean ====
section
/-! DEFINITION. Which commands have an encoding: the shift amount fits the 8-bit field SHAMT (30_encoding R101). Whether it
is below W is no matter of form: "a model refuses no amount at the encoding level" (44_shift R191). -/

namespace Sys2Proof

/-- The command's fields fit their places in the command word (30_encoding R101). -/
def Instr.wellFormed : Instr → Bool
  | .shl s => decide (s < 2 ^ 8)
  | .shr s => decide (s < 2 ^ 8)
  | .add => true
  | .sub => true
  | .mul => true
  | .div => true
  | .clz => true
  | .sconv _ _ => true
  | .neg => true
  | .isneg => true
  | .cmplt => true
  | .norm => true

end Sys2Proof
end

