-- ==== Sys2Proof/Decode.lean ====
section
/-! DEFINITION. The decoder of the 32-bit command word, total, with a name for every rejection (30_encoding R107), and after
it the encoder (R103, R108). -/

namespace Sys2Proof

/-- Why a command word is illegal. Every one of them is the error ILLEGAL (60_exceptions R241). -/
inductive Rejection where
  /-- A nonzero reserved bit (30_encoding R105). -/
  | reservedBits
  /-- A reserved command number (30_encoding R106). -/
  | reservedOp
  /-- A nonzero SHAMT on a command that takes none (30_encoding R104). -/
  | shamtNotTaken
  /-- A nonzero ANEG or RNEG on a command that takes none (30_encoding R104). -/
  | signNotTaken
deriving DecidableEq, Repr

/-- `v[hi:lo]` = `(v >> lo) mod 2^(hi−lo+1)` (00_scope R10). -/
def bits (v : Reg) (hi lo : Nat) : Nat := (v.toNat >>> lo) % 2 ^ (hi - lo + 1)

/-- A command that takes no field (30_encoding R104). -/
def decodePlain (c : Reg) (i : Instr) : Except Rejection Instr :=
  if bits c 23 16 ≠ 0 then .error .shamtNotTaken
  else if bits c 8 8 ≠ 0 ∨ bits c 9 9 ≠ 0 then .error .signNotTaken
  else .ok i

/-- A command that takes SHAMT alone (30_encoding R102, R104). -/
def decodeShift (c : Reg) (mk : Nat → Instr) : Except Rejection Instr :=
  if bits c 8 8 ≠ 0 ∨ bits c 9 9 ≠ 0 then .error .signNotTaken
  else .ok (mk (bits c 23 16))

/-- A command that takes ANEG and RNEG alone (30_encoding R102, R104). -/
def decodeSign (c : Reg) (mk : Bool → Bool → Instr) : Except Rejection Instr :=
  if bits c 23 16 ≠ 0 then .error .shamtNotTaken
  else .ok (mk (decide (bits c 8 8 = 1)) (decide (bits c 9 9 = 1)))

/-- The decode function, total on every 32-bit word (30_encoding R107). -/
def decode (c : Reg) : Except Rejection Instr :=
  if bits c 31 24 ≠ 0 ∨ bits c 15 10 ≠ 0 ∨ bits c 7 5 ≠ 0 then .error .reservedBits
  else
    match bits c 4 0 with
    | 0x01 => decodePlain c .add
    | 0x02 => decodePlain c .sub
    | 0x03 => decodePlain c .mul
    | 0x04 => decodePlain c .div
    | 0x05 => decodeShift c .shl
    | 0x06 => decodeShift c .shr
    | 0x07 => decodePlain c .clz
    | 0x08 => decodeSign c .sconv
    | 0x09 => decodePlain c .neg
    | 0x0A => decodePlain c .isneg
    | 0x0B => decodePlain c .cmplt
    | 0x0C => decodePlain c .norm
    | _ => .error .reservedOp

/-- The decoder on a word of `nbits` bits numbered as spec/opcode_table.json numbers them. There is one format of 32 bits
(30_encoding R100); a shorter row has zeros above its bits, and a longer word is no command word. -/
def decodeTableWord (nbits w : Nat) : Option Instr :=
  if nbits ≤ 32 then
    match decode (BitVec.ofNat 32 (w % 2 ^ nbits)) with
    | .ok i => some i
    | .error _ => none
  else none

/-- The command number, field OP (30_encoding R103). -/
def Instr.opNumber : Instr → Nat
  | .add => 0x01
  | .sub => 0x02
  | .mul => 0x03
  | .div => 0x04
  | .shl _ => 0x05
  | .shr _ => 0x06
  | .clz => 0x07
  | .sconv _ _ => 0x08
  | .neg => 0x09
  | .isneg => 0x0A
  | .cmplt => 0x0B
  | .norm => 0x0C

/-- SHAMT and the sign bits at their places (30_encoding R101, R108). -/
def Instr.fieldBits : Instr → Nat
  | .shl s => s * 2 ^ 16
  | .shr s => s * 2 ^ 16
  | .sconv aneg rneg => aneg.toNat * 2 ^ 8 + rneg.toNat * 2 ^ 9
  | .add => 0
  | .sub => 0
  | .mul => 0
  | .div => 0
  | .clz => 0
  | .neg => 0
  | .isneg => 0
  | .cmplt => 0
  | .norm => 0

/-- The command word of a command (30_encoding R108). -/
def encode (i : Instr) : Reg := BitVec.ofNat 32 (i.opNumber + i.fieldBits)

end Sys2Proof
end

