-- ==== Sys2Proof/Machine/State.lean ====
section
/-! DEFINITION. The state of the core as plain data (10_state), the reasons a step can stop, and the state after a power-on
reset (10_state R53, 70_reset R270). -/

namespace Sys2Proof.Machine

/-- The error codes of STATUS.ECODE; the codes 9 to 15 are "never produced" (60_exceptions R241). -/
inductive ECode where
  | noError | illegal | shamt | len | range | overlap | notnorm | div0 | underflow
deriving DecidableEq, Repr

/-- The fields of STATUS (10_state R40); every other bit is reserved and reads 0 (R36). -/
structure Status where
  busy : Bool
  done : Bool
  err : Bool
  flag : Bool
  ovr : Bool
  ecode : ECode
deriving DecidableEq, Repr

/-- STATUS with every field 0 (10_state R53). -/
def Status.zero : Status := ⟨false, false, false, false, false, .noError⟩

/-- The operand descriptor registers (10_state R44). -/
structure Descriptors where
  aBase : Reg
  aLen : Reg
  bBase : Reg
  bLen : Reg
  rBase : Reg
  r2Base : Reg
deriving DecidableEq, Repr

/-- Every descriptor register 0 (10_state R53). -/
def Descriptors.zero : Descriptors := ⟨0, 0, 0, 0, 0, 0⟩

/-- The shadow S: the copy of CMD and of the descriptors latched at launch (10_state R46). -/
structure Shadow where
  cmd : Reg
  desc : Descriptors
deriving DecidableEq, Repr

/-- The phase of the core (10_state R47). -/
inductive Phase where
  | idle | busy
deriving DecidableEq, Repr

/-- The named host registers (10_state R33). -/
inductive RegName where
  | id | ctrl | status | cmd | aBase | aLen | bBase | bLen | rBase | r2Base | rLen | r2Len | res
deriving DecidableEq, Repr

/-- One access at the core's own ports (30_encoding R109): the registers by their 4-bit index (10_state R33), WMEM by word
address (20_memory R71). -/
inductive Access where
  | regRead (k : BitVec 4)
  | regWrite (k : BitVec 4) (v : Reg)
  | memRead (a : Nat)
  | memWrite (a : Nat) (v : Nat)
deriving DecidableEq, Repr

/-- One access on a byte bus in front of the ports (20_memory R79 to R81): a byte address and a size, or the bytes written,
the byte at the lowest address first. -/
inductive BusAccess where
  | read (addr : Nat) (size : Nat)
  | write (addr : Nat) (data : List Byte)
deriving DecidableEq, Repr

/-- An access with the bus master that makes it (20_memory R89), and whether it came over the byte bus, so that a value read
goes back as bytes (20_memory R79). -/
structure Request where
  master : Nat
  access : Access
  asBytes : Bool
deriving DecidableEq, Repr

/-- What the outside does next (log 6). -/
inductive Input where
  /-- A master's access at the ports (10_state R30). -/
  | host (master : Nat) (a : Access)
  /-- A master's access on the byte bus (20_memory R81). -/
  | bus (master : Nat) (a : BusAccess)
  /-- The core takes its turn: the completion step, if a command is in flight (10_state R47). -/
  | core
  /-- The reset input is asserted (70_reset R270). -/
  | assertReset
  /-- The reset input is released (70_reset R270). -/
  | releaseReset
deriving DecidableEq, Repr

/-- A value a read returns: a register's (10_state R34), a word's (20_memory R71), or the bytes of either on the byte bus,
least significant first (20_memory R79). -/
inductive ReadValue where
  | reg (v : Reg)
  | word (v : Nat)
  | bytes (bs : List Byte)
deriving DecidableEq, Repr

/-- The answer of a port to one master's read (log 9). -/
structure Returned where
  master : Nat
  value : ReadValue
deriving DecidableEq, Repr

/-- WMEM as the bytes of its byte view, in one canonical form: addresses strictly rising, no entry equal to what an unlisted
address reads as (logs 3 and 4). -/
abbrev Memory := List Host.Cell

/-- The state of the core. -/
structure State where
  /-- W, AW and the window bases: constants that no step changes (00_scope R6 to R8; log 1). -/
  cfg : Config
  /-- CTRL.IE (10_state R38). -/
  ie : Bool
  /-- STATUS (10_state R40); its bit BUSY is the phase (R47). -/
  status : Status
  /-- CMD (10_state R43). -/
  cmd : Reg
  /-- A_BASE to R2_BASE (10_state R44). -/
  desc : Descriptors
  /-- R_LEN (10_state R45). -/
  rLen : Reg
  /-- R2_LEN (10_state R45). -/
  r2Len : Reg
  /-- RES (10_state R45). -/
  res : Reg
  /-- The shadow S (10_state R46). -/
  shadow : Shadow
  /-- WMEM (10_state R51). -/
  wmem : Memory
  /-- Host WMEM accesses held while BUSY, oldest first (20_memory R73). -/
  held : List Request
  /-- The reset input is asserted (70_reset R270, R271). -/
  resetIn : Bool
  /-- The model's own: what the outside does next (log 6). -/
  inputs : List Input
  /-- The model's own: what the latest host read returned (log 9). -/
  readData : Option Returned
  /-- The model's own: the counter the free values are taken at (log 10). -/
  draws : Nat
deriving DecidableEq, Repr

/-- Why the machine stops with a fault. -/
inductive Fault where
  /-- Raised by a host WMEM access at a word address of DEPTH or more, which "can[not] be expressed at the port"
  (20_memory R71). Safe: the machine stops where the hardware has no such access (log 13). -/
  | noSuchWord
deriving DecidableEq, Repr

/-- Why the machine gives no meaning. -/
inductive Refusal where
  /-- An instruction without a meaning, by its mnemonic. Safe. No arm of this model uses it. -/
  | notModelled (mnemonic : String)
  /-- Raised by a host access while the reset input is asserted: "not defined by this spec; the platform must not issue one"
  (70_reset R271). Safe: the machine stops where the spec gives no behaviour (log 12). -/
  | accessDuringReset
  /-- Raised by a byte bus access other than those 20_memory R81 admits, which a model "refuses". Safe: its outcome is the
  platform's (log 14). -/
  | busAccessNotAdmitted
deriving DecidableEq, Repr

/-- The state after a power-on reset in a configuration (10_state R53, 70_reset R270). DESIGN CHOICE: the shadow 0 (log 5),
WMEM with nothing listed (log 4), the model's own fields (logs 6, 9, 10). -/
def State.resetOf (cfg : Config) : State where
  cfg := cfg
  ie := false
  status := .zero
  cmd := 0
  desc := .zero
  rLen := 0
  r2Len := 0
  res := 0
  shadow := ⟨0, .zero⟩
  wmem := []
  held := []
  resetIn := false
  inputs := []
  readData := none
  draws := 0

/-- The state after a power-on reset, in the reference configuration (logs 1 and 2). -/
def State.reset : State := .resetOf .reference

/-- The phase "is always equal to STATUS.BUSY" (10_state R47). -/
def State.phase (s : State) : Phase := if s.status.busy then .busy else .idle

end Sys2Proof.Machine
end

