-- ==== Sys2Proof/Machine/Ops.lean ====
section
/-! DEFINITION. The shared operations: WMEM (20_memory), the launch, the success completion and the error completion
(60_exceptions R245 to R247), and the host's acknowledgement (R252). -/

namespace Sys2Proof.Machine

/-! ## The bytes of WMEM (logs 3 and 4) -/

/-- Reads one byte of the byte view of WMEM. -/
def Memory.read : Memory → Nat → Byte
  | [], _ => Config.unwrittenByte
  | (b, v) :: rest, a => if b = a then v else Memory.read rest a

/-- Writes one byte, and keeps the canonical form. -/
def Memory.write : Memory → Nat → Byte → Memory
  | [], a, v => if v = Config.unwrittenByte then [] else [(a, v)]
  | (b, u) :: rest, a, v =>
    if a < b then (if v = Config.unwrittenByte then (b, u) :: rest else (a, v) :: (b, u) :: rest)
    else if a = b then (if v = Config.unwrittenByte then rest else (a, v) :: rest)
    else (b, u) :: Memory.write rest a v

/-- The canonical form: addresses strictly rising, and no entry equal to what an unlisted address reads as. -/
abbrev Memory.wf (m : Memory) : Prop :=
  m.Pairwise (fun p q => p.1 < q.1) ∧ ∀ c ∈ m, c.2 ≠ Config.unwrittenByte

/-- Writes bytes at ascending addresses. -/
def Memory.writeBytes : Memory → Nat → List Byte → Memory
  | m, _, [] => m
  | m, a, b :: bs => Memory.writeBytes (m.write a b) (a + 1) bs

/-- The value of bytes given with the least significant one first (20_memory R79). -/
def fromBytes : List Byte → Nat
  | [] => 0
  | b :: bs => b.toNat + 256 * fromBytes bs

/-- The `n` bytes of a value, the least significant one first (20_memory R79). -/
def toBytes : (n : Nat) → (v : Nat) → List Byte
  | 0, _ => []
  | n + 1, v => BitVec.ofNat 8 v :: toBytes n (v / 256)

/-! ## The words of WMEM (10_state R51, 20_memory R79) -/

/-- `WMEM[a]` (00_scope R16): word `a` is bytes `a·(W/8)` to `a·(W/8) + W/8 − 1`. -/
def readWord (c : Config) (m : Memory) (a : Nat) : Nat :=
  fromBytes ((List.range c.bytesPerWord).map fun j => m.read (a * c.bytesPerWord + j))

/-- `WMEM[a] <- v`, with `v mod 2^W` stored (00_scope R16, 30_encoding R109). -/
def writeWord (c : Config) (m : Memory) (a : Nat) (v : Nat) : Memory :=
  m.writeBytes (a * c.bytesPerWord) (toBytes c.bytesPerWord v)

/-- `MemRead(a, n)` (00_scope R16). -/
def readArray (c : Config) (m : Memory) (a n : Nat) : WordArray :=
  (List.range n).map fun i => readWord c m (a + i)

/-- `MemWrite(a, n, X)` for `n` the length of X (00_scope R16). -/
def writeArray (c : Config) : Memory → Nat → WordArray → Memory
  | m, _, [] => m
  | m, a, x :: xs => writeArray c (writeWord c m a x) (a + 1) xs

/-! ## Launch and completion -/

/-- `launch()`: CMD and the descriptors latched into the shadow, DONE, ERR and ECODE cleared, the phase BUSY
(60_exceptions R245). -/
def launch (s : State) : State :=
  { s with
    shadow := ⟨s.cmd, s.desc⟩
    status := { s.status with done := false, err := false, ecode := .noError, busy := true } }

/-- `error_completion(e)`, how every error is taken: nothing is saved and there is no vector (60_exceptions R252); STATUS
records it and the phase returns to IDLE (R246). -/
def errorCompletion (e : ECode) (s : State) : State :=
  { s with
    status := { s.status with err := true, ecode := e, flag := false, busy := false, done := true } }

/-- `success_completion(f)`: the flag, and the phase returns to IDLE (60_exceptions R247). -/
def successCompletion (f : Bool) (s : State) : State :=
  { s with status := { s.status with flag := f, busy := false, done := true } }

/-- The host's write of STATUS: DONE and OVR are cleared by writing 1 (10_state R41). It is the host's return from an error,
"it clears DONE by W1C" (60_exceptions R252). -/
def acknowledge (v : Reg) (s : State) : State :=
  { s with
    status := { s.status with
      done := s.status.done && !v.getLsbD 1
      ovr := s.status.ovr && !v.getLsbD 4 } }

/-- The interrupt output, `irq = CTRL.IE ∧ STATUS.DONE` (60_exceptions R250). -/
def State.irq (s : State) : Bool := s.ie && s.status.done

/-- What the pseudocode of a command's rule produces: the words of its MemWrite calls at S.R_BASE and S.R2_BASE, its writes
of R_LEN, R2_LEN and RES, "each only where the rule names it" (10_state R45), and its flag (R49). -/
structure Effect where
  r : WordArray := []
  r2 : WordArray := []
  rLen : Option Nat := none
  r2Len : Option Nat := none
  res : Option Nat := none
  flag : Bool
deriving DecidableEq, Repr

/-- A result register after a completion: `zext_32` of what the rule writes, else unchanged (10_state R45). -/
def resultReg (old : Reg) : Option Nat → Reg
  | none => old
  | some v => BitVec.ofNat 32 v

/-- The MemWrite calls of a command and its writes of the result registers (60_exceptions R247). -/
def writeResults (e : Effect) (s : State) : State :=
  { s with
    wmem := writeArray s.cfg (writeArray s.cfg s.wmem s.shadow.desc.rBase.toNat e.r) s.shadow.desc.r2Base.toNat e.r2
    rLen := resultReg s.rLen e.rLen
    r2Len := resultReg s.r2Len e.r2Len
    res := resultReg s.res e.res }

/-- `complete(FLAG = f)` after the pseudocode of the command's rule (60_exceptions R247, R248). -/
def finish (e : Effect) (s : State) : State := successCompletion e.flag (writeResults e s)

end Sys2Proof.Machine
end

