-- ==== Sys2Proof/Machine/Operands.lean ====
section
/-! DEFINITION. The operands of a command: its regions (00_scope R15, 20_memory R74, R75), its input arrays (00_scope R17), and
the checks every completion runs on them (60_exceptions R242 to R244, R249). -/

namespace Sys2Proof.Machine

/-- A region of WMEM words (00_scope R15). -/
structure Region where
  base : Nat
  len : Nat
deriving DecidableEq, Repr

/-- "in range iff base + n ≤ DEPTH", in unbounded arithmetic (00_scope R15, 60_exceptions R243). -/
def Region.inRange (c : Config) (r : Region) : Bool := decide (r.base + r.len ≤ c.depth)

/-- "overlap iff b1 < b2 + n2 and b2 < b1 + n1" (00_scope R15). -/
def Region.overlaps (r q : Region) : Bool := decide (r.base < q.base + q.len ∧ q.base < r.base + r.len)

/-! ## What each command uses (20_memory R74, R75, R78, 60_exceptions R249) -/

/-- `uses_B` "holds for ADD, SUB, MUL, DIV and CMPLT" (60_exceptions R242, 20_memory R74). -/
def usesB : Instr → Bool
  | .add => true
  | .sub => true
  | .mul => true
  | .div => true
  | .shl _ => false
  | .shr _ => false
  | .clz => false
  | .sconv _ _ => false
  | .neg => false
  | .isneg => false
  | .cmplt => true
  | .norm => false

/-- capR, the capacity of output region R; none for a command without one (20_memory R75). -/
def capR (la lb : Nat) : Instr → Option Nat
  | .add => some (max la lb + 1)
  | .sub => some la
  | .mul => some (la + lb)
  | .div => some la
  | .shl _ => some (la + 1)
  | .shr _ => some la
  | .clz => none
  | .sconv _ _ => some (la + 1)
  | .neg => some la
  | .isneg => none
  | .cmplt => none
  | .norm => none

/-- capR2, the capacity of output region R2; none for a command without one (20_memory R75). -/
def capR2 (lb : Nat) : Instr → Option Nat
  | .add => none
  | .sub => none
  | .mul => none
  | .div => some (lb + 1)
  | .shl _ => none
  | .shr _ => none
  | .clz => none
  | .sconv _ _ => none
  | .neg => none
  | .isneg => none
  | .cmplt => none
  | .norm => none

/-- "for SHL, SHR and NEG the output region R may start at the same address as A" (20_memory R78). -/
def mayBeInPlace : Instr → Bool
  | .add => false
  | .sub => false
  | .mul => false
  | .div => false
  | .shl _ => true
  | .shr _ => true
  | .clz => false
  | .sconv _ _ => false
  | .neg => true
  | .isneg => false
  | .cmplt => false
  | .norm => false

/-- The commands whose A must be normalized (60_exceptions R249); of these, the ones that use B need B normalized too. -/
def needsNormalized : Instr → Bool
  | .add => true
  | .sub => true
  | .mul => true
  | .div => true
  | .shl _ => true
  | .shr _ => true
  | .clz => false
  | .sconv _ _ => false
  | .neg => false
  | .isneg => false
  | .cmplt => true
  | .norm => false

/-- SHL or SHR with `SHAMT ≥ W` (60_exceptions R241). -/
def shiftTooFar (c : Config) : Instr → Bool
  | .shl s => decide (c.W ≤ s)
  | .shr s => decide (c.W ≤ s)
  | .add => false
  | .sub => false
  | .mul => false
  | .div => false
  | .clz => false
  | .sconv _ _ => false
  | .neg => false
  | .isneg => false
  | .cmplt => false
  | .norm => false

/-! ## Regions of the command in flight -/

/-- Input region A, `(S.A_BASE, S.A_LEN)` (20_memory R74). -/
def regionA (d : Descriptors) : Region := ⟨d.aBase.toNat, d.aLen.toNat⟩

/-- Input region B, `(S.B_BASE, S.B_LEN)` (20_memory R74). -/
def regionB (d : Descriptors) : Region := ⟨d.bBase.toNat, d.bLen.toNat⟩

/-- Output region R, if the command has one (20_memory R75). -/
def regionR (i : Instr) (d : Descriptors) : Option Region :=
  (capR d.aLen.toNat d.bLen.toNat i).map (⟨d.rBase.toNat, ·⟩)

/-- Output region R2, if the command has one (20_memory R75). -/
def regionR2 (i : Instr) (d : Descriptors) : Option Region :=
  (capR2 d.bLen.toNat i).map (⟨d.r2Base.toNat, ·⟩)

/-- The input regions the command uses (20_memory R74). -/
def inputRegions (i : Instr) (d : Descriptors) : List Region :=
  regionA d :: (if usesB i then [regionB d] else [])

/-- The output regions the command uses (20_memory R75). -/
def outputRegions (i : Instr) (d : Descriptors) : List Region :=
  (regionR i d).toList ++ (regionR2 i d).toList

/-- The placement rules 2 to 4 of 20_memory R78, for one output region: clear of B, and clear of A but for the in-place
forms. -/
def outputPlaced (i : Instr) (d : Descriptors) (o : Region) : Bool :=
  (!usesB i || !o.overlaps (regionB d)) &&
    (!o.overlaps (regionA d) || (mayBeInPlace i && decide (o.base = d.aBase.toNat)))

/-- R and R2 do not overlap each other (20_memory R78, rule 4). -/
def outputsApart (i : Instr) (d : Descriptors) : Bool :=
  match regionR i d, regionR2 i d with
  | some r, some r2 => !r.overlaps r2
  | some _, none => true
  | none, _ => true

/-- The placement breaks no rule of 20_memory R78 (60_exceptions R244). -/
def placementLegal (i : Instr) (d : Descriptors) : Bool :=
  (outputRegions i d).all (outputPlaced i d) && outputsApart i d

/-! ## Inputs and checks -/

/-- `A = MemRead(S.A_BASE, S.A_LEN)` (00_scope R17). -/
def State.inputA (s : State) : WordArray :=
  readArray s.cfg s.wmem s.shadow.desc.aBase.toNat s.shadow.desc.aLen.toNat

/-- `B = MemRead(S.B_BASE, S.B_LEN)` (00_scope R17). -/
def State.inputB (s : State) : WordArray :=
  readArray s.cfg s.wmem s.shadow.desc.bBase.toNat s.shadow.desc.bLen.toNat

/-- Some input that must be normalized is not (60_exceptions R249). -/
def unnormalizedInput (i : Instr) (s : State) : Bool :=
  needsNormalized i && (!isNormalized s.inputA || (usesB i && !isNormalized s.inputB))

/-- `check()` after its first line, for a word that decodes to `i`: the code of the first check that fails (60_exceptions
R242). The first line, ILLEGAL, is the completion step's (completionStep). -/
def check (i : Instr) (s : State) : ECode :=
  if shiftTooFar s.cfg i then .shamt
  else if s.shadow.desc.aLen = 0 ∨ (usesB i ∧ s.shadow.desc.bLen = 0) then .len
  else if (inputRegions i s.shadow.desc ++ outputRegions i s.shadow.desc).any (fun r => !r.inRange s.cfg) then .range
  else if ¬ placementLegal i s.shadow.desc then .overlap
  else if unnormalizedInput i s then .notnorm
  else if i = .div ∧ val s.cfg.W s.inputB = 0 then .div0
  else if i = .sub ∧ val s.cfg.W s.inputA < val s.cfg.W s.inputB then .underflow
  else .noError

/-- The completion of command `i`, whose rule produces `e`: an error completion with the first failed check, else the
effect and the success completion (60_exceptions R248). -/
def complete (i : Instr) (e : Effect) (s : State) : Host.Outcome State Fault Refusal :=
  if check i s = .noError then .next (finish e s) else .next (errorCompletion (check i s) s)

end Sys2Proof.Machine
end

