-- ==== Sys2Proof/Machine/AddSub.lean ====
section
/-! DEFINITION. The unsigned adder and subtractor ADD and SUB (41_add_sub). -/

namespace Sys2Proof.Machine

/-- The loop of ADD over the pairs `(ai, bi)`, from carry `c`: the sum words and the final carry (41_add_sub R140). -/
def addChain (w : Nat) : (c : Nat) → List (Nat × Nat) → WordArray × Nat
  | c, [] => ([], c)
  | c, (a, b) :: rest =>
    let t := a + b + c
    let r := addChain w (t / 2 ^ w) rest
    (t % 2 ^ w :: r.1, r.2)

/-- The loop of SUB over the pairs `(A[i], bi)`, from borrow `br`: the difference words and the final borrow
(41_add_sub R145). -/
def subChain (w : Nat) : (br : Nat) → List (Nat × Nat) → WordArray × Nat
  | br, [] => ([], br)
  | br, (a, b) :: rest =>
    if a < b + br then
      let r := subChain w 1 rest
      ((a + 2 ^ w - (b + br)) :: r.1, r.2)
    else
      let r := subChain w 0 rest
      ((a - (b + br)) :: r.1, r.2)

/-- The pairs `(ai, bi)` for `i < n`, 0 beyond the shorter operand (41_add_sub R140, R145). -/
def pairsTo (n : Nat) (a b : WordArray) : List (Nat × Nat) := (padTo n a).zip (padTo n b)

/-- The pseudocode of ADD (41_add_sub R140). -/
def addEffect (w : Nat) (a b : WordArray) : Effect :=
  let sum := addChain w 0 (pairsTo (max a.length b.length) a b)
  let rw := sum.1 ++ [sum.2]
  { r := rw, rLen := some (normLen rw), flag := addFlag sum.2 }

/-- The pseudocode of SUB (41_add_sub R145). -/
def subEffect (w : Nat) (a b : WordArray) : Effect :=
  let rw := (subChain w 0 (pairsTo a.length a b)).1
  { r := rw, rLen := some (normLen rw), flag := subFlag }

/-- ADD (41_add_sub R140). -/
def execAdd (s : State) : Host.Outcome State Fault Refusal :=
  complete .add (addEffect s.cfg.W s.inputA s.inputB) s

/-- SUB (41_add_sub R145). -/
def execSub (s : State) : Host.Outcome State Fault Refusal :=
  complete .sub (subEffect s.cfg.W s.inputA s.inputB) s

end Sys2Proof.Machine
end

