-- ==== Sys2Proof/Machine/BitPrim.lean ====
section
/-! DEFINITION. The bit primitive CLZ (40_bit_primitives). -/

namespace Sys2Proof.Machine

/-- CLZ of the top word of A (40_bit_primitives R130). -/
def clzEffect (w : Nat) (a : WordArray) : Effect :=
  { res := some (clz w (topWord a)), flag := clzFlag (topWord a) }

/-- CLZ (40_bit_primitives R130). -/
def execClz (s : State) : Host.Outcome State Fault Refusal :=
  complete .clz (clzEffect s.cfg.W s.inputA) s

end Sys2Proof.Machine
end

