-- ==== Sys2Proof/Machine/Compare.lean ====
section
/-! DEFINITION. Comparison and normalization: CMPLT, NORM and the internal comparisons (45_compare_normalize). -/

namespace Sys2Proof.Machine

/-- "compare words from most significant to least, first mismatch decides; identical ⇒ false", on the pairs of words with the
most significant pair first (45_compare_normalize R201). -/
def firstMismatchLess : List (Nat × Nat) → Bool
  | [] => false
  | (x, y) :: rest => if x ≠ y then decide (x < y) else firstMismatchLess rest

/-- `less_than(X, Y)` for normalized arrays (45_compare_normalize R201). -/
def lessThan (x y : WordArray) : Bool :=
  if x.length ≠ y.length then decide (x.length < y.length) else firstMismatchLess (x.zip y).reverse

/-- `seeking_less_than(X, Y)`: the comparison of the trimmed arrays (45_compare_normalize R210). -/
def seekingLessThan (x y : WordArray) : Bool := lessThan (x.take (normLen x)) (y.take (normLen y))

/-- The pseudocode of CMPLT (45_compare_normalize R200). -/
def cmpltEffect (a b : WordArray) : Effect :=
  let lt := lessThan a b
  { res := some lt.toNat, flag := cmpltFlag lt }

/-- The pseudocode of NORM (45_compare_normalize R205). -/
def normEffect (w : Nat) (a : WordArray) : Effect :=
  { rLen := some (normLen a), flag := normFlag w a }

/-- CMPLT (45_compare_normalize R200). -/
def execCmplt (s : State) : Host.Outcome State Fault Refusal :=
  complete .cmplt (cmpltEffect s.inputA s.inputB) s

/-- NORM (45_compare_normalize R205). -/
def execNorm (s : State) : Host.Outcome State Fault Refusal :=
  complete .norm (normEffect s.cfg.W s.inputA) s

end Sys2Proof.Machine
end

