-- ==== Sys2Proof/Machine/Divide.lean ====
section
/-! DEFINITION. The restoring divider DIV (43_divide). -/

namespace Sys2Proof.Machine

/-- One iteration `k` of the divider on `(Q, Rm)`: shift the remainder left by one bit, bring in bit `k` of A, and where it
is not less than B subtract B and set bit `k` of Q (43_divide R170). -/
def divStep (w : Nat) (a b : WordArray) (k : Nat) (x : WordArray × WordArray) : WordArray × WordArray :=
  let rm := wordsOf w (b.length + 1) (2 * val w x.2 + (val w a >>> k) % 2)
  if seekingLessThan rm b then (x.1, rm)
  else (wordsOf w a.length (val w x.1 + 2 ^ k), wordsOf w (b.length + 1) (val w rm - val w b))

/-- The iterations `k − 1` down to 0 (43_divide R170). -/
def divLoop (w : Nat) (a b : WordArray) : (k : Nat) → WordArray × WordArray → WordArray × WordArray
  | 0, x => x
  | k + 1, x => divLoop w a b k (divStep w a b k x)

/-- Quotient and remainder, from cleared buffers (43_divide R170). -/
def divWords (w : Nat) (a b : WordArray) : WordArray × WordArray :=
  divLoop w a b (bitlen w a) (List.replicate a.length 0, List.replicate (b.length + 1) 0)

/-- The pseudocode of DIV (43_divide R170). -/
def divEffect (w : Nat) (a b : WordArray) : Effect :=
  let x := divWords w a b
  { r := x.1, r2 := x.2, rLen := some (normLen x.1), r2Len := some (normLen x.2), flag := divFlag }

/-- DIV (43_divide R170). -/
def execDiv (s : State) : Host.Outcome State Fault Refusal :=
  complete .div (divEffect s.cfg.W s.inputA s.inputB) s

end Sys2Proof.Machine
end

