-- ==== Sys2Proof/Machine/Multiply.lean ====
section
/-! DEFINITION. The schoolbook multiplier MUL (42_multiply). -/

namespace Sys2Proof.Machine

/-- The loop of `shift_add` on the words from index `k` on, with carry `c` (42_multiply R160). A carry out of the last word,
which "never" happens (R161), would be dropped (log 18). -/
def rippleInto (w : Nat) : (c : Nat) → WordArray → WordArray
  | _, [] => []
  | c, p :: ps => if c = 0 then p :: ps else (p + c) % 2 ^ w :: rippleInto w ((p + c) / 2 ^ w) ps

/-- `shift_add(P, k, v)` (42_multiply R160). -/
def shiftAdd (w : Nat) (p : WordArray) (k v : Nat) : WordArray := p.take k ++ rippleInto w v (p.drop k)

/-- The inner loop for the word `ai = A[i]` over the words of B, the first of which has index `k − i` (42_multiply R160). -/
def mulRow (w ai : Nat) : (k : Nat) → WordArray → WordArray → WordArray
  | _, [], p => p
  | k, b :: bs, p =>
    if b = 0 then mulRow w ai (k + 1) bs p
    else
      let t := ai * b
      mulRow w ai (k + 1) bs (shiftAdd w (shiftAdd w p k (t % 2 ^ w)) (k + 1) (t / 2 ^ w))

/-- The outer loop over the words of A, the first of which has index `i` (42_multiply R160). -/
def mulRows (w : Nat) (b : WordArray) : (i : Nat) → WordArray → WordArray → WordArray
  | _, [], p => p
  | i, ai :: as, p => if ai = 0 then mulRows w b (i + 1) as p else mulRows w b (i + 1) as (mulRow w ai i b p)

/-- The product array P (42_multiply R160). -/
def mulWords (w : Nat) (a b : WordArray) : WordArray :=
  mulRows w b 0 a (List.replicate (a.length + b.length) 0)

/-- The pseudocode of MUL (42_multiply R160). -/
def mulEffect (w : Nat) (a b : WordArray) : Effect :=
  let p := mulWords w a b
  { r := p, rLen := some (normLen p), flag := mulFlag }

/-- MUL (42_multiply R160). -/
def execMul (s : State) : Host.Outcome State Fault Refusal :=
  complete .mul (mulEffect s.cfg.W s.inputA s.inputB) s

end Sys2Proof.Machine
end

