-- ==== Sys2Proof/Machine/Shift.lean ====
section
/-! DEFINITION. The shifter SHL and SHR (44_shift). -/

namespace Sys2Proof.Machine

/-- The loop of SHL from the least significant word up, with carry word `c`: the words and the escaped carry
(44_shift R185, R187). -/
def shlChain (w s : Nat) : (c : Nat) → WordArray → WordArray × Nat
  | c, [] => ([], c)
  | c, a :: rest =>
    let r := shlChain w s (if s = 0 then 0 else a >>> (w - s)) rest
    (((a <<< s) % 2 ^ w ||| c) :: r.1, r.2)

/-- The loop of SHR on the words with the most significant one first, with carry word `c` from the word above
(44_shift R190, R187). -/
def shrChain (w s : Nat) : (c : Nat) → WordArray → WordArray
  | _, [] => []
  | c, a :: rest => (a >>> s ||| c) :: shrChain w s (if s = 0 then 0 else (a <<< (w - s)) % 2 ^ w) rest

/-- The pseudocode of SHL (44_shift R185). -/
def shlEffect (w s : Nat) (a : WordArray) : Effect :=
  let x := shlChain w s 0 a
  let rw := x.1 ++ [x.2]
  { r := rw, rLen := some (normLen rw), flag := shlFlag x.2 }

/-- The pseudocode of SHR (44_shift R190). -/
def shrEffect (w s : Nat) (a : WordArray) : Effect :=
  let rw := (shrChain w s 0 a.reverse).reverse
  { r := rw, rLen := some (normLen rw), flag := shrFlag }

/-- SHL (44_shift R185). -/
def execShl (k : Nat) (s : State) : Host.Outcome State Fault Refusal :=
  complete (.shl k) (shlEffect s.cfg.W k s.inputA) s

/-- SHR (44_shift R190). -/
def execShr (k : Nat) (s : State) : Host.Outcome State Fault Refusal :=
  complete (.shr k) (shrEffect s.cfg.W k s.inputA) s

end Sys2Proof.Machine
end

