-- ==== Sys2Proof/Machine/TwosComplement.lean ====
section
/-! DEFINITION. The two's-complement converter SCONV, NEG and ISNEG (46_twos_complement). -/

namespace Sys2Proof.Machine

/-- The loop of `twos` from carry `c`: complement, then the increment ripples; the words and the final carry
(46_twos_complement R221). -/
def twosChain (w : Nat) : (c : Nat) → WordArray → WordArray × Nat
  | c, [] => ([], c)
  | c, x :: rest =>
    let t := (2 ^ w - 1 - x) + c
    let r := twosChain w (t / 2 ^ w) rest
    (t % 2 ^ w :: r.1, r.2)

/-- `twos(X)` (46_twos_complement R221). -/
def twos (w : Nat) (xs : WordArray) : WordArray × Nat := twosChain w 1 xs

/-- The words T[0 .. n−1] of SCONV: a copy where the polarities match, else the two's complement
(46_twos_complement R215). -/
def sconvBody (w : Nat) (aneg rneg : Bool) (a : WordArray) : WordArray :=
  if aneg = rneg then a else (twos w a).1

/-- A guard word is needed: the sign bit of the last produced word is not the polarity wanted (46_twos_complement R215). -/
def sconvGuard (w : Nat) (aneg rneg : Bool) (a : WordArray) : Bool :=
  topBit w (sconvBody w aneg rneg a) != rneg

/-- The word T[n]: the guard word, "all-zero if the result must read nonnegative, all-ones if it must read negative", or the
spare word 0 (46_twos_complement R215, R216). -/
def sconvLast (w : Nat) (aneg rneg : Bool) (a : WordArray) : Nat :=
  if sconvGuard w aneg rneg a then (if rneg then 2 ^ w - 1 else 0) else 0

/-- The pseudocode of SCONV (46_twos_complement R215). -/
def sconvEffect (w : Nat) (aneg rneg : Bool) (a : WordArray) : Effect :=
  { r := sconvBody w aneg rneg a ++ [sconvLast w aneg rneg a]
    rLen := some (if sconvGuard w aneg rneg a then a.length + 1 else a.length)
    flag := sconvFlag (sconvGuard w aneg rneg a) }

/-- The pseudocode of NEG (46_twos_complement R220). -/
def negEffect (w : Nat) (a : WordArray) : Effect :=
  let x := twos w a
  { r := x.1, rLen := some a.length, flag := negFlag x.2 }

/-- The pseudocode of ISNEG (46_twos_complement R225). -/
def isnegEffect (w : Nat) (a : WordArray) : Effect :=
  let neg := topBit w a
  { res := some neg.toNat, flag := isnegFlag neg }

/-- SCONV (46_twos_complement R215). -/
def execSconv (aneg rneg : Bool) (s : State) : Host.Outcome State Fault Refusal :=
  complete (.sconv aneg rneg) (sconvEffect s.cfg.W aneg rneg s.inputA) s

/-- NEG (46_twos_complement R220). -/
def execNeg (s : State) : Host.Outcome State Fault Refusal :=
  complete .neg (negEffect s.cfg.W s.inputA) s

/-- ISNEG (46_twos_complement R225). -/
def execIsneg (s : State) : Host.Outcome State Fault Refusal :=
  complete .isneg (isnegEffect s.cfg.W s.inputA) s

end Sys2Proof.Machine
end

