-- ==== Sys2Proof/Machine/Dispatch.lean ====
section
/-! DEFINITION. The completion of each command, one arm per constructor of Instr. -/

namespace Sys2Proof.Machine

/-- The completion of command `i` on the shadow's operands (60_exceptions R248). -/
def exec (i : Instr) (s : State) : Host.Outcome State Fault Refusal :=
  match i with
  | .add => Sys2Proof.Machine.execAdd s
  | .sub => Sys2Proof.Machine.execSub s
  | .mul => Sys2Proof.Machine.execMul s
  | .div => Sys2Proof.Machine.execDiv s
  | .shl k => Sys2Proof.Machine.execShl k s
  | .shr k => Sys2Proof.Machine.execShr k s
  | .clz => Sys2Proof.Machine.execClz s
  | .sconv aneg rneg => Sys2Proof.Machine.execSconv aneg rneg s
  | .neg => Sys2Proof.Machine.execNeg s
  | .isneg => Sys2Proof.Machine.execIsneg s
  | .cmplt => Sys2Proof.Machine.execCmplt s
  | .norm => Sys2Proof.Machine.execNorm s

end Sys2Proof.Machine
end

