-- ==== Sys2Proof/Machine/Ports.lean ====
section
/-! DEFINITION. The host's side of the core: the register port (10_state R33 to R45), the WMEM port (20_memory R71 to R73), soft
reset and the reset input (70_reset R270 to R272), and the byte bus in front of the ports (20_memory R79 to R81). -/

namespace Sys2Proof.Machine

/-! ## The register port -/

/-- The register of an index; none for the reserved indices 13 to 15 (10_state R33). -/
def RegName.ofIndex (k : BitVec 4) : Option RegName :=
  match k.toNat with
  | 0 => some .id
  | 1 => some .ctrl
  | 2 => some .status
  | 3 => some .cmd
  | 4 => some .aBase
  | 5 => some .aLen
  | 6 => some .bBase
  | 7 => some .bLen
  | 8 => some .rBase
  | 9 => some .r2Base
  | 10 => some .rLen
  | 11 => some .r2Len
  | 12 => some .res
  | _ => none

/-- The value of ID: WBITS, AWBITS, VERSION 1 and MAGIC 0xB5 (10_state R37). -/
def idValue (c : Config) : Reg := BitVec.ofNat 32 (c.W + c.AW * 2 ^ 8 + 1 * 2 ^ 16 + 0xB5 * 2 ^ 24)

/-- The number of an error code (60_exceptions R241). -/
def ECode.code : ECode → Nat
  | .noError => 0
  | .illegal => 1
  | .shamt => 2
  | .len => 3
  | .range => 4
  | .overlap => 5
  | .notnorm => 6
  | .div0 => 7
  | .underflow => 8

/-- The 32-bit value of STATUS (10_state R40). -/
def Status.value (t : Status) : Reg :=
  BitVec.ofNat 32 (t.busy.toNat + t.done.toNat * 2 ^ 1 + t.err.toNat * 2 ^ 2 + t.flag.toNat * 2 ^ 3 + t.ovr.toNat * 2 ^ 4
    + t.ecode.code * 2 ^ 8)

/-- The value of a named register (10_state R34, R37 to R45). -/
def regValue (s : State) : RegName → Reg
  | .id => idValue s.cfg
  | .ctrl => BitVec.ofNat 32 s.ie.toNat
  | .status => s.status.value
  | .cmd => s.cmd
  | .aBase => s.desc.aBase
  | .aLen => s.desc.aLen
  | .bBase => s.desc.bBase
  | .bLen => s.desc.bLen
  | .rBase => s.desc.rBase
  | .r2Base => s.desc.r2Base
  | .rLen => s.rLen
  | .r2Len => s.r2Len
  | .res => s.res

/-- `HostRegRead(k)`; "a reserved index returns 0" (10_state R34). -/
def hostRegRead (k : BitVec 4) (s : State) : Reg :=
  match RegName.ofIndex k with
  | some r => regValue s r
  | none => 0

/-- Writes unspecified values, "a draw" (log 10), to `n` bytes from address `a`. -/
def drawBytes (d : Nat) (m : Memory) (a : Nat) : (n : Nat) → Memory
  | 0 => m
  | n + 1 => (drawBytes d m a n).write (a + n) (Config.freeByte d (a + n))

/-- Every word of a region "clipped to [0, DEPTH)" becomes arbitrary (70_reset R272). -/
def drawRegion (c : Config) (d : Nat) (m : Memory) (r : Region) : Memory :=
  let lo := min r.base c.depth
  let hi := min (r.base + r.len) c.depth
  drawBytes d m (lo * c.bytesPerWord) ((hi - lo) * c.bytesPerWord)

/-- The output regions of the command in flight, from the shadow (70_reset R272). A word that decodes to no command has
none (log 11). -/
def regionsInFlight (s : State) : List Region :=
  match decode s.shadow.cmd with
  | .ok i => outputRegions i s.shadow.desc
  | .error _ => []

/-- An unspecified shadow (10_state R53, log 10). -/
def drawShadow (d : Nat) : Shadow :=
  ⟨Config.freeReg d 0, ⟨Config.freeReg d 1, Config.freeReg d 2, Config.freeReg d 3, Config.freeReg d 4, Config.freeReg d 5,
    Config.freeReg d 6⟩⟩

/-- `soft_reset()` (70_reset R272, 10_state R53). -/
def softReset (s : State) : State :=
  { s with
    wmem := if s.status.busy then (regionsInFlight s).foldl (drawRegion s.cfg s.draws) s.wmem else s.wmem
    ie := false
    status := .zero
    cmd := 0
    desc := .zero
    rLen := 0
    r2Len := 0
    res := 0
    shadow := drawShadow s.draws
    draws := s.draws + 1 }

/-- A write of CTRL: bit 1 resets, else bit 0 is IE (10_state R38, R39). -/
def writeCtrl (v : Reg) (s : State) : State :=
  if v.getLsbD 1 then softReset s else { s with ie := v.getLsbD 0 }

/-- A write of CMD: a launch, or OVR while BUSY (10_state R43). -/
def writeCmd (v : Reg) (s : State) : State :=
  if s.status.busy then { s with status := { s.status with ovr := true } } else launch { s with cmd := v }

/-- `HostRegWrite(k, v)` for a named register (10_state R35). -/
def writeReg (v : Reg) (s : State) : RegName → State
  | .id => s
  | .ctrl => writeCtrl v s
  | .status => acknowledge v s
  | .cmd => writeCmd v s
  | .aBase => { s with desc := { s.desc with aBase := v } }
  | .aLen => { s with desc := { s.desc with aLen := v } }
  | .bBase => { s with desc := { s.desc with bBase := v } }
  | .bLen => { s with desc := { s.desc with bLen := v } }
  | .rBase => { s with desc := { s.desc with rBase := v } }
  | .r2Base => { s with desc := { s.desc with r2Base := v } }
  | .rLen => s
  | .r2Len => s
  | .res => s

/-- `HostRegWrite(k, v)`; the reserved indices ignore it (10_state R35). -/
def hostRegWrite (k : BitVec 4) (v : Reg) (s : State) : State :=
  match RegName.ofIndex k with
  | some r => writeReg v s r
  | none => s

/-! ## Performing an access -/

/-- The value goes back as bytes on the byte bus, "its least significant byte at the lowest address" (20_memory R79). -/
def ReadValue.onBus (c : Config) : ReadValue → ReadValue
  | .reg v => .bytes (toBytes 4 v.toNat)
  | .word v => .bytes (toBytes c.bytesPerWord v)
  | .bytes bs => .bytes bs

/-- The port answers a read of the master (log 9). -/
def respond (r : Request) (v : ReadValue) (s : State) : State :=
  { s with readData := some ⟨r.master, if r.asBytes then v.onBus s.cfg else v⟩ }

/-- A WMEM access: performed at once in phase IDLE (20_memory R72), held in phase BUSY (R73). At an address of DEPTH or more
the port has none (R71, log 13). -/
def memAccess (r : Request) (a : Nat) (perform : State) (s : State) : Host.Outcome State Fault Refusal :=
  if s.cfg.depth ≤ a then .fault .noSuchWord
  else if s.status.busy then .next { s with held := s.held ++ [r] }
  else .next perform

/-- A master's access at the ports (10_state R34, R35, 20_memory R71). -/
def issue (r : Request) (s : State) : Host.Outcome State Fault Refusal :=
  match r.access with
  | .regRead k => .next (respond r (.reg (hostRegRead k s)) s)
  | .regWrite k v => .next (hostRegWrite k v s)
  | .memRead a => memAccess r a (respond r (.word (readWord s.cfg s.wmem a)) s) s
  | .memWrite a v => memAccess r a { s with wmem := writeWord s.cfg s.wmem a v } s

/-- The master has an access held: "the host, being in order, issues nothing after it" (20_memory R73), and it "holds only
itself" (R89). -/
def State.isHeld (s : State) (master : Nat) : Bool := s.held.any fun r => decide (r.master = master)

/-! ## The byte bus -/

/-- A slot behind the byte bus: a register or a word of WMEM. -/
inductive BusSlot where
  | reg (k : BitVec 4)
  | word (a : Nat)
deriving DecidableEq, Repr

/-- The slot of a byte bus access, if it is one R81 admits: "exactly 4 bytes at a 4-byte-aligned offset of the register
window" or "exactly W/8 bytes at a W/8-aligned offset of the WMEM window" (20_memory R79 to R81; log 14). -/
def busSlot (c : Config) (addr size : Nat) : Option BusSlot :=
  if c.regBase ≤ addr ∧ addr < c.regBase + 64 then
    if size = 4 ∧ (addr - c.regBase) % 4 = 0 then some (.reg (BitVec.ofNat 4 ((addr - c.regBase) / 4))) else none
  else if c.wmemBase ≤ addr ∧ addr < c.wmemBase + c.depth * c.bytesPerWord then
    if size = c.bytesPerWord ∧ (addr - c.wmemBase) % c.bytesPerWord = 0 then
      some (.word ((addr - c.wmemBase) / c.bytesPerWord))
    else none
  else none

/-- The port access that a byte bus access is, if it is admitted (20_memory R81). -/
def busToPort (c : Config) : BusAccess → Option Access
  | .read addr size =>
    match busSlot c addr size with
    | some (.reg k) => some (.regRead k)
    | some (.word a) => some (.memRead a)
    | none => none
  | .write addr data =>
    match busSlot c addr data.length with
    | some (.reg k) => some (.regWrite k (BitVec.ofNat 32 (fromBytes data)))
    | some (.word a) => some (.memWrite a (fromBytes data))
    | none => none

/-! ## The reset input -/

/-- The reset input is asserted: every piece of state takes its power-on value and WMEM is unspecified (70_reset R270,
10_state R53; free values, log 10). Held accesses stay held (log 12). -/
def assertReset (s : State) : State :=
  { State.resetOf s.cfg with
    shadow := drawShadow s.draws
    wmem := drawBytes s.draws s.wmem 0 (s.cfg.depth * s.cfg.bytesPerWord)
    held := s.held
    resetIn := true
    inputs := s.inputs
    readData := s.readData
    draws := s.draws + 1 }

end Sys2Proof.Machine
end

