-- ==== Sys2Proof/Machine/Turns.lean ====
section
/-! DEFINITION. The turns that a step chooses among: the core's, a master's, and a held access's (10_state R30, 20_memory R73,
70_reset R283). -/

namespace Sys2Proof.Machine

/-- `complete_step()` (60_exceptions R248): the first check is the decoding of S.CMD (R242), then the command's own
completion. -/
def completionStep (s : State) : Host.Outcome State Fault Refusal :=
  match decode s.shadow.cmd with
  | .ok i => exec i s
  | .error _ => .next (errorCompletion .illegal s)

/-- The core's turn: "BUSY has exactly one enabled core step, the completion" (10_state R47); in phase IDLE it has none and
the state is as it was (60_exceptions R260). -/
def coreTurn (s : State) : Host.Outcome State Fault Refusal :=
  if s.status.busy then completionStep s else .next s

/-- A master's turn: it makes the access that stands first in the inputs, or it waits for a held one of its own, and then
the core moves (20_memory R73; log 8). `acc` is none for a byte bus access that is not admitted (R81). `rest` is the
inputs after this one. -/
def hostTurn (master : Nat) (acc : Option Access) (asBytes : Bool) (rest : List Input) (s : State) :
    Host.Outcome State Fault Refusal :=
  if s.resetIn then .refused .accessDuringReset
  else if s.isHeld master then coreTurn s
  else
    match acc with
    | none => .refused .busAccessNotAdmitted
    | some a => issue ⟨master, a, asBytes⟩ { s with inputs := rest }

/-- The first of the inputs is taken; with no input left the core moves. -/
def inputTurn (s : State) : Host.Outcome State Fault Refusal :=
  match s.inputs with
  | [] => coreTurn s
  | .core :: rest => coreTurn { s with inputs := rest }
  | .assertReset :: rest => .next (assertReset { s with inputs := rest })
  | .releaseReset :: rest => .next { s with inputs := rest, resetIn := false }
  | .host master a :: rest => hostTurn master (some a) false rest s
  | .bus master b :: rest => hostTurn master (busToPort s.cfg b) true rest s

/-- One step. A held access is performed as soon as the phase is IDLE again (20_memory R73), the oldest first (log 7), before
anything else happens; else the next input is taken. -/
def takeTurn (s : State) : Host.Outcome State Fault Refusal :=
  match s.held with
  | r :: rest =>
    if s.status.busy || s.resetIn then inputTurn s else issue r { s with held := rest }
  | [] => inputTurn s

/-- The launch of a command word as the next thing that happens: CMD is written in phase IDLE, and the core's turn comes
next (60_exceptions R245; log 15). -/
def launchWord (c : Reg) (s : State) : State :=
  { launch { s with cmd := c } with inputs := .core :: s.inputs }

end Sys2Proof.Machine
end

