-- ==== Sys2Proof/Machine/Step.lean ====
section
/-! DEFINITION. One step of the machine, and how a command word is put where the next step runs it. -/

namespace Sys2Proof.Machine

/-- One step: an access of a master, the core's completion, an edge of the reset input, or idling (10_state R30). -/
def step (s : State) : Host.Outcome State Fault Refusal := takeTurn s

/-- `s` with the command word `w` launched, so that the very next step is its completion (log 15). There is one format of 32
bits (30_encoding R100); a shorter row has zeros above its bits. -/
def State.withFetchWord (s : State) (nbits w : Nat) : State :=
  launchWord (BitVec.ofNat 32 (w % 2 ^ nbits)) s

end Sys2Proof.Machine
end

