-- ==== Sys2Proof/Machine/Assembly.lean ====
section
/-! DEFINITION. The host's assembly: host instructions and pseudo-instructions as the accesses they make (30_encoding R108 to
R110). The host's own control flow makes no access and "is not seen by the core" (R109). -/

namespace Sys2Proof.Machine

/-- The index of a named register (10_state R33). -/
def RegName.index : RegName → BitVec 4
  | .id => 0
  | .ctrl => 1
  | .status => 2
  | .cmd => 3
  | .aBase => 4
  | .aLen => 5
  | .bBase => 6
  | .bLen => 7
  | .rBase => 8
  | .r2Base => 9
  | .rLen => 10
  | .r2Len => 11
  | .res => 12

/-- `rd REG` (30_encoding R109). -/
def asmRd (r : RegName) : Access := .regRead r.index

/-- `wr REG, v`: `v mod 2^32` (30_encoding R109). -/
def asmWr (r : RegName) (v : Nat) : Access := .regWrite r.index (BitVec.ofNat 32 v)

/-- `ld a` (30_encoding R109). -/
def asmLd (a : Nat) : Access := .memRead a

/-- `st a, v`: `v mod 2^W` (30_encoding R109). -/
def asmSt (c : Config) (a : Nat) (v : Nat) : Access := .memWrite a (v % 2 ^ c.W)

/-- An input operand `A=a:la` or `B=b:lb` of `go` (30_encoding R110): a base and a length, if given. -/
abbrev AsmRegion := Option (Nat × Nat)

/-- `go MNEM [A=a:la] [B=b:lb] [R=r] [R2=r2]` (30_encoding R110). -/
def asmGo (i : Instr) (a b : AsmRegion) (r r2 : Option Nat) : List Access :=
  (match a with | some (base, len) => [asmWr .aBase base, asmWr .aLen len] | none => []) ++
  (match b with | some (base, len) => [asmWr .bBase base, asmWr .bLen len] | none => []) ++
  (match r with | some base => [asmWr .rBase base] | none => []) ++
  (match r2 with | some base => [asmWr .r2Base base] | none => []) ++
  [asmWr .cmd (encode i).toNat]

/-- One poll of `wait`; its loop is the host's (30_encoding R110). -/
def asmPoll : Access := asmRd .status

/-- `ack`: clears DONE and OVR (30_encoding R110). -/
def asmAck : Access := asmWr .status 0x12

/-- `stn a, [v0, v1, ...]` (30_encoding R110). -/
def asmStn (c : Config) : Nat → List Nat → List Access
  | _, [] => []
  | a, v :: vs => asmSt c a v :: asmStn c (a + 1) vs

/-- `ldn a, n` (30_encoding R110). -/
def asmLdn (a n : Nat) : List Access := (List.range n).map fun i => asmLd (a + i)

end Sys2Proof.Machine
end

