-- ==== Sys2Proof/Safety.lean ====
section
/-! DEFINITION. The terms the claims are written in: what a well-placed command is, said from the rules and without the
model's own check; what an error leaves; and the invariants of a run. -/

namespace Sys2Proof.Machine

/-! ## Well-placed commands -/

/-- The address is a word of the region (00_scope R15). -/
def Region.Has (r : Region) (x : Nat) : Prop := r.base ≤ x ∧ x < r.base + r.len

/-- The two regions have no word in common. -/
def Region.Apart (r q : Region) : Prop := ∀ x, ¬ (r.Has x ∧ q.Has x)

/-- Every word of the region is a word of WMEM (00_scope R15). -/
def Region.Fits (r : Region) (c : Config) : Prop := r.base + r.len ≤ c.depth

/-- X is normalized iff `n = 1` or `X[n−1] ≠ 0` (00_scope R12). -/
def Normalized (xs : WordArray) : Prop := xs.length = 1 ∨ topWord xs ≠ 0

/-- `n` is `norm_len(X)`: "the least m with 1 ≤ m ≤ n such that X[i] = 0 for every m ≤ i < n" (00_scope R12). -/
def IsNormLen (n : Nat) (xs : WordArray) : Prop :=
  1 ≤ n ∧ n ≤ xs.length ∧ (∀ i, n ≤ i → xs.getD i 0 = 0) ∧ (n = 1 ∨ xs.getD (n - 1) 0 ≠ 0)

namespace State

/-- `la = S.A_LEN` (00_scope R17). -/
def la (s : State) : Nat := s.shadow.desc.aLen.toNat

/-- `lb = S.B_LEN` (00_scope R17). -/
def lb (s : State) : Nat := s.shadow.desc.bLen.toNat

/-- S.R_BASE as a word address. -/
def rAddr (s : State) : Nat := s.shadow.desc.rBase.toNat

/-- S.R2_BASE as a word address. -/
def r2Addr (s : State) : Nat := s.shadow.desc.r2Base.toNat

/-- W. -/
def W (s : State) : Nat := s.cfg.W

/-- `val(A)` (00_scope R17). -/
def valA (s : State) : Nat := val s.W s.inputA

/-- `val(B)` (00_scope R17). -/
def valB (s : State) : Nat := val s.W s.inputB

/-- The array of `n` words at word address `a`. -/
def words (s : State) (a n : Nat) : WordArray := readArray s.cfg s.wmem a n

/-- Input region A is not empty and lies in WMEM. -/
def UsableA (s : State) : Prop := 0 < s.la ∧ (regionA s.shadow.desc).Fits s.cfg

/-- Input region B is not empty and lies in WMEM. -/
def UsableB (s : State) : Prop := 0 < s.lb ∧ (regionB s.shadow.desc).Fits s.cfg

/-- An output region that lies in WMEM, clear of A. -/
def ClearOfA (s : State) (r : Region) : Prop := r.Fits s.cfg ∧ r.Apart (regionA s.shadow.desc)

/-- An output region that lies in WMEM and is clear of A or starts where A starts (20_memory R78). -/
def ClearOrInPlace (s : State) (r : Region) : Prop :=
  r.Fits s.cfg ∧ (r.Apart (regionA s.shadow.desc) ∨ r.base = s.shadow.desc.aBase.toNat)

/-- Two normalized inputs, for ADD, SUB, MUL, DIV and CMPLT (60_exceptions R249). -/
def TwoInputs (s : State) : Prop := s.UsableA ∧ s.UsableB ∧ Normalized s.inputA ∧ Normalized s.inputB

/-- Two normalized inputs and an output region of `n` words at R_BASE, clear of both (20_memory R78). -/
def TwoInputsOneOutput (s : State) (n : Nat) : Prop :=
  s.TwoInputs ∧ s.ClearOfA ⟨s.rAddr, n⟩ ∧ (Region.mk s.rAddr n).Apart (regionB s.shadow.desc)

/-- Two normalized inputs, and output regions R of `n` and R2 of `m` words clear of both and of each other. -/
def TwoInputsTwoOutputs (s : State) (n m : Nat) : Prop :=
  s.TwoInputsOneOutput n ∧ s.ClearOfA ⟨s.r2Addr, m⟩ ∧ (Region.mk s.r2Addr m).Apart (regionB s.shadow.desc) ∧
    (Region.mk s.rAddr n).Apart ⟨s.r2Addr, m⟩

/-- A legal shift: an amount below W, a normalized A, and an output region of `n` words clear of A or in place. -/
def ShiftInputs (s : State) (shamt n : Nat) : Prop :=
  shamt < s.W ∧ s.UsableA ∧ Normalized s.inputA ∧ s.ClearOrInPlace ⟨s.rAddr, n⟩

/-- The state with the result words and the result registers of a success completion, and everything else of the core as
before: the flag, BUSY and DONE in STATUS (60_exceptions R247). -/
def completedWith (s : State) (m : Memory) (rLen r2Len res : Reg) (flag : Bool) : State :=
  { s with
    wmem := m
    rLen := rLen
    r2Len := r2Len
    res := res
    status := { s.status with flag := flag, busy := false, done := true } }

/-- The state with other values in the shadow descriptors. -/
def withShadowDesc (s : State) (d : Descriptors) : State := { s with shadow := ⟨s.shadow.cmd, d⟩ }

/-- The state an error completion leaves: "the only state an error changes is STATUS" (60_exceptions R246). -/
def erroredWith (s : State) (e : ECode) : State :=
  { s with status := ⟨false, true, true, false, s.status.ovr, e⟩ }

end State

/-! ## Results of single commands, as arrays -/

/-- The first R_LEN words of what a command writes at R. -/
def Effect.result (e : Effect) : WordArray := e.r.take (e.rLen.getD 0)

/-- SCONV(X, aneg, rneg): the first R_LEN words of its output (46_twos_complement R215). -/
def sconvResult (w : Nat) (aneg rneg : Bool) (xs : WordArray) : WordArray := (sconvEffect w aneg rneg xs).result

/-! ## Illegal words (30_encoding R104 to R106) -/

/-- OP, bits 4:0 of a command word (30_encoding R101). -/
def opField (c : Reg) : BitVec 5 := c.extractLsb' 0 5

/-- A nonzero reserved bit, a reserved command number, or a nonzero field that the command does not take. -/
def IllegalWord (c : Reg) : Prop :=
  (c.extractLsb' 24 8 ≠ 0 ∨ c.extractLsb' 10 6 ≠ 0 ∨ c.extractLsb' 5 3 ≠ 0) ∨
    (opField c = 0x00 ∨ 0x0D ≤ opField c) ∨
    (opField c ≠ 0x05 ∧ opField c ≠ 0x06 ∧ c.extractLsb' 16 8 ≠ 0) ∨
    (opField c ≠ 0x08 ∧ (c.getLsbD 8 = true ∨ c.getLsbD 9 = true))

/-! ## The checks, said one by one (60_exceptions R241 to R249) -/

/-- SHL or SHR with SHAMT ≥ W. -/
def BadShift (i : Instr) (s : State) : Prop := ∃ k, (i = .shl k ∨ i = .shr k) ∧ s.W ≤ k

/-- A length of 0 in an input region the command uses. -/
def BadLen (i : Instr) (s : State) : Prop := s.la = 0 ∨ (usesB i = true ∧ s.lb = 0)

/-- A region the command uses does not lie in WMEM. -/
def BadRange (i : Instr) (s : State) : Prop :=
  ∃ r ∈ inputRegions i s.shadow.desc ++ outputRegions i s.shadow.desc, ¬ r.Fits s.cfg

/-- A placement that 20_memory R78 forbids: an output region on B; on A, but for SHL, SHR and NEG in place; R on R2. -/
def BadPlacement (i : Instr) (s : State) : Prop :=
  (∃ o ∈ outputRegions i s.shadow.desc, (usesB i = true ∧ ¬ o.Apart (regionB s.shadow.desc)) ∨
    (¬ o.Apart (regionA s.shadow.desc) ∧ ¬ (mayBeInPlace i = true ∧ o.base = s.shadow.desc.aBase.toNat))) ∨
  (∃ r ∈ regionR i s.shadow.desc, ∃ r2 ∈ regionR2 i s.shadow.desc, ¬ r.Apart r2)

/-- An input that must be normalized is not. -/
def BadNorm (i : Instr) (s : State) : Prop :=
  needsNormalized i = true ∧ (¬ Normalized s.inputA ∨ (usesB i = true ∧ ¬ Normalized s.inputB))

/-- A division by zero. -/
def BadDivisor (i : Instr) (s : State) : Prop := i = .div ∧ s.valB = 0

/-- A subtraction below zero. -/
def BadDifference (i : Instr) (s : State) : Prop := i = .sub ∧ s.valA < s.valB

/-- The byte of WMEM's byte view belongs to no word of the region (20_memory R79). -/
def Region.ByteOutside (r : Region) (c : Config) (b : Nat) : Prop :=
  b < r.base * c.bytesPerWord ∨ (r.base + r.len) * c.bytesPerWord ≤ b

/-! ## Accesses -/

/-- `n` bytes of a value, "its least significant byte at the lowest address" (20_memory R79): byte `i` is bits `8i+7..8i`. -/
def LittleEndian (bs : List Byte) (n v : Nat) : Prop :=
  bs.length = n ∧ ∀ i, i < n → (bs.getD i 0).toNat = v / 2 ^ (8 * i) % 256

/-- A byte bus access, a read or a write, of `size` bytes at `addr` (20_memory R81). -/
def BusAccess.IsAt (b : BusAccess) (addr size : Nat) : Prop :=
  b = .read addr size ∨ ∃ data, b = .write addr data ∧ data.length = size

/-- Accesses made one after another, each at the ports as the one before it left them. -/
def performInOrder : List Request → State → Host.Outcome State Fault Refusal
  | [], s => .next s
  | r :: rest, s =>
    match issue r s with
    | .next t => performInOrder rest t
    | .fault f => .fault f
    | .refused f => .refused f

/-! ## Invariants -/

/-- The invariants of STATUS, "which every step keeps" (10_state R42). -/
def Status.Inv (t : Status) : Prop :=
  (t.busy = true → t.done = false ∧ t.err = false ∧ t.ecode = .noError) ∧ (t.err = true ↔ t.ecode ≠ .noError) ∧
    (t.err = true → t.flag = false)

/-- A held access is an access to a word of WMEM (20_memory R73). -/
def Request.IsMemAccess (c : Config) (r : Request) : Prop :=
  (∃ a, r.access = .memRead a ∧ a < c.depth) ∨ (∃ a v, r.access = .memWrite a v ∧ a < c.depth)

/-- Held accesses: to words of WMEM, and at most one of each master, which "holds only itself" (20_memory R73, R89). -/
def State.HeldInv (s : State) : Prop :=
  (∀ r ∈ s.held, r.IsMemAccess s.cfg) ∧ (s.held.map (·.master)).Nodup

/-- WMEM is canonical and lists nothing outside its `DEPTH` words (10_state R51; log 3). -/
def State.WmemInv (s : State) : Prop :=
  s.wmem.wf ∧ ∀ d ∈ s.wmem, d.1 < s.cfg.depth * s.cfg.bytesPerWord

/-- The invariant of a run: STATUS (10_state R42), WMEM (R51), held accesses (20_memory R73), and no command in flight while
the reset input is asserted (70_reset R270). -/
def State.Inv (s : State) : Prop :=
  s.status.Inv ∧ s.WmemInv ∧ s.HeldInv ∧ (s.resetIn = true → s.status.busy = false)

end Sys2Proof.Machine
end

