-- ==== Sys2Proof/Certificates/Slice0/Obligations.lean ====
section
/-! DEFINITION. The statements about the model, for the provers. Each one's docstring says which rule of spec/ it formalises. -/

open Sys2Proof Sys2Proof.Machine

/-! ## Encoding (30_encoding) -/

/-- Command words as 30_encoding R103 and R108 write them decode to their commands. -/
def Obligations.CommandWordsDecode : Prop :=
  decode 0x00000001 = .ok .add ∧ decode 0x00000004 = .ok .div ∧ decode 0x003F0005 = .ok (.shl 63) ∧
    decode 0x00FF0006 = .ok (.shr 255) ∧ decode 0x00000007 = .ok .clz ∧ decode 0x00000208 = .ok (.sconv false true) ∧
    decode 0x00000108 = .ok (.sconv true false) ∧ decode 0x0000000B = .ok .cmplt

/-- Every command the encoding admits comes back from its word, with every operand at every value (30_encoding R101, R103,
R107, R108). -/
def Obligations.EncodedCommandDecodesBack : Prop :=
  ∀ i : Instr, i.wellFormed = true → decode (encode i) = .ok i

/-- "No two words mean the same command" (92_eei_decisions D5): a word that decodes is the word of its command. -/
def Obligations.DecodedWordIsItsEncoding : Prop :=
  ∀ (c : Reg) (i : Instr), decode c = .ok i → i.wellFormed = true ∧ encode i = c

/-- 30_encoding R104, R105, R106: the illegal words are those with a reserved command number, a nonzero reserved bit or a
nonzero field the command does not take; each ends in error ILLEGAL, whatever else it holds; a zero SHAMT is legal. -/
def Obligations.IllegalWordEndsInErrorIllegal : Prop :=
  (∀ c : Reg, IllegalWord c ↔ ∃ e, decode c = .error e) ∧
    (∀ s : State, IllegalWord s.shadow.cmd → completionStep s = .next (s.erroredWith .illegal)) ∧
    decode 0x00000005 = .ok (.shl 0) ∧ decode 0x00000006 = .ok (.shr 0)

/-! ## Steps (10_state R30, R47, 60_exceptions R248) -/

/-- A step runs the decoded command: the core's turn, in phase BUSY, is the completion of the command in the shadow. The core
has its turn when it stands first in the inputs; when there is no input left, which is the model's choice (log 6); and when
the master of the next input, at the ports or on the byte bus, waits for a held access, which is the model's choice too
(log 8). Reset input edges and accesses that stand first are stated in other statements. -/
def Obligations.StepRunsDecodedCommand : Prop :=
  ∀ (s : State) (i : Instr), s.status.busy = true → decode s.shadow.cmd = .ok i →
    (∀ rest, s.inputs = .core :: rest → step s = exec i { s with inputs := rest }) ∧
    (s.inputs = [] → step s = exec i s) ∧
    (∀ m a rest, s.inputs = .host m a :: rest → s.resetIn = false → s.isHeld m = true → step s = exec i s) ∧
    (∀ m b rest, s.inputs = .bus m b :: rest → s.resetIn = false → s.isHeld m = true → step s = exec i s)

/-- A command word put where the machine fetches is launched, and the next step is its completion (log 15: the model's
choice). -/
def Obligations.FetchedWordRunsNext : Prop :=
  ∀ (s : State) (w : Nat) (i : Instr), decode (BitVec.ofNat 32 w) = .ok i → w < 2 ^ 32 →
    step (s.withFetchWord 32 w) =
      exec i { s with
        cmd := BitVec.ofNat 32 w
        shadow := ⟨BitVec.ofNat 32 w, s.desc⟩
        status := ⟨true, false, false, s.status.flag, s.status.ovr, .noError⟩ }

/-- The completion step always ends the command: DONE is set, the phase is IDLE again, and OVR, which no command writes, is
as it was (60_exceptions R246 to R248). -/
def Obligations.CompletionAlwaysReturnsToIdle : Prop :=
  ∀ s : State, ∃ t, completionStep s = .next t ∧ t.phase = .idle ∧ t.status.done = true ∧ t.status.ovr = s.status.ovr

/-- A host access that stands first is made at once, unless its master waits for a held access (10_state R30, 20_memory
R89: a held access "holds only itself"; while accesses are held the phase is BUSY). A register write at the port is the write
of that register, in either phase and over the byte bus too (10_state R35, 20_memory R85: register accesses "are never
held"). -/
def Obligations.StepMakesHostAccess : Prop :=
  (∀ (s : State) (m : Nat) (a : Access) (rest : List Input), s.inputs = .host m a :: rest → s.resetIn = false →
    s.isHeld m = false → (s.held = [] ∨ s.status.busy = true) →
    step s = issue ⟨m, a, false⟩ { s with inputs := rest } ∧
    (∀ k v, a = .regWrite k v → step s = .next (hostRegWrite k v { s with inputs := rest }))) ∧
  (∀ (s : State) (m : Nat) (k : BitVec 4) (v : Reg) (asBytes : Bool),
    issue ⟨m, .regWrite k v, asBytes⟩ s = .next (hostRegWrite k v s))

/-- 70_reset R271: a host access while the reset input is asserted is not defined: the machine refuses it. The level of the
reset input and the refusal by name are the model's (log 12). -/
def Obligations.AccessDuringResetIsRefused : Prop :=
  ∀ (s : State) (m : Nat) (rest : List Input), s.resetIn = true →
    (∀ a, s.inputs = .host m a :: rest → step s = .refused .accessDuringReset) ∧
    (∀ b, s.inputs = .bus m b :: rest → step s = .refused .accessDuringReset)

/-! ## Checks and errors (60_exceptions R241 to R249) -/

/-- 60_exceptions R242: the first check that fails gives the error, in the order ILLEGAL, SHAMT, LEN, RANGE, OVERLAP, NOTNORM,
DIV0, UNDERFLOW, and the error changes STATUS alone (R246); where no check fails the command succeeds. -/
def Obligations.FirstFailedCheckIsReported : Prop :=
  (∀ s : State, IllegalWord s.shadow.cmd → completionStep s = .next (s.erroredWith .illegal)) ∧
  ∀ (s : State) (i : Instr), decode s.shadow.cmd = .ok i →
    (BadShift i s → completionStep s = .next (s.erroredWith .shamt)) ∧
    (¬ BadShift i s → BadLen i s → completionStep s = .next (s.erroredWith .len)) ∧
    (¬ BadShift i s → ¬ BadLen i s → BadRange i s → completionStep s = .next (s.erroredWith .range)) ∧
    (¬ BadShift i s → ¬ BadLen i s → ¬ BadRange i s → BadPlacement i s →
      completionStep s = .next (s.erroredWith .overlap)) ∧
    (¬ BadShift i s → ¬ BadLen i s → ¬ BadRange i s → ¬ BadPlacement i s → BadNorm i s →
      completionStep s = .next (s.erroredWith .notnorm)) ∧
    (¬ BadShift i s → ¬ BadLen i s → ¬ BadRange i s → ¬ BadPlacement i s → ¬ BadNorm i s → BadDivisor i s →
      completionStep s = .next (s.erroredWith .div0)) ∧
    (¬ BadShift i s → ¬ BadLen i s → ¬ BadRange i s → ¬ BadPlacement i s → ¬ BadNorm i s → BadDifference i s →
      completionStep s = .next (s.erroredWith .underflow)) ∧
    (¬ BadShift i s → ¬ BadLen i s → ¬ BadRange i s → ¬ BadPlacement i s → ¬ BadNorm i s → ¬ BadDivisor i s →
      ¬ BadDifference i s → ∃ m rLen r2Len res flag, completionStep s = .next (s.completedWith m rLen r2Len res flag))

/-! ## Results of the commands -/

/-- ADD (41_add_sub R140, R141): the exact sum, its normalized length, which is `n + c` but for two zeros, and FLAG = c. -/
def Obligations.AddStoresExactSum : Prop :=
  ∀ s : State, s.wmem.wf → s.TwoInputsOneOutput (max s.la s.lb + 1) →
    let n := max s.la s.lb
    let sum := wordsOf s.W (n + 1) (s.valA + s.valB)
    let carry := decide (2 ^ (s.W * n) ≤ s.valA + s.valB)
    ∃ m len, exec .add s = .next (s.completedWith m (BitVec.ofNat 32 len) s.r2Len s.res carry) ∧
      readArray s.cfg m s.rAddr (n + 1) = sum ∧ val s.W sum = s.valA + s.valB ∧ IsNormLen len sum ∧
      (s.valA + s.valB ≠ 0 → len = n + carry.toNat)

/-- SUB (41_add_sub R145, R146): the exact difference, its normalized length, FLAG = 0. -/
def Obligations.SubStoresExactDifference : Prop :=
  ∀ s : State, s.wmem.wf → s.TwoInputsOneOutput s.la → s.valB ≤ s.valA →
    let difference := wordsOf s.W s.la (s.valA - s.valB)
    ∃ m len, exec .sub s = .next (s.completedWith m (BitVec.ofNat 32 len) s.r2Len s.res false) ∧
      readArray s.cfg m s.rAddr s.la = difference ∧ val s.W difference + s.valB = s.valA ∧ IsNormLen len difference

/-- MUL (42_multiply R160, R161): the exact product, its normalized length, FLAG = 0. -/
def Obligations.MulStoresExactProduct : Prop :=
  ∀ s : State, s.wmem.wf → s.TwoInputsOneOutput (s.la + s.lb) →
    let product := wordsOf s.W (s.la + s.lb) (s.valA * s.valB)
    ∃ m len, exec .mul s = .next (s.completedWith m (BitVec.ofNat 32 len) s.r2Len s.res false) ∧
      readArray s.cfg m s.rAddr (s.la + s.lb) = product ∧ val s.W product = s.valA * s.valB ∧ IsNormLen len product ∧
      (s.valA * s.valB ≠ 0 → len = s.la + s.lb ∨ len + 1 = s.la + s.lb)

/-- DIV (43_divide R170, R171): `floor(val(A)/val(B))` and `val(A) mod val(B)`, a zero spare word above the remainder, the
normalized lengths with `R2_LEN ≤ lb` and `R_LEN ≤ la`, FLAG = 0; quotient times divisor plus remainder is the dividend. -/
def Obligations.DivStoresQuotientAndRemainder : Prop :=
  ∀ s : State, s.wmem.wf → s.TwoInputsTwoOutputs s.la (s.lb + 1) → s.valB ≠ 0 →
    ∃ m q r, exec .div s = .next (s.completedWith m (BitVec.ofNat 32 q) (BitVec.ofNat 32 r) s.res false) ∧
      val s.W (readArray s.cfg m s.rAddr s.la) = s.valA / s.valB ∧
      val s.W (readArray s.cfg m s.r2Addr (s.lb + 1)) = s.valA % s.valB ∧
      readWord s.cfg m (s.r2Addr + s.lb) = 0 ∧
      IsNormLen q (readArray s.cfg m s.rAddr s.la) ∧ IsNormLen r (readArray s.cfg m s.r2Addr (s.lb + 1)) ∧
      q ≤ s.la ∧ r ≤ s.lb ∧
      val s.W (readArray s.cfg m s.rAddr s.la) * s.valB + val s.W (readArray s.cfg m s.r2Addr (s.lb + 1)) = s.valA ∧
      val s.W (readArray s.cfg m s.r2Addr (s.lb + 1)) < s.valB

/-- SHL (44_shift R185 to R187): `val(A)·2^s` for every `s < W`, 0 and in place included; FLAG iff a carry escaped the top
word, and then R_LEN is `la + 1`. -/
def Obligations.ShlStoresExactProduct : Prop :=
  ∀ (s : State) (k : Nat), s.wmem.wf → s.ShiftInputs k (s.la + 1) →
    let shifted := wordsOf s.W (s.la + 1) (s.valA * 2 ^ k)
    let escaped := decide (2 ^ (s.W * s.la) ≤ s.valA * 2 ^ k)
    ∃ m len, exec (.shl k) s = .next (s.completedWith m (BitVec.ofNat 32 len) s.r2Len s.res escaped) ∧
      readArray s.cfg m s.rAddr (s.la + 1) = shifted ∧ val s.W shifted = s.valA * 2 ^ k ∧ IsNormLen len shifted ∧
      (len = s.la + 1 ↔ escaped = true)

/-- SHR (44_shift R186, R187, R190): `floor(val(A)/2^s)` for every `s < W`, 0 and in place included; FLAG = 0; R_LEN is `la` or
`la − 1` for `val(A) ≥ 2^s`. -/
def Obligations.ShrStoresFloor : Prop :=
  ∀ (s : State) (k : Nat), s.wmem.wf → s.ShiftInputs k s.la →
    let shifted := wordsOf s.W s.la (s.valA / 2 ^ k)
    ∃ m len, exec (.shr k) s = .next (s.completedWith m (BitVec.ofNat 32 len) s.r2Len s.res false) ∧
      readArray s.cfg m s.rAddr s.la = shifted ∧ val s.W shifted = s.valA / 2 ^ k ∧ IsNormLen len shifted ∧
      (2 ^ k ≤ s.valA → len = s.la ∨ len + 1 = s.la)

/-- CLZ (40_bit_primitives R130, 00_scope R14): the leading zeros of the word at `A_BASE + la − 1`, W and FLAG for 0; nothing
in WMEM changes. -/
def Obligations.ClzCountsTopWord : Prop :=
  ∀ s : State, s.UsableA →
    let x := readWord s.cfg s.wmem (s.shadow.desc.aBase.toNat + s.la - 1)
    ∃ n, exec .clz s = .next (s.completedWith s.wmem s.rLen s.r2Len (BitVec.ofNat 32 n) (decide (x = 0))) ∧
      (x = 0 → n = s.W) ∧ (x ≠ 0 → n < s.W ∧ 2 ^ (s.W - 1 - n) ≤ x ∧ x < 2 ^ (s.W - n))

/-- SCONV (46_twos_complement R215, R216): a copy or the two's complement of A, a guard word where the sign bit would read
wrongly, else the spare word 0; R_LEN `la` or `la + 1`; FLAG iff a guard; the top bit of word R_LEN − 1 is RNEG. -/
def Obligations.SconvStoresSignedArray : Prop :=
  ∀ (s : State) (aneg rneg : Bool), s.wmem.wf → s.UsableA → s.ClearOfA ⟨s.rAddr, s.la + 1⟩ →
    let body := if aneg = rneg then s.inputA else wordsOf s.W s.la (2 ^ (s.W * s.la) - s.valA)
    let guard := topBit s.W body != rneg
    let last := if guard = true ∧ rneg = true then 2 ^ s.W - 1 else 0
    let len := s.la + guard.toNat
    ∃ m, exec (.sconv aneg rneg) s = .next (s.completedWith m (BitVec.ofNat 32 len) s.r2Len s.res guard) ∧
      readArray s.cfg m s.rAddr (s.la + 1) = body ++ [last] ∧
      topBit s.W (readArray s.cfg m s.rAddr len) = rneg

/-- NEG (46_twos_complement R220, R221): `(2^(W·la) − val(A)) mod 2^(W·la)`, in place too; R_LEN = la; FLAG iff A is zero. -/
def Obligations.NegStoresTwosComplement : Prop :=
  ∀ s : State, s.wmem.wf → s.UsableA → s.ClearOrInPlace ⟨s.rAddr, s.la⟩ →
    ∃ m, exec .neg s = .next (s.completedWith m s.shadow.desc.aLen s.r2Len s.res (decide (s.valA = 0))) ∧
      val s.W (readArray s.cfg m s.rAddr s.la) = (2 ^ (s.W * s.la) - s.valA) % 2 ^ (s.W * s.la)

/-- ISNEG (46_twos_complement R225): RES and FLAG are the top bit of the word at `A_BASE + la − 1`. -/
def Obligations.IsnegReportsSign : Prop :=
  ∀ s : State, s.UsableA →
    let sign := decide (2 ^ (s.W - 1) ≤ readWord s.cfg s.wmem (s.shadow.desc.aBase.toNat + s.la - 1))
    exec .isneg s = .next (s.completedWith s.wmem s.rLen s.r2Len (BitVec.ofNat 32 sign.toNat) sign)

/-- CMPLT (45_compare_normalize R200, R201): RES and FLAG are `val(A) < val(B)`. -/
def Obligations.CmpltComparesValues : Prop :=
  ∀ s : State, s.TwoInputs →
    exec .cmplt s = .next (s.completedWith s.wmem s.rLen s.r2Len (BitVec.ofNat 32 (decide (s.valA < s.valB)).toNat)
      (decide (s.valA < s.valB)))

/-- NORM (45_compare_normalize R205, 00_scope R12): R_LEN is the normalized length of any array, FLAG iff it is all zero. -/
def Obligations.NormReportsLength : Prop :=
  ∀ s : State, s.UsableA →
    ∃ n, exec .norm s = .next (s.completedWith s.wmem (BitVec.ofNat 32 n) s.r2Len s.res (decide (s.valA = 0))) ∧
      IsNormLen n s.inputA ∧ (s.valA = 0 ↔ ∀ x ∈ s.inputA, x = 0)

/-! ## Laws between commands -/

/-- 41_add_sub R146: the value law of SUB with its R_LEN, and that SUB undoes ADD and ADD undoes SUB on normalized
magnitudes, comparing the first R_LEN words. -/
def Obligations.AddAndSubAreInverse : Prop :=
  ∀ (w : Nat) (a b : WordArray), 0 < w → (∀ x ∈ a, x < 2 ^ w) → (∀ x ∈ b, x < 2 ^ w) → 1 ≤ a.length → 1 ≤ b.length →
    Normalized a → Normalized b →
    (subEffect w (addEffect w a b).result b).result = a ∧
    (val w b ≤ val w a → (subEffect w a b).r = wordsOf w a.length (val w a - val w b) ∧
      (∃ n, (subEffect w a b).rLen = some n ∧ IsNormLen n (subEffect w a b).r) ∧
      (addEffect w (subEffect w a b).result b).result = a)

/-- 44_shift R186: the value laws of SHL and SHR, and "LeftShift(a, k) then RightShift(result, k) reconstructs a exactly". -/
def Obligations.ShrUndoesShl : Prop :=
  ∀ (w k : Nat) (a : WordArray), k < w → (∀ x ∈ a, x < 2 ^ w) → 1 ≤ a.length → Normalized a →
    (shlEffect w k a).r = wordsOf w (a.length + 1) (val w a * 2 ^ k) ∧
    (shrEffect w k a).r = wordsOf w a.length (val w a / 2 ^ k) ∧
    (shrEffect w k (shlEffect w k a).result).result = a ∧
    (shrEffect w k (shlEffect w k a).result).rLen = some a.length

/-- 46_twos_complement R217, its six rows: what SCONV means for magnitudes and two's-complement arrays, negative zero
included. -/
def Obligations.SconvMeaning : Prop :=
  ∀ (w : Nat) (a : WordArray), 0 < w → (∀ x ∈ a, x < 2 ^ w) → 1 ≤ a.length →
    (sval w (sconvResult w false false a) = val w a ∧
      ((sconvEffect w false false a).flag = true ↔ topBit w a = true)) ∧
    (val w a ≠ 0 → sval w (sconvResult w false true a) = - (val w a : Int) ∧
      ((sconvEffect w false true a).flag = true ↔ topBit w (negEffect w a).r = false) ∧
      ((sconvEffect w false true a).flag = true →
        sconvResult w false true a = (negEffect w a).r ++ [2 ^ w - 1])) ∧
    (sval w a < 0 → (val w (sconvResult w true false a) : Int) = - sval w a ∧
      ((sconvEffect w true false a).flag = true ↔ sval w a = - 2 ^ (w * a.length - 1)) ∧
      ((sconvEffect w true false a).flag = true → sconvResult w true false a = (negEffect w a).r ++ [0])) ∧
    (0 ≤ sval w a → sconvResult w false false a = a) ∧
    (∀ r : Bool, sconvResult w r r a =
      if topBit w a = r then a else a ++ [if r = true then 2 ^ w - 1 else 0]) ∧
    (val w a = 0 → sconvResult w false true a = a ++ [2 ^ w - 1] ∧
      sval w (sconvResult w false true a) = - 2 ^ (w * a.length))

/-- 46_twos_complement R218: the round trip of a magnitude and a sign through SCONV recovers the value, the words after NORM,
and the sign as ISNEG of the array in between; the words need not come back without NORM. -/
def Obligations.SconvRoundTrip : Prop :=
  (∀ (w : Nat) (m : WordArray) (neg : Bool), 0 < w → (∀ x ∈ m, x < 2 ^ w) → 1 ≤ m.length → Normalized m →
    val w m ≠ 0 ∨ neg = false →
    let t := sconvResult w false neg m
    let u := sconvResult w neg false t
    sval w t = (if neg = true then - (val w m : Int) else val w m) ∧ val w u = val w m ∧
      (normEffect w u).rLen = some m.length ∧ u.take m.length = m ∧ (isnegEffect w t).flag = neg) ∧
  (∀ w : Nat, 0 < w → sconvResult w false true [2 ^ (w - 1)] = [2 ^ (w - 1)] ∧
    sconvResult w true false [2 ^ (w - 1)] = [2 ^ (w - 1), 0])

/-! ## Frames -/

/-- 20_memory R75, for every command: "The core writes exactly the words of its output regions and no other WMEM word". A
command without an output region, and a command that records a new error code, writes nothing. -/
def Obligations.CommandsWriteOnlyOutputRegions : Prop :=
  ∀ (i : Instr) (s t : State), s.wmem.wf → exec i s = .next t →
    (∀ b, (∀ o ∈ outputRegions i s.shadow.desc, o.ByteOutside s.cfg b) → t.wmem.read b = s.wmem.read b) ∧
    (t.status.ecode ≠ s.status.ecode → t.wmem = s.wmem)

/-- The commands that write no WMEM leave it as it is: CLZ, ISNEG, CMPLT and NORM (20_memory R75, 10_state R45). -/
def Obligations.ReadingCommandsLeaveWmem : Prop :=
  ∀ (s t : State), exec .clz s = .next t ∨ exec .isneg s = .next t ∨ exec .cmplt s = .next t ∨ exec .norm s = .next t →
    t.wmem = s.wmem

/-- What no command writes: the configuration, CTRL, CMD, the descriptors, the shadow, OVR, held accesses, the reset input and
the model's own fields (60_exceptions R246, R247). -/
def Obligations.CommandsLeaveHostStateAlone : Prop :=
  ∀ (i : Instr) (s t : State), exec i s = .next t →
    t.cfg = s.cfg ∧ t.ie = s.ie ∧ t.cmd = s.cmd ∧ t.desc = s.desc ∧ t.shadow = s.shadow ∧ t.status.ovr = s.status.ovr ∧
      t.held = s.held ∧ t.resetIn = s.resetIn ∧ t.inputs = s.inputs ∧ t.readData = s.readData ∧ t.draws = s.draws

/-- 10_state R45: which result registers a command may write: R_LEN not CLZ, ISNEG and CMPLT; R2_LEN only DIV; RES only CLZ,
ISNEG and CMPLT; none of them where the command records a new error code. -/
def Obligations.ResultRegistersOnlyWhereNamed : Prop :=
  ∀ (i : Instr) (s t : State), exec i s = .next t →
    (i = .clz ∨ i = .isneg ∨ i = .cmplt → t.rLen = s.rLen) ∧
    (i ≠ .div → t.r2Len = s.r2Len) ∧
    (i ≠ .clz → i ≠ .isneg → i ≠ .cmplt → t.res = s.res) ∧
    (t.status.ecode ≠ s.status.ecode → t.rLen = s.rLen ∧ t.r2Len = s.r2Len ∧ t.res = s.res)

/-- 20_memory R74: a command "ignores every other descriptor register": exec does the same whatever the shadow of B holds for a
command that does not use B, of R_BASE for one without an output, of R2_BASE for all but DIV. -/
def Obligations.UnusedDescriptorsAreIgnored : Prop :=
  ∀ (i : Instr) (s t : State) (x y : Reg), exec i s = .next t →
    (i ≠ .add → i ≠ .sub → i ≠ .mul → i ≠ .div → i ≠ .cmplt →
      exec i (s.withShadowDesc { s.shadow.desc with bBase := x, bLen := y }) =
        .next (t.withShadowDesc { s.shadow.desc with bBase := x, bLen := y })) ∧
    (i = .clz ∨ i = .isneg ∨ i = .cmplt ∨ i = .norm →
      exec i (s.withShadowDesc { s.shadow.desc with rBase := x }) =
        .next (t.withShadowDesc { s.shadow.desc with rBase := x })) ∧
    (i ≠ .div →
      exec i (s.withShadowDesc { s.shadow.desc with r2Base := x }) =
        .next (t.withShadowDesc { s.shadow.desc with r2Base := x }))

/-! ## The register port (10_state R33 to R45) -/

/-- 60_exceptions R245 with 10_state R43: a CMD write in phase IDLE stores the word and launches it. -/
def Obligations.CmdWriteLaunches : Prop :=
  ∀ (s : State) (v : Reg), s.status.busy = false →
    hostRegWrite 3 v s =
      { s with
        cmd := v
        shadow := ⟨v, s.desc⟩
        status := ⟨true, false, false, s.status.flag, s.status.ovr, .noError⟩ }

/-- 70_reset R281, 10_state R43: a CMD write in phase BUSY is dropped and sets OVR. -/
def Obligations.CmdWriteWhileBusySetsOverrun : Prop :=
  ∀ (s : State) (v : Reg), s.status.busy = true →
    hostRegWrite 3 v s =
      { s with status := ⟨true, s.status.done, s.status.err, s.status.flag, true, s.status.ecode⟩ }

/-- 10_state R41: a STATUS write clears DONE and OVR where it has a 1, and changes nothing else; what STATUS then reads is what
it read before with those bits cleared. -/
def Obligations.StatusWriteClearsDoneAndOverrun : Prop :=
  ∀ (s : State) (v : Reg),
    hostRegWrite 2 v s =
      { s with
        status := ⟨s.status.busy, s.status.done && !v.getLsbD 1, s.status.err, s.status.flag,
          s.status.ovr && !v.getLsbD 4, s.status.ecode⟩ } ∧
    hostRegRead 2 (hostRegWrite 2 v s) = hostRegRead 2 s &&& ~~~(v &&& 0x12)

/-- 70_reset R282, 10_state R35: a descriptor write stores all 32 bits, in either phase, and changes no other register; the
command in flight completes as it would have; the next launch latches the new value. -/
def Obligations.DescriptorWritesStoreEveryValue : Prop :=
  ∀ (s : State) (v : Reg) (k : BitVec 4), 4 ≤ k → k ≤ 9 →
    hostRegRead k (hostRegWrite k v s) = v ∧
    (∀ j, j ≠ k → hostRegRead j (hostRegWrite k v s) = hostRegRead j s) ∧
    (∃ d, hostRegWrite k v s = { s with desc := d }) ∧
    (∀ t, completionStep s = .next t → completionStep (hostRegWrite k v s) = .next (hostRegWrite k v t)) ∧
    (∀ w, s.status.busy = false →
      (hostRegWrite 3 w (hostRegWrite k v s)).shadow = ⟨w, (hostRegWrite k v s).desc⟩)

/-- 10_state R35: ID, R_LEN, R2_LEN, RES and the reserved indices ignore a write. -/
def Obligations.ReadOnlyWritesAreIgnored : Prop :=
  ∀ (s : State) (v : Reg) (k : BitVec 4), k = 0 ∨ 10 ≤ k → hostRegWrite k v s = s

/-- 10_state R34: a register read returns the register and has no side effect, in either phase; a reserved index returns
0. The port's answer stands in readData (log 9). -/
def Obligations.RegisterReadsHaveNoSideEffect : Prop :=
  (∀ (s : State) (m : Nat) (k : BitVec 4),
    issue ⟨m, .regRead k, false⟩ s = .next { s with readData := some ⟨m, .reg (hostRegRead k s)⟩ }) ∧
  (∀ (s : State) (k : BitVec 4), 13 ≤ k → hostRegRead k s = 0) ∧
  (∀ s : State, hostRegRead 3 s = s.cmd ∧ hostRegRead 4 s = s.desc.aBase ∧ hostRegRead 5 s = s.desc.aLen ∧
    hostRegRead 6 s = s.desc.bBase ∧ hostRegRead 7 s = s.desc.bLen ∧ hostRegRead 8 s = s.desc.rBase ∧
    hostRegRead 9 s = s.desc.r2Base ∧ hostRegRead 10 s = s.rLen ∧ hostRegRead 11 s = s.r2Len ∧ hostRegRead 12 s = s.res)

/-- 10_state R37: ID holds W, AW, VERSION 1 and MAGIC 0xB5 in every configuration, is constant for a configuration and
read-only, and reads 0xB5010A40 in the reference configuration. -/
def Obligations.IdReadsConfiguration : Prop :=
  (∀ s : State, ((hostRegRead 0 s).extractLsb' 0 8).toNat = s.cfg.W ∧ ((hostRegRead 0 s).extractLsb' 8 8).toNat = s.cfg.AW ∧
    (hostRegRead 0 s).extractLsb' 16 8 = 1 ∧ (hostRegRead 0 s).extractLsb' 24 8 = 0xB5) ∧
  (∀ s t : State, s.cfg = t.cfg → hostRegRead 0 s = hostRegRead 0 t) ∧
  (∀ (s : State) (v : Reg), hostRegWrite 0 v s = s) ∧
  hostRegRead 0 State.reset = 0xB5010A40

/-- 10_state R40, R36, R38: STATUS and CTRL read their fields at their places and 0 at every reserved bit. -/
def Obligations.StatusAndCtrlReadTheirFields : Prop :=
  ∀ s : State,
    (hostRegRead 2 s).getLsbD 0 = s.status.busy ∧ (hostRegRead 2 s).getLsbD 1 = s.status.done ∧
    (hostRegRead 2 s).getLsbD 2 = s.status.err ∧ (hostRegRead 2 s).getLsbD 3 = s.status.flag ∧
    (hostRegRead 2 s).getLsbD 4 = s.status.ovr ∧ (hostRegRead 2 s).extractLsb' 5 3 = 0 ∧
    ((hostRegRead 2 s).extractLsb' 8 4).toNat = s.status.ecode.code ∧ (hostRegRead 2 s).extractLsb' 12 20 = 0 ∧
    (hostRegRead 1 s).getLsbD 0 = s.ie ∧ (hostRegRead 1 s).extractLsb' 1 31 = 0

/-- 10_state R38: a CTRL write with bit 1 clear sets IE and nothing else; with bit 1 set it is the soft reset of 70_reset R272
in phase IDLE, whatever bit 0 is: every register 0, the phase IDLE, WMEM unchanged. The shadow is unspecified (R53). -/
def Obligations.CtrlWriteSetsEnableOrResets : Prop :=
  ∀ (s : State) (v : Reg),
    (v.getLsbD 1 = false → hostRegWrite 1 v s = { s with ie := v.getLsbD 0 }) ∧
    (v.getLsbD 1 = true → s.status.busy = false →
      ∃ S n, hostRegWrite 1 v s =
        { s with
          ie := false, status := ⟨false, false, false, false, false, .noError⟩, cmd := 0, desc := ⟨0, 0, 0, 0, 0, 0⟩
          rLen := 0, r2Len := 0, res := 0, shadow := S, draws := n })

/-- 70_reset R272, in phase BUSY: the command is abandoned, every register is 0, no DONE and no interrupt; every byte of WMEM
outside the output regions of the command in flight is unchanged. What those regions then hold is a free value (log 10). A
word in flight that decodes to no command has no output region, so all of WMEM is unchanged: DEDUCED, the model's (log 11). -/
def Obligations.SoftResetAbortsCommand : Prop :=
  ∀ (s : State) (v : Reg), s.wmem.wf → s.status.busy = true → v.getLsbD 1 = true →
    (∃ m S n, hostRegWrite 1 v s =
      { s with
        ie := false, status := ⟨false, false, false, false, false, .noError⟩, cmd := 0, desc := ⟨0, 0, 0, 0, 0, 0⟩
        rLen := 0, r2Len := 0, res := 0, wmem := m, shadow := S, draws := n }) ∧
    (hostRegWrite 1 v s).irq = false ∧
    (∀ i b, decode s.shadow.cmd = .ok i → (∀ o ∈ outputRegions i s.shadow.desc, o.ByteOutside s.cfg b) →
      (hostRegWrite 1 v s).wmem.read b = s.wmem.read b) ∧
    (IllegalWord s.shadow.cmd → (hostRegWrite 1 v s).wmem = s.wmem)

/-! ## The WMEM port (20_memory R71 to R73, R84) -/

/-- 20_memory R72: in phase IDLE an access is performed at once; a read returns the word last written and changes nothing but
the port's answer; a write, at the port or over the byte bus, changes its word and no other. The port's answer stands in readData (log 9). -/
def Obligations.IdleWmemAccessIsPerformedAtOnce : Prop :=
  ∀ (s : State) (m a : Nat), s.wmem.wf → s.status.busy = false → a < s.cfg.depth →
    issue ⟨m, .memRead a, false⟩ s = .next { s with readData := some ⟨m, .word (readWord s.cfg s.wmem a)⟩ } ∧
    ∀ v asBytes, ∃ mem, issue ⟨m, .memWrite a v, asBytes⟩ s = .next { s with wmem := mem } ∧ mem.wf ∧
      readWord s.cfg mem a = v % 2 ^ s.cfg.W ∧ (∀ b, b ≠ a → readWord s.cfg mem b = readWord s.cfg s.wmem b) ∧
      (∀ b, (Region.mk a 1).ByteOutside s.cfg b → mem.read b = s.wmem.read b)

/-- 20_memory R73: in phase BUSY an access is held, and nothing is performed. -/
def Obligations.BusyWmemAccessIsHeld : Prop :=
  ∀ (s : State) (r : Request), s.status.busy = true → r.IsMemAccess s.cfg →
    issue r s = .next { s with held := s.held ++ [r] }

/-- 20_memory R71: a word address of DEPTH or more is no address of the port (the fault is the model's, log 13). -/
def Obligations.AddressBeyondDepthFaults : Prop :=
  ∀ (s : State) (m a v : Nat), s.cfg.depth ≤ a →
    issue ⟨m, .memRead a, false⟩ s = .fault .noSuchWord ∧ issue ⟨m, .memWrite a v, false⟩ s = .fault .noSuchWord

/-- 20_memory R73, R84: a read held while a command runs, made at the port or over the byte bus, is performed after the
completion, against WMEM as the completion leaves it. That it is the oldest held access that goes first, in the very next
step and before any other input, is the model's (log 7: DESIGN CHOICE and DEDUCED). -/
def Obligations.HeldReadSeesTheResult : Prop :=
  ∀ (s t : State) (m a : Nat) (asBytes : Bool) (rest : List Request), s.resetIn = false → a < s.cfg.depth →
    s.held = ⟨m, .memRead a, asBytes⟩ :: rest → completionStep s = .next t →
    ∃ x, step t = .next { t with held := rest, readData := some ⟨m, x⟩ } ∧
      (asBytes = false → x = .word (readWord t.cfg t.wmem a)) ∧
      (asBytes = true → ∃ bs, x = .bytes bs ∧ LittleEndian bs t.cfg.bytesPerWord (readWord t.cfg t.wmem a))

/-- 20_memory R73, 70_reset R272: what ends the hold is a completion or a soft reset, and a held access, a read or a write, at
the port or over the byte bus, is then performed against WMEM as it stands after that step; a held write changes its word and
no other. That the oldest goes first, in the very next step and before any other input, is the model's (log 7: DESIGN CHOICE
and DEDUCED). -/
def Obligations.HeldAccessIsPerformedWhenIdle : Prop :=
  ∀ (s : State) (r : Request) (rest : List Request), s.resetIn = false → s.held = r :: rest →
    (s.status.busy = false → step s = issue r { s with held := rest }) ∧
    (∀ t, completionStep s = .next t → step t = issue r { t with held := rest }) ∧
    (∀ v : Reg, v.getLsbD 1 = true →
      step (hostRegWrite 1 v s) = issue r { hostRegWrite 1 v s with held := rest }) ∧
    (∀ t a v, s.wmem.wf → completionStep s = .next t → r.access = .memWrite a v → a < s.cfg.depth →
      ∃ mem, step t = .next { t with held := rest, wmem := mem } ∧ mem.wf ∧ readWord t.cfg mem a = v % 2 ^ t.cfg.W ∧
        (∀ b, b ≠ a → readWord t.cfg mem b = readWord t.cfg t.wmem b))

/-- 20_memory R79 to R81: the admitted byte bus accesses are register `k` at `P_REG_BASE + 4k` and word `a` at
`P_WMEM_BASE + a·W/8`; every other access, a read or a write, of another size or at another offset in a window or outside both
windows, is refused. The refusal by name is the model's, and the windows do not overlap (log 14). -/
def Obligations.BusReachesRegistersAndWords : Prop :=
  ∀ (s : State) (m : Nat) (rest : List Input), s.resetIn = false → s.isHeld m = false →
    (s.held = [] ∨ s.status.busy = true) →
    s.cfg.regBase + 64 ≤ s.cfg.wmemBase ∨ s.cfg.wmemBase + s.cfg.depth * s.cfg.bytesPerWord ≤ s.cfg.regBase →
    (∀ k : BitVec 4,
      (s.inputs = .bus m (.read (s.cfg.regBase + 4 * k.toNat) 4) :: rest →
        step s = issue ⟨m, .regRead k, true⟩ { s with inputs := rest }) ∧
      (∀ data : List Byte, data.length = 4 → s.inputs = .bus m (.write (s.cfg.regBase + 4 * k.toNat) data) :: rest →
        step s = issue ⟨m, .regWrite k (BitVec.ofNat 32 (fromBytes data)), true⟩ { s with inputs := rest })) ∧
    (∀ a, a < s.cfg.depth →
      (s.inputs = .bus m (.read (s.cfg.wmemBase + a * s.cfg.bytesPerWord) s.cfg.bytesPerWord) :: rest →
        step s = issue ⟨m, .memRead a, true⟩ { s with inputs := rest }) ∧
      (∀ data : List Byte, data.length = s.cfg.bytesPerWord →
        s.inputs = .bus m (.write (s.cfg.wmemBase + a * s.cfg.bytesPerWord) data) :: rest →
        step s = issue ⟨m, .memWrite a (fromBytes data), true⟩ { s with inputs := rest })) ∧
    (∀ b addr size, b.IsAt addr size → s.inputs = .bus m b :: rest →
      (∀ off, addr = s.cfg.regBase + off → off < 64 → size ≠ 4 ∨ off % 4 ≠ 0 →
        step s = .refused .busAccessNotAdmitted) ∧
      (∀ off, addr = s.cfg.wmemBase + off → off < s.cfg.depth * s.cfg.bytesPerWord →
        size ≠ s.cfg.bytesPerWord ∨ off % s.cfg.bytesPerWord ≠ 0 → step s = .refused .busAccessNotAdmitted) ∧
      (addr < s.cfg.regBase ∨ s.cfg.regBase + 64 ≤ addr →
        addr < s.cfg.wmemBase ∨ s.cfg.wmemBase + s.cfg.depth * s.cfg.bytesPerWord ≤ addr →
        step s = .refused .busAccessNotAdmitted))

/-- 20_memory R79: on the byte bus a value is its bytes, the least significant at the lowest address: the answer to a read of a
register, in either phase, and of a word, in phase IDLE, has byte `i` equal to bits `8i+7..8i`, and so has the value that
written bytes stand for. The answer stands in readData (log 9). -/
def Obligations.BusReadsLeastSignificantByteFirst : Prop :=
  (∀ (c : Config) (v : Reg) (x : Nat), x < 2 ^ c.W →
    (∃ bs, (ReadValue.reg v).onBus c = .bytes bs ∧ LittleEndian bs 4 v.toNat ∧ fromBytes bs = v.toNat) ∧
    (∃ bs, (ReadValue.word x).onBus c = .bytes bs ∧ LittleEndian bs c.bytesPerWord x ∧ fromBytes bs = x)) ∧
  (∀ (s : State) (m : Nat) (k : BitVec 4),
    ∃ bs, issue ⟨m, .regRead k, true⟩ s = .next { s with readData := some ⟨m, .bytes bs⟩ } ∧
      LittleEndian bs 4 (hostRegRead k s).toNat) ∧
  (∀ (s : State) (m a : Nat), s.status.busy = false → a < s.cfg.depth →
    ∃ bs, issue ⟨m, .memRead a, true⟩ s = .next { s with readData := some ⟨m, .bytes bs⟩ } ∧
      LittleEndian bs s.cfg.bytesPerWord (readWord s.cfg s.wmem a) ∧
      ∀ j, j < s.cfg.bytesPerWord → bs.getD j 0 = s.wmem.read (a * s.cfg.bytesPerWord + j)) ∧
  (∀ data : List Byte, LittleEndian data data.length (fromBytes data) ∧ fromBytes data < 2 ^ (8 * data.length))

/-! ## Reset and the interrupt (10_state R53, 70_reset R270, 60_exceptions R250) -/

/-- 10_state R53, 70_reset R270: after a power-on reset every register reads 0 but ID, the phase is IDLE and the interrupt
line 0, in every configuration. The shadow and WMEM are unspecified there and are the model's choice (logs 4 and 5). -/
def Obligations.ResetClearsEveryRegister : Prop :=
  (∀ (c : Config) (k : BitVec 4), k ≠ 0 → hostRegRead k (State.resetOf c) = 0) ∧
  (∀ c : Config, (State.resetOf c).phase = .idle ∧ (State.resetOf c).irq = false) ∧
  State.reset.cfg.W = 64 ∧ State.reset.cfg.AW = 10 ∧ State.reset.cfg.depth = 1024

/-- 70_reset R270: the reset input brings every register to its power-on value. R270 says so of an input "asserted and
released"; that it happens at the assertion, and that the input is a level (resetIn), are the model's choice (log 12). -/
def Obligations.ResetInputClearsEveryRegister : Prop :=
  ∀ (s : State) (rest : List Input), s.inputs = .assertReset :: rest → (s.held = [] ∨ s.status.busy = true) →
    ∃ t, step s = .next t ∧ (∀ k : BitVec 4, k ≠ 0 → hostRegRead k t = 0) ∧ hostRegRead 0 t = hostRegRead 0 s ∧
      t.phase = .idle ∧ t.irq = false ∧ t.resetIn = true ∧ t.inputs = rest

/-- 60_exceptions R250: the interrupt line is `IE ∧ DONE`, pending while DONE is 1: a completion raises it iff IE is set, and no
other step sets DONE; acknowledging DONE, clearing IE, a launch, a soft reset and the reset input lower it. -/
def Obligations.InterruptLineIsEnableAndDone : Prop :=
  ∀ s : State, (s.irq = true ↔ s.ie = true ∧ s.status.done = true) ∧
    (∀ t, completionStep s = .next t → t.status.done = true ∧ t.irq = s.ie) ∧
    (∀ t, step s = .next t → s.status.done = false → t.status.done = true →
      s.phase = .busy ∧ t.phase = .idle ∧ ∃ rest, completionStep { s with inputs := rest } = .next t) ∧
    (∀ v : Reg, v.getLsbD 1 = true → (hostRegWrite 2 v s).irq = false) ∧
    (∀ v : Reg, v.getLsbD 0 = false → (hostRegWrite 1 v s).irq = false) ∧
    (∀ v : Reg, v.getLsbD 1 = true → (hostRegWrite 1 v s).irq = false) ∧
    (∀ v : Reg, s.status.busy = false → (hostRegWrite 3 v s).irq = false) ∧
    (assertReset s).irq = false

/-! ## Whole-machine rules and invariants -/

/-- The invariant holds after reset, in every configuration. -/
def Obligations.InvariantHoldsAtReset : Prop := ∀ c : Config, (State.resetOf c).Inv

/-- Every step keeps the invariant: STATUS's (10_state R42), canonical WMEM with nothing listed outside its DEPTH words (R51),
at most one held access of each master, each to a word of WMEM (20_memory R73, R89), no command in flight under reset. -/
def Obligations.StepKeepsInvariant : Prop :=
  ∀ s t : State, s.Inv → step s = .next t → t.Inv

/-- 10_state R42: the invariants of STATUS, "which every step keeps". -/
def Obligations.StepKeepsStatusInvariants : Prop :=
  ∀ s t : State, s.status.Inv → step s = .next t → t.status.Inv

/-- 00_scope R8: "The constants are fixed at configuration time and never change", whatever a step does; so ID reads the same
for ever (10_state R37). -/
def Obligations.ConfigurationNeverChanges : Prop :=
  ∀ s t : State, step s = .next t → t.cfg = s.cfg ∧ hostRegRead 0 t = hostRegRead 0 s

/-- While a command is in flight nothing of it shows (10_state R45, R46, R48, 20_memory R73): a step that starts and ends in
phase BUSY leaves WMEM, the shadow, the result registers and FLAG as they are. -/
def Obligations.CommandInFlightIsNotObservable : Prop :=
  ∀ s t : State, step s = .next t → s.phase = .busy → t.phase = .busy →
    t.wmem = s.wmem ∧ t.shadow = s.shadow ∧ t.rLen = s.rLen ∧ t.r2Len = s.r2Len ∧ t.res = s.res ∧
      t.status.flag = s.status.flag

/-- 10_state R45: the result registers change only at a success completion, or go to 0 by a reset. -/
def Obligations.ResultsChangeOnlyAtSuccessOrReset : Prop :=
  ∀ s t : State, step s = .next t →
    (t.rLen = s.rLen ∧ t.r2Len = s.r2Len ∧ t.res = s.res) ∨
    (s.phase = .busy ∧ t.phase = .idle ∧ t.status.done = true ∧ t.status.err = s.status.err ∧
      t.status.ecode = s.status.ecode) ∨
    (t.rLen = 0 ∧ t.r2Len = 0 ∧ t.res = 0 ∧ t.status = .zero)

/-- Only a launch enters phase BUSY (60_exceptions R245, 10_state R43, R47): a step from IDLE to BUSY is a write of CMD that a
master makes, and the shadow is then CMD and the descriptors. -/
def Obligations.OnlyLaunchEntersBusy : Prop :=
  ∀ s t : State, s.HeldInv → step s = .next t → s.phase = .idle → t.phase = .busy →
    ∃ m v rest, (s.inputs = .host m (.regWrite 3 v) :: rest ∨
        ∃ b, s.inputs = .bus m b :: rest ∧ busToPort s.cfg b = some (.regWrite 3 v)) ∧
      t.cmd = v ∧ t.shadow = ⟨v, s.desc⟩ ∧ t.status.done = false ∧ t.status.err = false ∧ t.wmem = s.wmem

/-- 70_reset R283: "No rule depends on how many host steps pass": however many times a host polls STATUS while a command is in
flight, the completion that follows is the same, but for what the polls returned (readData, log 9). How many host steps come
before the core's turn is the order of the inputs (log 6). -/
def Obligations.PollingDoesNotChangeTheCompletion : Prop :=
  ∀ (n : Nat) (s : State) (m : Nat) (rest : List Input), s.status.busy = true → s.resetIn = false → s.isHeld m = false →
    s.inputs = List.replicate n (.host m (asmRd .status)) ++ .core :: rest →
    Host.Core.run Sys2Proof.core (n + 1) s =
      completionStep { s with
        inputs := rest
        readData := if n = 0 then s.readData else some ⟨m, .reg s.status.value⟩ }

/-- 70_reset R283, 20_memory R73: a command in flight completes and every held access is performed, within one step for each:
the state that follows is the one that the held accesses, made in their order, lead to from the completion. That the core moves
when no input is left is the model's choice (log 6); that the oldest held access goes first, and all of them before any input
that is left, is the model's (log 7: DESIGN CHOICE and DEDUCED). -/
def Obligations.HeldAccessesAreAllPerformed : Prop :=
  ∀ (s : State) (rest : List Input), s.HeldInv → s.status.busy = true → s.resetIn = false →
    (s.inputs = [] ∧ rest = []) ∨ s.inputs = .core :: rest →
    ∃ c t, completionStep { s with inputs := rest } = .next c ∧
      performInOrder s.held { c with held := [] } = .next t ∧
      Host.Core.run Sys2Proof.core (1 + s.held.length) s = .next t ∧
      t.phase = .idle ∧ t.held = [] ∧ t.status.done = true ∧ t.inputs = rest
end

