-- ==== Sys2Proof/Laws/Arrays.lean ====
section
/-! SUPPORT. Word arrays and their values: `val` and `words_n` are inverse on arrays of W-bit words, and what `norm_len`
counts (00_scope R11, R12). -/

namespace Sys2Proof.Machine

/-- Every word is a W-bit word. -/
abbrev Bounded (w : Nat) (xs : WordArray) : Prop := ∀ x ∈ xs, x < 2 ^ w

theorem bounded_cons {w x : Nat} {xs : WordArray} : Bounded w (x :: xs) ↔ x < 2 ^ w ∧ Bounded w xs := List.forall_mem_cons

theorem bounded_append {w : Nat} {xs ys : WordArray} : Bounded w (xs ++ ys) ↔ Bounded w xs ∧ Bounded w ys :=
  List.forall_mem_append

theorem bounded_replicate_zero (w n : Nat) : Bounded w (List.replicate n 0) := by
  intro x hx
  rw [(List.mem_replicate.1 hx).2]
  exact Nat.two_pow_pos w

/-! ## val and words_n -/

@[simp] theorem val_nil (w : Nat) : val w [] = 0 := rfl

@[simp] theorem val_cons (w x : Nat) (xs : WordArray) : val w (x :: xs) = x + 2 ^ w * val w xs := rfl

theorem pow_mul_succ (w n : Nat) : 2 ^ (w * (n + 1)) = 2 ^ w * 2 ^ (w * n) := by
  rw [← Nat.pow_add]
  ring_nf

theorem val_append (w : Nat) (xs ys : WordArray) : val w (xs ++ ys) = val w xs + 2 ^ (w * xs.length) * val w ys := by
  induction xs with
  | nil => simp
  | cons x xs ih =>
    simp only [List.cons_append, val_cons, ih, List.length_cons, pow_mul_succ]
    ring

theorem val_replicate_zero (w n : Nat) : val w (List.replicate n 0) = 0 := by
  induction n with
  | zero => rfl
  | succ n ih => simp [List.replicate_succ, ih]

theorem val_lt (w : Nat) (xs : WordArray) (h : Bounded w xs) : val w xs < 2 ^ (w * xs.length) := by
  induction xs with
  | nil => simp
  | cons x xs ih =>
    obtain ⟨hx, hxs⟩ := bounded_cons.1 h
    simp only [val_cons, List.length_cons, pow_mul_succ]
    calc x + 2 ^ w * val w xs < 2 ^ w + 2 ^ w * val w xs := by omega
      _ = 2 ^ w * (val w xs + 1) := by ring
      _ ≤ 2 ^ w * 2 ^ (w * xs.length) := Nat.mul_le_mul_left _ (ih hxs)

@[simp] theorem length_wordsOf (w n v : Nat) : (wordsOf w n v).length = n := by
  induction n generalizing v with
  | zero => rfl
  | succ n ih => simp [wordsOf, ih]

theorem wordsOf_bounded (w n v : Nat) : Bounded w (wordsOf w n v) := by
  induction n generalizing v with
  | zero => simp [wordsOf, Bounded]
  | succ n ih => exact bounded_cons.2 ⟨Nat.mod_lt _ (Nat.two_pow_pos w), ih _⟩

/-- `val(words_n(v)) = v mod 2^(W·n)`. -/
theorem val_wordsOf (w n v : Nat) : val w (wordsOf w n v) = v % 2 ^ (w * n) := by
  induction n generalizing v with
  | zero => simp [wordsOf, Nat.mod_one]
  | succ n ih => rw [wordsOf, val_cons, ih, pow_mul_succ, Nat.mod_mul]

/-- `words_n(val(X)) = X` for an array of W-bit words. -/
theorem wordsOf_val (w : Nat) (xs : WordArray) (h : Bounded w xs) : wordsOf w xs.length (val w xs) = xs := by
  induction xs with
  | nil => rfl
  | cons x xs ih =>
    obtain ⟨hx, hxs⟩ := bounded_cons.1 h
    have hpos := Nat.two_pow_pos w
    rw [List.length_cons, wordsOf, val_cons, Nat.add_mul_mod_self_left, Nat.mod_eq_of_lt hx, Nat.add_mul_div_left _ _ hpos,
      Nat.div_eq_of_lt hx, Nat.zero_add, ih hxs]

/-- `words_n(v)` "is the unique array of length n" with that value (00_scope R11). -/
theorem eq_wordsOf (w : Nat) (xs : WordArray) (h : Bounded w xs) {n v : Nat} (hl : xs.length = n) (hv : val w xs = v) :
    xs = wordsOf w n v := by
  rw [← hl, ← hv, wordsOf_val w xs h]

/-- `words_n(v)` depends on `v mod 2^(W·n)` alone. -/
theorem wordsOf_mod (w n v : Nat) : wordsOf w n (v % 2 ^ (w * n)) = wordsOf w n v :=
  (eq_wordsOf w _ (wordsOf_bounded w n v) (length_wordsOf ..) (val_wordsOf ..)).symm

/-- `words_n(v)[i] = (v >> (W·i)) mod 2^W` (00_scope R11). -/
theorem wordsOf_getElem (w n v i : Nat) (h : i < (wordsOf w n v).length) :
    (wordsOf w n v)[i] = (v >>> (w * i)) % 2 ^ w := by
  induction n generalizing v i with
  | zero => simp [wordsOf] at h
  | succ n ih =>
    cases i with
    | zero => simp [wordsOf]
    | succ i =>
      simp only [wordsOf, List.getElem_cons_succ]
      rw [ih]
      congr 1
      rw [Nat.shiftRight_eq_div_pow, Nat.shiftRight_eq_div_pow, Nat.div_div_eq_div_mul, pow_mul_succ]

/-! ## Padding -/

theorem length_padTo (n : Nat) (xs : WordArray) (h : xs.length ≤ n) : (padTo n xs).length = n := by
  simp [padTo]
  omega

@[simp] theorem val_padTo (w n : Nat) (xs : WordArray) : val w (padTo n xs) = val w xs := by
  simp [padTo, val_append, val_replicate_zero]

theorem padTo_bounded (w n : Nat) (xs : WordArray) (h : Bounded w xs) : Bounded w (padTo n xs) :=
  bounded_append.2 ⟨h, bounded_replicate_zero _ _⟩

/-! ## norm_len -/

theorem significantLen_cons (x : Nat) (xs : WordArray) :
    significantLen (x :: xs) = if significantLen xs = 0 then (if x = 0 then 0 else 1) else significantLen xs + 1 := by
  rw [significantLen]
  split <;> simp_all

theorem significantLen_le (xs : WordArray) : significantLen xs ≤ xs.length := by
  induction xs with
  | nil => simp [significantLen]
  | cons x xs ih =>
    rw [significantLen_cons, List.length_cons]
    split <;> [split; skip] <;> omega

/-- Every word at or above the significant length is 0. -/
theorem getD_above_significantLen (xs : WordArray) (i : Nat) (h : significantLen xs ≤ i) : xs.getD i 0 = 0 := by
  induction xs generalizing i with
  | nil => rfl
  | cons x xs ih =>
    rw [significantLen_cons] at h
    cases i with
    | zero =>
      split at h
      · split at h
        · simpa
        · omega
      · omega
    | succ i =>
      rw [List.getD_cons_succ]
      exact ih i (by split at h <;> omega)

/-- The word just below the significant length is not 0. -/
theorem getD_below_significantLen (xs : WordArray) (h : significantLen xs ≠ 0) :
    xs.getD (significantLen xs - 1) 0 ≠ 0 := by
  induction xs with
  | nil => simp [significantLen] at h
  | cons x xs ih =>
    rw [significantLen_cons] at h ⊢
    by_cases hs : significantLen xs = 0
    · by_cases hx : x = 0 <;> simp_all
    · rw [if_neg hs, Nat.add_sub_cancel]
      obtain ⟨k, hk⟩ := Nat.exists_eq_succ_of_ne_zero hs
      have := ih hs
      rw [hk] at this ⊢
      simpa using this

theorem val_eq_zero_iff (w : Nat) (xs : WordArray) : val w xs = 0 ↔ significantLen xs = 0 := by
  have hpos := Nat.two_pow_pos w
  induction xs with
  | nil => simp [significantLen]
  | cons x xs ih =>
    rw [significantLen_cons, val_cons]
    by_cases hs : significantLen xs = 0
    · have hv := ih.2 hs
      by_cases hx : x = 0 <;> simp [hs, hv, hx]
    · have hv : val w xs ≠ 0 := fun h => hs (ih.1 h)
      simp [hs, hv]

theorem one_le_normLen (xs : WordArray) : 1 ≤ normLen xs := Nat.le_max_left _ _

theorem normLen_le (xs : WordArray) (h : 1 ≤ xs.length) : normLen xs ≤ xs.length :=
  Nat.max_le.2 ⟨h, significantLen_le xs⟩

theorem getD_above_normLen (xs : WordArray) (i : Nat) (h : normLen xs ≤ i) : xs.getD i 0 = 0 :=
  getD_above_significantLen xs i (Nat.le_trans (Nat.le_max_right _ _) h)

/-- Where `norm_len` is more than 1, its top word is not 0. -/
theorem getD_below_normLen (xs : WordArray) (h : 1 < normLen xs) : xs.getD (normLen xs - 1) 0 ≠ 0 := by
  have hs : normLen xs = significantLen xs := by
    rw [normLen] at h ⊢
    omega
  rw [hs] at h ⊢
  exact getD_below_significantLen xs (by omega)

/-- Nothing of the value lies above `norm_len`. -/
theorem val_take_above (w : Nat) (xs : WordArray) (n : Nat) (h : significantLen xs ≤ n) : val w (xs.take n) = val w xs := by
  induction xs generalizing n with
  | nil => simp
  | cons x xs ih =>
    rw [significantLen_cons] at h
    cases n with
    | zero =>
      have hs : significantLen xs = 0 := by
        split at h
        · assumption
        · omega
      have hx : x = 0 := by
        by_contra hx
        simp [hs, hx] at h
      simp [hx, (val_eq_zero_iff w xs).2 hs]
    | succ n =>
      rw [List.take_succ_cons, val_cons, val_cons, ih n (by split at h <;> omega)]

theorem val_take_normLen (w : Nat) (xs : WordArray) : val w (xs.take (normLen xs)) = val w xs :=
  val_take_above w xs _ (Nat.le_max_right _ _)

theorem topWord_eq_getD (xs : WordArray) : topWord xs = xs.getD (xs.length - 1) 0 := rfl

/-- The two forms of "normalized" agree (00_scope R12). -/
theorem isNormalized_iff (xs : WordArray) (h : 1 ≤ xs.length) :
    isNormalized xs = true ↔ xs.length = 1 ∨ topWord xs ≠ 0 := by
  rw [isNormalized, decide_eq_true_iff, topWord_eq_getD]
  constructor
  · intro hn
    by_cases h1 : xs.length = 1
    · exact .inl h1
    · right
      have := getD_below_normLen xs (by omega)
      rwa [hn] at this
  · rintro (h1 | h1)
    · have := one_le_normLen xs
      have := normLen_le xs h
      omega
    · by_contra hne
      have hle := normLen_le xs h
      exact h1 (getD_above_normLen xs _ (by omega))

/-- A normalized array of more than one word is at least `2^(W·(n−1))` (45_compare_normalize R201). -/
theorem le_val_of_topWord (w : Nat) (xs : WordArray) (h : topWord xs ≠ 0) : 2 ^ (w * (xs.length - 1)) ≤ val w xs := by
  induction xs with
  | nil => simp [topWord] at h
  | cons x xs ih =>
    cases xs with
    | nil =>
      simp [topWord] at h ⊢
      omega
    | cons y ys =>
      have hy : topWord (y :: ys) ≠ 0 := by simpa [topWord] using h
      have := ih hy
      simp only [List.length_cons, Nat.add_sub_cancel] at this ⊢
      rw [val_cons, pow_mul_succ]
      exact Nat.le_trans (Nat.mul_le_mul_left _ this) (Nat.le_add_left _ _)

end Sys2Proof.Machine
end

