-- ==== Sys2Proof/Laws/Chains.lean ====
section
/-! SUPPORT. What the carry loops compute: of ADD, SUB, SHL, SHR and `twos`, each as one equation on values. -/

namespace Sys2Proof.Machine

/-! ## ADD (41_add_sub R140) -/

@[simp] theorem length_addChain (w c : Nat) (ps : List (Nat × Nat)) : (addChain w c ps).1.length = ps.length := by
  induction ps generalizing c with
  | nil => rfl
  | cons p ps ih => simp [addChain, ih]

theorem addChain_bounded (w c : Nat) (ps : List (Nat × Nat)) : Bounded w (addChain w c ps).1 := by
  induction ps generalizing c with
  | nil => simp [addChain, Bounded]
  | cons p ps ih => exact bounded_cons.2 ⟨Nat.mod_lt _ (Nat.two_pow_pos w), ih _⟩

/-- The words of the sum and the final carry hold the sum of the two arrays and the carry in. -/
theorem addChain_val (w c : Nat) (ps : List (Nat × Nat)) :
    val w (addChain w c ps).1 + 2 ^ (w * ps.length) * (addChain w c ps).2 =
      val w (ps.map (·.1)) + val w (ps.map (·.2)) + c := by
  induction ps generalizing c with
  | nil => simp [addChain]
  | cons p ps ih =>
    obtain ⟨a, b⟩ := p
    have h := ih ((a + b + c) / 2 ^ w)
    have hd := Nat.mod_add_div (a + b + c) (2 ^ w)
    simp only [addChain, val_cons, List.length_cons, pow_mul_succ, List.map_cons]
    calc _ = (a + b + c) % 2 ^ w + 2 ^ w * (val w (addChain w ((a + b + c) / 2 ^ w) ps).1 +
              2 ^ (w * ps.length) * (addChain w ((a + b + c) / 2 ^ w) ps).2) := by ring
      _ = ((a + b + c) % 2 ^ w + 2 ^ w * ((a + b + c) / 2 ^ w)) +
            2 ^ w * (val w (ps.map (·.1)) + val w (ps.map (·.2))) := by rw [h]; ring
      _ = _ := by rw [hd]; ring

/-- The carry stays one bit. -/
theorem addChain_carry_le (w c : Nat) (ps : List (Nat × Nat)) (hc : c ≤ 1)
    (hp : ∀ p ∈ ps, p.1 < 2 ^ w ∧ p.2 < 2 ^ w) : (addChain w c ps).2 ≤ 1 := by
  induction ps generalizing c with
  | nil => exact hc
  | cons p ps ih =>
    obtain ⟨h1, h2⟩ := hp p (List.mem_cons_self ..)
    refine ih _ ?_ fun q hq => hp q (List.mem_cons_of_mem _ hq)
    apply Nat.le_of_lt_succ
    rw [Nat.div_lt_iff_lt_mul (Nat.two_pow_pos w)]
    omega

/-! ## Pairs -/

theorem length_pairsTo (n : Nat) (a b : WordArray) (ha : a.length ≤ n) (hb : b.length ≤ n) : (pairsTo n a b).length = n := by
  rw [pairsTo, List.length_zip, length_padTo n a ha, length_padTo n b hb, Nat.min_self]

theorem map_fst_pairsTo (n : Nat) (a b : WordArray) (ha : a.length ≤ n) (hb : b.length ≤ n) :
    (pairsTo n a b).map (·.1) = padTo n a :=
  List.map_fst_zip (by rw [length_padTo n a ha, length_padTo n b hb])

theorem map_snd_pairsTo (n : Nat) (a b : WordArray) (ha : a.length ≤ n) (hb : b.length ≤ n) :
    (pairsTo n a b).map (·.2) = padTo n b :=
  List.map_snd_zip (by rw [length_padTo n a ha, length_padTo n b hb])

theorem pairsTo_bounded (w n : Nat) (a b : WordArray) (ha : Bounded w a) (hb : Bounded w b) :
    ∀ p ∈ pairsTo n a b, p.1 < 2 ^ w ∧ p.2 < 2 ^ w := by
  intro p hp
  exact ⟨padTo_bounded w n a ha _ (List.of_mem_zip hp).1, padTo_bounded w n b hb _ (List.of_mem_zip hp).2⟩

/-! ## SUB (41_add_sub R145) -/

@[simp] theorem length_subChain (w c : Nat) (ps : List (Nat × Nat)) : (subChain w c ps).1.length = ps.length := by
  induction ps generalizing c with
  | nil => rfl
  | cons p ps ih =>
    rw [subChain]
    split <;> simp [ih]

theorem subChain_bounded (w c : Nat) (ps : List (Nat × Nat)) (hp : ∀ p ∈ ps, p.1 < 2 ^ w) :
    Bounded w (subChain w c ps).1 := by
  induction ps generalizing c with
  | nil => simp [subChain, Bounded]
  | cons p ps ih =>
    have h1 := hp p (List.mem_cons_self ..)
    have h2 := fun c => ih c fun q hq => hp q (List.mem_cons_of_mem _ hq)
    rw [subChain]
    split
    · exact bounded_cons.2 ⟨by omega, h2 _⟩
    · exact bounded_cons.2 ⟨by omega, h2 _⟩

/-- The words of the difference, with what was subtracted, hold the minuend and the final borrow. -/
theorem subChain_val (w c : Nat) (ps : List (Nat × Nat)) (hc : c ≤ 1) (hp : ∀ p ∈ ps, p.2 < 2 ^ w) :
    val w (subChain w c ps).1 + val w (ps.map (·.2)) + c =
      val w (ps.map (·.1)) + 2 ^ (w * ps.length) * (subChain w c ps).2 := by
  induction ps generalizing c with
  | nil => simp [subChain]
  | cons p ps ih =>
    obtain ⟨a, b⟩ := p
    have h1 : b < 2 ^ w := hp (a, b) (List.mem_cons_self ..)
    have h2 := fun q hq => hp q (List.mem_cons_of_mem _ hq)
    rw [subChain]
    split
    · have h := ih 1 (Nat.le_refl 1) h2
      simp only [val_cons, List.length_cons, pow_mul_succ, List.map_cons]
      have e : a + 2 ^ w - (b + c) + b + c = a + 2 ^ w := by omega
      calc _ = (a + 2 ^ w - (b + c) + b + c) + 2 ^ w * (val w (subChain w 1 ps).1 + val w (ps.map (·.2))) := by ring
        _ = a + 2 ^ w * (val w (subChain w 1 ps).1 + val w (ps.map (·.2)) + 1) := by rw [e]; ring
        _ = _ := by rw [h]; ring
    · have h := ih 0 (Nat.zero_le 1) h2
      simp only [val_cons, List.length_cons, pow_mul_succ, List.map_cons]
      have e : a - (b + c) + b + c = a := by omega
      calc _ = (a - (b + c) + b + c) + 2 ^ w * (val w (subChain w 0 ps).1 + val w (ps.map (·.2)) + 0) := by ring
        _ = _ := by rw [e, h]; ring

/-! ## twos (46_twos_complement R221) -/

@[simp] theorem length_twosChain (w c : Nat) (xs : WordArray) : (twosChain w c xs).1.length = xs.length := by
  induction xs generalizing c with
  | nil => rfl
  | cons x xs ih => simp [twosChain, ih]

@[simp] theorem length_twos (w : Nat) (xs : WordArray) : (twos w xs).1.length = xs.length := length_twosChain w 1 xs

theorem twosChain_bounded (w c : Nat) (xs : WordArray) : Bounded w (twosChain w c xs).1 := by
  induction xs generalizing c with
  | nil => simp [twosChain, Bounded]
  | cons x xs ih => exact bounded_cons.2 ⟨Nat.mod_lt _ (Nat.two_pow_pos w), ih _⟩

theorem twosChain_val (w c : Nat) (xs : WordArray) (h : Bounded w xs) :
    val w (twosChain w c xs).1 + 2 ^ (w * xs.length) * (twosChain w c xs).2 + val w xs + 1 = 2 ^ (w * xs.length) + c := by
  induction xs generalizing c with
  | nil => simp [twosChain]; omega
  | cons x xs ih =>
    obtain ⟨hx, hxs⟩ := bounded_cons.1 h
    have hi := ih ((2 ^ w - 1 - x + c) / 2 ^ w) hxs
    have hd := Nat.mod_add_div (2 ^ w - 1 - x + c) (2 ^ w)
    simp only [twosChain, val_cons, List.length_cons, pow_mul_succ]
    generalize (2 ^ w - 1 - x + c) % 2 ^ w = t at *
    generalize (2 ^ w - 1 - x + c) / 2 ^ w = q at *
    calc _ = t + x + 1 + 2 ^ w * (val w (twosChain w q xs).1 + 2 ^ (w * xs.length) * (twosChain w q xs).2 + val w xs) := by
              ring
      _ = t + x + 1 + (2 ^ w * (2 ^ (w * xs.length) + q) - 2 ^ w) := by
              rw [← hi]
              congr 1
              rw [Nat.mul_add (2 ^ w) _ 1, Nat.mul_one, Nat.add_sub_cancel]
      _ = _ := by
              have h1 : 2 ^ w * 1 ≤ 2 ^ w * (2 ^ (w * xs.length) + q) :=
                Nat.mul_le_mul_left _ (Nat.le_trans (Nat.two_pow_pos _) (Nat.le_add_right _ _))
              rw [Nat.mul_add] at h1 ⊢
              omega

/-- `val(T) = (2^(W·n) − val(X)) mod 2^(W·n)`, and the carry is 1 iff `val(X) = 0` (46_twos_complement R221). -/
theorem twos_val (w : Nat) (xs : WordArray) (h : Bounded w xs) :
    val w (twos w xs).1 = (2 ^ (w * xs.length) - val w xs) % 2 ^ (w * xs.length) ∧
      (twos w xs).2 = if val w xs = 0 then 1 else 0 := by
  have hv := twosChain_val w 1 xs h
  have hl := val_lt w xs h
  have hb := val_lt w _ (twosChain_bounded w 1 xs)
  rw [length_twosChain] at hb
  rw [twos]
  generalize (twosChain w 1 xs).2 = c at *
  generalize val w (twosChain w 1 xs).1 = t at *
  generalize 2 ^ (w * xs.length) = m at *
  have hc : c = 0 ∨ c = 1 := by
    rcases c with _ | _ | c
    · exact .inl rfl
    · exact .inr rfl
    · exfalso
      have : m * (c + 1 + 1) = m * c + m + m := by ring
      omega
  rcases hc with rfl | rfl
  · have : val w xs ≠ 0 := by omega
    rw [if_neg this, Nat.mod_eq_of_lt (by omega)]
    omega
  · have : val w xs = 0 := by omega
    rw [if_pos this, this, Nat.sub_zero, Nat.mod_self]
    omega

/-! ## SHL (44_shift R185) -/

@[simp] theorem length_shlChain (w s c : Nat) (xs : WordArray) : (shlChain w s c xs).1.length = xs.length := by
  induction xs generalizing c with
  | nil => rfl
  | cons x xs ih => simp [shlChain, ih]

/-- One word shifted left: its low bits stay in the word above the carry in, its high bits are the carry out. -/
theorem shl_word (w s c a : Nat) (hs : s < w) (hc : c < 2 ^ s) (ha : a < 2 ^ w) :
    ((a <<< s) % 2 ^ w ||| c) + 2 ^ w * (if s = 0 then 0 else a >>> (w - s)) = a * 2 ^ s + c ∧
      ((a <<< s) % 2 ^ w ||| c) < 2 ^ w ∧ (if s = 0 then 0 else a >>> (w - s)) < 2 ^ s := by
  obtain ⟨d, rfl⟩ : ∃ d, w = s + d := ⟨w - s, by omega⟩
  have hcarry : (if s = 0 then 0 else a >>> (s + d - s)) = a / 2 ^ d := by
    rw [Nat.add_sub_cancel_left, Nat.shiftRight_eq_div_pow]
    split
    · rename_i h0
      subst h0
      rw [Nat.div_eq_of_lt (by simpa using ha)]
    · rfl
  have hlow : (a <<< s) % 2 ^ (s + d) = 2 ^ s * (a % 2 ^ d) := by
    rw [Nat.shiftLeft_eq, Nat.mul_comm, Nat.pow_add, Nat.mul_mod_mul_left]
  have hmod : a % 2 ^ d < 2 ^ d := Nat.mod_lt _ (Nat.two_pow_pos d)
  rw [hcarry, hlow, ← Nat.two_pow_add_eq_or_of_lt hc]
  refine ⟨?_, ?_, ?_⟩
  · have := Nat.mod_add_div a (2 ^ d)
    calc _ = 2 ^ s * (a % 2 ^ d + 2 ^ d * (a / 2 ^ d)) + c := by rw [Nat.pow_add]; ring
      _ = _ := by rw [this]; ring
  · calc 2 ^ s * (a % 2 ^ d) + c < 2 ^ s * (a % 2 ^ d) + 2 ^ s := by omega
      _ = 2 ^ s * (a % 2 ^ d + 1) := by ring
      _ ≤ 2 ^ s * 2 ^ d := Nat.mul_le_mul_left _ hmod
      _ = 2 ^ (s + d) := (Nat.pow_add ..).symm
  · rw [Nat.div_lt_iff_lt_mul (Nat.two_pow_pos d), ← Nat.pow_add]
    exact ha

/-- The shifted words and the escaped carry hold `val(A)·2^s` and the carry in (44_shift R186). -/
theorem shlChain_val (w s c : Nat) (xs : WordArray) (hs : s < w) (hc : c < 2 ^ s) (h : Bounded w xs) :
    val w (shlChain w s c xs).1 + 2 ^ (w * xs.length) * (shlChain w s c xs).2 = val w xs * 2 ^ s + c ∧
      Bounded w (shlChain w s c xs).1 ∧ (shlChain w s c xs).2 < 2 ^ s := by
  induction xs generalizing c with
  | nil => simp [shlChain, Bounded, hc]
  | cons a xs ih =>
    obtain ⟨ha, hxs⟩ := bounded_cons.1 h
    obtain ⟨e1, e2, e3⟩ := shl_word w s c a hs hc ha
    obtain ⟨h1, h2, h3⟩ := ih _ e3 hxs
    simp only [shlChain, val_cons, List.length_cons, pow_mul_succ]
    refine ⟨?_, bounded_cons.2 ⟨e2, h2⟩, h3⟩
    generalize (if s = 0 then 0 else a >>> (w - s)) = q at *
    generalize ((a <<< s) % 2 ^ w ||| c) = t at *
    calc _ = t + 2 ^ w * (val w (shlChain w s q xs).1 + 2 ^ (w * xs.length) * (shlChain w s q xs).2) := by ring
      _ = (t + 2 ^ w * q) + 2 ^ w * (val w xs * 2 ^ s) := by rw [h1]; ring
      _ = _ := by rw [e1]; ring

/-! ## SHR (44_shift R190) -/

@[simp] theorem length_shrChain (w s c : Nat) (ys : WordArray) : (shrChain w s c ys).length = ys.length := by
  induction ys generalizing c with
  | nil => rfl
  | cons y ys ih => simp [shrChain, ih]

/-- One word shifted right: its high bits below the carry in, `r·2^(W−s)`. -/
theorem shr_word (w s r a : Nat) (hs : s < w) (hr : r < 2 ^ s) (ha : a < 2 ^ w) :
    (a >>> s ||| 2 ^ (w - s) * r) = a / 2 ^ s + 2 ^ (w - s) * r ∧ (a >>> s ||| 2 ^ (w - s) * r) < 2 ^ w ∧
      (if s = 0 then 0 else (a <<< (w - s)) % 2 ^ w) = 2 ^ (w - s) * (a % 2 ^ s) := by
  obtain ⟨d, rfl⟩ : ∃ d, w = s + d := ⟨w - s, by omega⟩
  rw [Nat.add_sub_cancel_left]
  have hhigh : a >>> s < 2 ^ d := by
    rw [Nat.shiftRight_eq_div_pow, Nat.div_lt_iff_lt_mul (Nat.two_pow_pos s), ← Nat.pow_add, Nat.add_comm]
    exact ha
  have hor : (a >>> s ||| 2 ^ d * r) = 2 ^ d * r + a >>> s := by
    rw [Nat.lor_comm, ← Nat.two_pow_add_eq_or_of_lt hhigh]
  refine ⟨by rw [hor, Nat.shiftRight_eq_div_pow, Nat.add_comm], ?_, ?_⟩
  · rw [hor]
    calc 2 ^ d * r + a >>> s < 2 ^ d * r + 2 ^ d := by omega
      _ = 2 ^ d * (r + 1) := by ring
      _ ≤ 2 ^ d * 2 ^ s := Nat.mul_le_mul_left _ hr
      _ = 2 ^ (s + d) := by rw [← Nat.pow_add, Nat.add_comm]
  · split
    · rename_i h0
      subst h0
      simp [Nat.mod_one]
    · rw [Nat.shiftLeft_eq, Nat.mul_comm, Nat.add_comm s d, Nat.pow_add, Nat.mul_mod_mul_left]

/-- The words shifted right hold `floor(val/2^s)`, with `r` the bits that come in from above (44_shift R186). -/
theorem shrChain_val (w s r : Nat) (ys : WordArray) (hs : s < w) (hr : r < 2 ^ s) (h : Bounded w ys) :
    val w (shrChain w s (2 ^ (w - s) * r) ys).reverse = (val w ys.reverse + 2 ^ (w * ys.length) * r) / 2 ^ s ∧
      Bounded w (shrChain w s (2 ^ (w - s) * r) ys) := by
  induction ys generalizing r with
  | nil => simp [shrChain, Bounded, Nat.div_eq_of_lt hr]
  | cons a ys ih =>
    obtain ⟨ha, hys⟩ := bounded_cons.1 h
    obtain ⟨e1, e2, e3⟩ := shr_word w s r a hs hr ha
    have hlow : a % 2 ^ s < 2 ^ s := Nat.mod_lt _ (Nat.two_pow_pos s)
    obtain ⟨h1, h2⟩ := ih _ hlow hys
    have hsplit : 2 ^ w = 2 ^ s * 2 ^ (w - s) := by rw [← Nat.pow_add]; congr 1; omega
    rw [shrChain, e3]
    refine ⟨?_, bounded_cons.2 ⟨e2, h2⟩⟩
    have hd := Nat.mod_add_div a (2 ^ s)
    have hN : val w (a :: ys).reverse + 2 ^ (w * (a :: ys).length) * r =
        (val w ys.reverse + 2 ^ (w * ys.length) * (a % 2 ^ s)) +
          2 ^ s * (2 ^ (w * ys.length) * (a / 2 ^ s + 2 ^ (w - s) * r)) := by
      simp only [List.reverse_cons, val_append, List.length_reverse, val_cons, val_nil, Nat.mul_zero, Nat.add_zero,
        List.length_cons, pow_mul_succ]
      rw [hsplit]
      calc _ = val w ys.reverse + 2 ^ (w * ys.length) * (a + 2 ^ s * (2 ^ (w - s) * r)) := by ring
        _ = val w ys.reverse + 2 ^ (w * ys.length) * (a % 2 ^ s + 2 ^ s * (a / 2 ^ s) + 2 ^ s * (2 ^ (w - s) * r)) := by
            rw [hd]
        _ = _ := by ring
    rw [hN, Nat.add_mul_div_left _ _ (Nat.two_pow_pos s), ← h1, e1]
    simp only [List.reverse_cons, val_append, List.length_reverse, length_shrChain, val_cons, val_nil, Nat.mul_zero,
      Nat.add_zero]

end Sys2Proof.Machine
end

