-- ==== Sys2Proof/Laws/Config.lean ====
section
/-! SUPPORT. Small facts about every configuration. -/

namespace Sys2Proof

/-- W/8 bytes hold exactly W bits. -/
theorem Config.pow_bytesPerWord (c : Config) : 256 ^ c.bytesPerWord = 2 ^ c.W := by
  obtain ⟨w, _, _, _⟩ := c
  cases w <;> norm_num [Config.bytesPerWord, Config.W, WordWidth.bits]

theorem Config.bytesPerWord_pos (c : Config) : 0 < c.bytesPerWord := by
  obtain ⟨w, _, _, _⟩ := c
  cases w <;> norm_num [Config.bytesPerWord, Config.W, WordWidth.bits]

theorem Config.W_pos (c : Config) : 0 < c.W := by
  obtain ⟨w, _, _, _⟩ := c
  cases w <;> norm_num [Config.W, WordWidth.bits]

/-- The legal shift amounts all fit SHAMT (00_scope R6, 30_encoding R101). -/
theorem Config.W_le (c : Config) : c.W ≤ 128 := by
  obtain ⟨w, _, _, _⟩ := c
  cases w <;> norm_num [Config.W, WordWidth.bits]

theorem Config.AW_le (c : Config) : c.AW ≤ 24 := Nat.succ_le_of_lt c.awPred.isLt

theorem Config.AW_pos (c : Config) : 1 ≤ c.AW := Nat.succ_pos _

/-- Every length a command can report fits a 32-bit register. -/
theorem Config.depth_le (c : Config) : c.depth ≤ 2 ^ 24 := Nat.pow_le_pow_right (by decide) c.AW_le

theorem Config.depth_pos (c : Config) : 0 < c.depth := Nat.two_pow_pos _

end Sys2Proof
end

