-- ==== Sys2Proof/Laws/Memory.lean ====
section
/-! SUPPORT. What every memory operation does: it keeps the canonical form, a read after a write gives the value written, and
a write leaves every other place alone. -/

namespace Sys2Proof.Machine

/-! ## Bytes -/

@[simp] theorem Memory.read_nil (a : Nat) : Memory.read [] a = Config.unwrittenByte := rfl

theorem Memory.wf_nil : Memory.wf [] := by simp [Memory.wf]

theorem Memory.wf_cons (c : Host.Cell) (m : Memory) :
    Memory.wf (c :: m) ↔ (∀ d ∈ m, c.1 < d.1) ∧ c.2 ≠ Config.unwrittenByte ∧ Memory.wf m := by
  simp only [Memory.wf, List.pairwise_cons, List.forall_mem_cons]
  tauto

/-- An address below every listed one is unlisted. -/
theorem Memory.read_below (m : Memory) (a : Nat) (h : ∀ d ∈ m, a < d.1) : m.read a = Config.unwrittenByte := by
  induction m with
  | nil => rfl
  | cons c m ih =>
    have hc := h c (List.mem_cons_self ..)
    simp only [Memory.read, if_neg (Nat.ne_of_gt hc)]
    exact ih fun d hd => h d (List.mem_cons_of_mem _ hd)

/-- The addresses a write leaves listed are those listed before and the one written. -/
theorem Memory.mem_write_addr (m : Memory) (a : Nat) (v : Byte) (c : Host.Cell) (h : c ∈ m.write a v) :
    c.1 = a ∨ ∃ d ∈ m, d.1 = c.1 := by
  induction m with
  | nil =>
    simp only [Memory.write] at h
    split at h <;> simp_all
  | cons d m ih =>
    obtain ⟨b, u⟩ := d
    simp only [Memory.write] at h
    split at h
    · split at h
      · exact .inr ⟨c, h, rfl⟩
      · rcases List.mem_cons.1 h with rfl | h
        · exact .inl rfl
        · exact .inr ⟨c, h, rfl⟩
    · split at h
      · rename_i hab
        split at h
        · exact .inr ⟨c, List.mem_cons_of_mem _ h, rfl⟩
        · rcases List.mem_cons.1 h with rfl | h
          · exact .inl rfl
          · exact .inr ⟨c, List.mem_cons_of_mem _ h, rfl⟩
      · rcases List.mem_cons.1 h with rfl | h
        · exact .inr ⟨_, List.mem_cons_self .., rfl⟩
        · rcases ih h with h | ⟨d, hd, he⟩
          · exact .inl h
          · exact .inr ⟨d, List.mem_cons_of_mem _ hd, he⟩

/-- A write keeps the canonical form. -/
theorem Memory.wf_write (m : Memory) (a : Nat) (v : Byte) (h : m.wf) : (m.write a v).wf := by
  induction m with
  | nil =>
    simp only [Memory.write]
    split
    · exact Memory.wf_nil
    · rename_i hv
      simp [hv, Memory.wf]
  | cons d m ih =>
    obtain ⟨b, u⟩ := d
    obtain ⟨hlt, hu, hm⟩ := (Memory.wf_cons _ _).1 h
    simp only [Memory.write]
    split
    · rename_i hab
      split
      · exact h
      · rename_i hv
        refine (Memory.wf_cons _ _).2 ⟨fun d hd => ?_, hv, h⟩
        rcases List.mem_cons.1 hd with rfl | hd
        · exact hab
        · exact Nat.lt_trans hab (hlt d hd)
    · split
      · rename_i hab
        split
        · exact hm
        · rename_i hv
          exact (Memory.wf_cons _ _).2 ⟨fun d hd => hab ▸ hlt d hd, hv, hm⟩
      · rename_i h1 h2
        refine (Memory.wf_cons _ _).2 ⟨fun c hc => ?_, hu, ih hm⟩
        rcases Memory.mem_write_addr m a v c hc with h3 | ⟨d, hd, he⟩
        · simp only [h3]; omega
        · rw [← he]; exact hlt d hd

/-- A read after a write: the value written at its address, and at every other address what was there before. -/
theorem Memory.read_write (m : Memory) (a : Nat) (v : Byte) (h : m.wf) (b : Nat) :
    (m.write a v).read b = if b = a then v else m.read b := by
  induction m with
  | nil =>
    simp only [Memory.write]
    by_cases hv : v = Config.unwrittenByte
    · simp [hv]
    · by_cases hb : b = a
      · simp [hv, hb, Memory.read]
      · simp [hv, hb, Memory.read, Ne.symm hb]
  | cons d m ih =>
    obtain ⟨c, u⟩ := d
    obtain ⟨hlt, hu, hm⟩ := (Memory.wf_cons _ _).1 h
    simp only [Memory.write]
    split
    · rename_i hac
      have hbelow : Memory.read ((c, u) :: m) a = Config.unwrittenByte := by
        refine Memory.read_below _ _ fun d hd => ?_
        rcases List.mem_cons.1 hd with rfl | hd
        · exact hac
        · exact Nat.lt_trans hac (hlt d hd)
      split
      · rename_i hv
        by_cases hb : b = a
        · rw [if_pos hb, hb, hbelow, hv]
        · rw [if_neg hb]
      · by_cases hb : b = a
        · simp [hb, Memory.read]
        · rw [if_neg hb]
          rw [Memory.read]
          rw [if_neg (Ne.symm hb)]
    · split
      · rename_i hac
        subst hac
        split
        · rename_i hv
          by_cases hb : b = a
          · rw [if_pos hb, hb, hv]
            exact Memory.read_below _ _ hlt
          · simp [hb, Memory.read, Ne.symm hb]
        · by_cases hb : b = a
          · simp [hb, Memory.read]
          · simp [hb, Memory.read, Ne.symm hb]
      · rename_i h1 h2
        simp only [Memory.read]
        by_cases hc : c = b
        · rw [if_pos hc, if_pos hc, if_neg (by omega)]
        · rw [if_neg hc, if_neg hc, ih hm]

theorem Memory.wf_writeBytes (bs : List Byte) (m : Memory) (a : Nat) (h : m.wf) : (m.writeBytes a bs).wf := by
  induction bs generalizing m a with
  | nil => exact h
  | cons b bs ih => exact ih _ _ (Memory.wf_write _ _ _ h)

/-- A read after bytes were written: the byte written at its place, and outside them what was there before. -/
theorem Memory.read_writeBytes (bs : List Byte) (m : Memory) (a : Nat) (h : m.wf) (b : Nat) :
    (m.writeBytes a bs).read b = if a ≤ b ∧ b < a + bs.length then bs.getD (b - a) 0 else m.read b := by
  induction bs generalizing m a with
  | nil => simp [Memory.writeBytes]
  | cons x bs ih =>
    rw [Memory.writeBytes, ih _ _ (Memory.wf_write _ _ _ h), Memory.read_write _ _ _ h]
    simp only [List.length_cons]
    by_cases h1 : b = a
    · subst h1
      rw [if_neg (by omega), if_pos rfl, if_pos (by omega)]
      simp
    · rw [if_neg h1]
      by_cases h2 : a + 1 ≤ b ∧ b < a + 1 + bs.length
      · rw [if_pos h2, if_pos (by omega)]
        obtain ⟨k, hk⟩ : ∃ k, b - a = k + 1 := ⟨b - a - 1, by omega⟩
        rw [hk, show b - (a + 1) = k by omega]
        simp
      · rw [if_neg h2, if_neg (by omega)]

/-! ## Words and bytes -/

@[simp] theorem length_toBytes (n v : Nat) : (toBytes n v).length = n := by
  induction n generalizing v with
  | zero => rfl
  | succ n ih => simp [toBytes, ih]

theorem fromBytes_lt (bs : List Byte) : fromBytes bs < 256 ^ bs.length := by
  induction bs with
  | nil => simp [fromBytes]
  | cons b bs ih =>
    have hb := b.isLt
    simp only [fromBytes, List.length_cons, Nat.pow_succ]
    omega

/-- The bytes of a value give back the value, as far as they reach. -/
theorem fromBytes_toBytes (n v : Nat) : fromBytes (toBytes n v) = v % 256 ^ n := by
  induction n generalizing v with
  | zero => simp [toBytes, fromBytes, Nat.mod_one]
  | succ n ih =>
    have hv : v % 256 ^ (n + 1) = v % 256 + 256 * (v / 256 % 256 ^ n) := by
      rw [Nat.pow_succ, Nat.mul_comm (256 ^ n) 256, Nat.mod_mul]
    rw [hv, toBytes, fromBytes, ih, BitVec.toNat_ofNat]

theorem map_getD_range (bs : List Byte) (f : Nat → Byte) (h : ∀ j, j < bs.length → f j = bs.getD j 0) :
    (List.range bs.length).map f = bs := by
  apply List.ext_getElem
  · simp
  · intro i h1 h2
    simp only [List.getElem_map, List.getElem_range]
    rw [h i h2]
    simp [h2]

/-- A word of WMEM is below `2^W`. -/
theorem readWord_lt (c : Config) (m : Memory) (a : Nat) : readWord c m a < 2 ^ c.W := by
  have h := fromBytes_lt ((List.range c.bytesPerWord).map fun j => m.read (a * c.bytesPerWord + j))
  simpa [readWord, c.pow_bytesPerWord] using h

theorem wf_writeWord (c : Config) (m : Memory) (a v : Nat) (h : m.wf) : (writeWord c m a v).wf :=
  Memory.wf_writeBytes _ _ _ h

/-- Every byte outside a word keeps its value when the word is written. -/
theorem read_writeWord_outside (c : Config) (m : Memory) (a v : Nat) (h : m.wf) (b : Nat)
    (hb : b < a * c.bytesPerWord ∨ (a + 1) * c.bytesPerWord ≤ b) : (writeWord c m a v).read b = m.read b := by
  rw [writeWord, Memory.read_writeBytes _ _ _ h, if_neg]
  rw [Nat.add_mul] at hb
  simp only [length_toBytes]
  omega

/-- A word read where it was written has the value written, `mod 2^W`. -/
theorem readWord_writeWord_same (c : Config) (m : Memory) (a v : Nat) (h : m.wf) :
    readWord c (writeWord c m a v) a = v % 2 ^ c.W := by
  rw [readWord, ← c.pow_bytesPerWord, ← fromBytes_toBytes]
  congr 1
  have hl : (toBytes c.bytesPerWord v).length = c.bytesPerWord := length_toBytes _ _
  conv_lhs => rw [← hl]
  apply map_getD_range
  intro j hj
  rw [writeWord, Memory.read_writeBytes _ _ _ h, hl, if_pos (by omega)]
  congr 1
  omega

/-- Every other word keeps its value. -/
theorem readWord_writeWord_other (c : Config) (m : Memory) (a v b : Nat) (h : m.wf) (hab : b ≠ a) :
    readWord c (writeWord c m a v) b = readWord c m b := by
  rw [readWord, readWord]
  congr 1
  apply List.map_congr_left
  intro j hj
  rw [List.mem_range] at hj
  apply read_writeWord_outside _ _ _ _ h
  rcases Nat.lt_or_gt_of_ne hab with hlt | hgt
  · left
    have := Nat.mul_le_mul_right c.bytesPerWord (show b + 1 ≤ a from hlt)
    rw [Nat.add_mul] at this
    omega
  · right
    have := Nat.mul_le_mul_right c.bytesPerWord (show a + 1 ≤ b from hgt)
    omega

/-! ## Arrays -/

theorem wf_writeArray (c : Config) (xs : WordArray) (m : Memory) (a : Nat) (h : m.wf) : (writeArray c m a xs).wf := by
  induction xs generalizing m a with
  | nil => exact h
  | cons x xs ih => exact ih _ _ (wf_writeWord _ _ _ _ h)

/-- Every byte outside a region keeps its value when the region is written. -/
theorem read_writeArray_outside (c : Config) (xs : WordArray) (m : Memory) (a : Nat) (h : m.wf) (b : Nat)
    (hb : b < a * c.bytesPerWord ∨ (a + xs.length) * c.bytesPerWord ≤ b) :
    (writeArray c m a xs).read b = m.read b := by
  induction xs generalizing m a with
  | nil => rfl
  | cons x xs ih =>
    simp only [List.length_cons] at hb
    have e1 : (a + 1) * c.bytesPerWord = a * c.bytesPerWord + c.bytesPerWord := by ring
    have e2 : (a + (xs.length + 1)) * c.bytesPerWord = (a + 1 + xs.length) * c.bytesPerWord := by ring
    have e3 : (a + 1) * c.bytesPerWord ≤ (a + 1 + xs.length) * c.bytesPerWord := Nat.mul_le_mul_right _ (by omega)
    rw [writeArray, ih _ _ (wf_writeWord _ _ _ _ h), read_writeWord_outside _ _ _ _ h]
    · rcases hb with hb | hb
      · exact .inl hb
      · exact .inr (by omega)
    · rcases hb with hb | hb
      · exact .inl (by omega)
      · exact .inr (by omega)

/-- Every word outside a region keeps its value when the region is written. -/
theorem readWord_writeArray_outside (c : Config) (xs : WordArray) (m : Memory) (a : Nat) (h : m.wf) (b : Nat)
    (hb : b < a ∨ a + xs.length ≤ b) : readWord c (writeArray c m a xs) b = readWord c m b := by
  induction xs generalizing m a with
  | nil => rfl
  | cons x xs ih =>
    simp only [List.length_cons] at hb
    rw [writeArray, ih _ _ (wf_writeWord _ _ _ _ h) (by omega), readWord_writeWord_other _ _ _ _ _ h (by omega)]

@[simp] theorem length_readArray (c : Config) (m : Memory) (a n : Nat) : (readArray c m a n).length = n := by
  simp [readArray]

theorem readArray_lt (c : Config) (m : Memory) (a n : Nat) : ∀ x ∈ readArray c m a n, x < 2 ^ c.W := by
  intro x hx
  obtain ⟨i, _, rfl⟩ := List.mem_map.1 hx
  exact readWord_lt _ _ _

/-- The words of a region after it was written (20_memory R77): the array, if its words are W-bit words. -/
theorem readArray_writeArray_same (c : Config) (xs : WordArray) (m : Memory) (a : Nat) (h : m.wf)
    (hx : ∀ x ∈ xs, x < 2 ^ c.W) : readArray c (writeArray c m a xs) a xs.length = xs := by
  induction xs generalizing m a with
  | nil => rfl
  | cons x xs ih =>
    have hx' : ∀ y ∈ xs, y < 2 ^ c.W := fun y hy => hx y (List.mem_cons_of_mem _ hy)
    have := ih (writeWord c m a x) (a + 1) (wf_writeWord _ _ _ _ h) hx'
    simp only [readArray, List.length_cons, List.range_succ_eq_map, List.map_cons, List.map_map, Nat.add_zero,
      writeArray] at this ⊢
    congr 1
    · rw [readWord_writeArray_outside _ _ _ _ (wf_writeWord _ _ _ _ h) _ (by omega), readWord_writeWord_same _ _ _ _ h,
        Nat.mod_eq_of_lt (hx x (List.mem_cons_self ..))]
    · conv_rhs => rw [← this]
      apply List.map_congr_left
      intro i _
      simp only [Function.comp]
      congr 1
      omega

/-- The words of a region that a written region does not meet. -/
theorem readArray_writeArray_apart (c : Config) (xs : WordArray) (m : Memory) (a b n : Nat) (h : m.wf)
    (hb : b + n ≤ a ∨ a + xs.length ≤ b) : readArray c (writeArray c m a xs) b n = readArray c m b n := by
  apply List.map_congr_left
  intro i hi
  rw [List.mem_range] at hi
  exact readWord_writeArray_outside _ _ _ _ h _ (by omega)

/-! ## Nothing is listed outside WMEM -/

/-- Every listed address belongs to a word of WMEM. -/
abbrev Memory.within (c : Config) (m : Memory) : Prop := ∀ d ∈ m, d.1 < c.depth * c.bytesPerWord

theorem within_write (c : Config) (m : Memory) (a : Nat) (v : Byte) (h : Memory.within c m)
    (ha : a < c.depth * c.bytesPerWord) : Memory.within c (m.write a v) := by
  intro d hd
  rcases Memory.mem_write_addr _ _ _ _ hd with h1 | ⟨e, he, h1⟩
  · rw [h1]; exact ha
  · rw [← h1]; exact h e he

theorem within_writeBytes (c : Config) (bs : List Byte) (m : Memory) (a : Nat) (h : Memory.within c m)
    (ha : a + bs.length ≤ c.depth * c.bytesPerWord) : Memory.within c (m.writeBytes a bs) := by
  induction bs generalizing m a with
  | nil => exact h
  | cons b bs ih =>
    simp only [List.length_cons] at ha
    exact ih _ _ (within_write _ _ _ _ h (by omega)) (by omega)

theorem within_writeWord (c : Config) (m : Memory) (a v : Nat) (h : Memory.within c m) (ha : a < c.depth) :
    Memory.within c (writeWord c m a v) := by
  apply within_writeBytes _ _ _ _ h
  rw [length_toBytes]
  have := Nat.mul_le_mul_right c.bytesPerWord (show a + 1 ≤ c.depth from ha)
  rw [Nat.add_mul] at this
  omega

theorem within_writeArray (c : Config) (xs : WordArray) (m : Memory) (a : Nat) (h : Memory.within c m)
    (ha : xs ≠ [] → a + xs.length ≤ c.depth) : Memory.within c (writeArray c m a xs) := by
  induction xs generalizing m a with
  | nil => exact h
  | cons x xs ih =>
    have := ha (by simp)
    simp only [List.length_cons] at this
    exact ih _ _ (within_writeWord _ _ _ _ h (by omega)) (fun _ => by omega)

end Sys2Proof.Machine
end

