-- ==== Sys2Proof/Laws/Products.lean ====
section
/-! SUPPORT. What the comparison, the multiplier's accumulator and the divider's iterations compute, as values. -/

namespace Sys2Proof.Machine

/-! ## less_than and seeking_less_than (45_compare_normalize R201, R210) -/

/-- A pair below all others decides only if no other pair differs. -/
theorem firstMismatchLess_append (l : List (Nat × Nat)) (a b : Nat) :
    firstMismatchLess (l ++ [(a, b)]) =
      (firstMismatchLess l || (l.all (fun p => decide (p.1 = p.2)) && decide (a < b))) := by
  induction l with
  | nil => by_cases h : a = b <;> simp [firstMismatchLess, h]
  | cons p l ih =>
    obtain ⟨u, v⟩ := p
    by_cases h : u = v <;> simp [firstMismatchLess, ih, h]

theorem firstMismatchLess_self (x : WordArray) : firstMismatchLess (x.zip x).reverse = false := by
  induction x with
  | nil => rfl
  | cons a x ih =>
    rw [List.zip_cons_cons, List.reverse_cons, firstMismatchLess_append, ih]
    simp

theorem val_inj (w : Nat) (x y : WordArray) (hl : x.length = y.length) (hx : Bounded w x) (hy : Bounded w y)
    (h : val w x = val w y) : x = y := by
  rw [← wordsOf_val w x hx, ← wordsOf_val w y hy, hl, h]

theorem all_zip_eq (x y : WordArray) (hl : x.length = y.length) :
    (x.zip y).all (fun p => decide (p.1 = p.2)) = true ↔ x = y := by
  induction x generalizing y with
  | nil => cases y <;> simp_all
  | cons a x ih =>
    cases y with
    | nil => simp at hl
    | cons b y =>
      have := ih y (by simpa using hl)
      simp only [List.zip_cons_cons, List.all_cons, Bool.and_eq_true, decide_eq_true_iff, this, List.cons.injEq]

/-- Words compared from the top compare the values, for arrays of one length. -/
theorem firstMismatchLess_iff (w : Nat) (x y : WordArray) (hl : x.length = y.length) (hx : Bounded w x)
    (hy : Bounded w y) : firstMismatchLess (x.zip y).reverse = true ↔ val w x < val w y := by
  induction x generalizing y with
  | nil => cases y <;> simp_all [firstMismatchLess]
  | cons a x ih =>
    cases y with
    | nil => simp at hl
    | cons b y =>
      obtain ⟨ha, hx⟩ := bounded_cons.1 hx
      obtain ⟨hb, hy⟩ := bounded_cons.1 hy
      have hl : x.length = y.length := by simpa using hl
      have hi := ih y hl hx hy
      have hall := all_zip_eq x y hl
      rw [List.zip_cons_cons, List.reverse_cons, firstMismatchLess_append, List.all_reverse]
      simp only [val_cons]
      have key : ∀ u v : Nat, u < v → a + 2 ^ w * u < b + 2 ^ w * v := by
        intro u v huv
        have : 2 ^ w * (u + 1) ≤ 2 ^ w * v := Nat.mul_le_mul_left _ huv
        rw [Nat.mul_add] at this
        omega
      have key' : ∀ u v : Nat, u < v → b + 2 ^ w * u < a + 2 ^ w * v := by
        intro u v huv
        have : 2 ^ w * (u + 1) ≤ 2 ^ w * v := Nat.mul_le_mul_left _ huv
        rw [Nat.mul_add] at this
        omega
      by_cases hxy : x = y
      · subst hxy
        rw [firstMismatchLess_self, hall.2 rfl]
        simp
      · have hne : (x.zip y).all (fun p => decide (p.1 = p.2)) = false := by
          rw [Bool.eq_false_iff]
          exact fun h => hxy (hall.1 h)
        rw [hne, Bool.false_and, Bool.or_false, hi]
        constructor
        · exact key _ _
        · intro h
          rcases Nat.lt_trichotomy (val w x) (val w y) with h1 | h1 | h1
          · exact h1
          · exact absurd (val_inj w x y hl hx hy h1) hxy
          · have := key' _ _ h1
            omega

/-- `less_than` of two normalized arrays: `val(X) < val(Y)` (45_compare_normalize R201). -/
theorem lessThan_iff (w : Nat) (x y : WordArray) (hx : Bounded w x) (hy : Bounded w y)
    (nx : x.length = 1 ∨ topWord x ≠ 0) (ny : y.length = 1 ∨ topWord y ≠ 0) (lx : 1 ≤ x.length) (ly : 1 ≤ y.length) :
    lessThan x y = true ↔ val w x < val w y := by
  have short : ∀ u v : WordArray, Bounded w u → u.length < v.length → 1 ≤ u.length →
      (v.length = 1 ∨ topWord v ≠ 0) → val w u < val w v := by
    intro u v hu hlt hlu hv
    have htop : topWord v ≠ 0 := by
      rcases hv with h | h
      · omega
      · exact h
    calc val w u < 2 ^ (w * u.length) := val_lt w u hu
      _ ≤ 2 ^ (w * (v.length - 1)) := Nat.pow_le_pow_right (by decide) (Nat.mul_le_mul_left _ (by omega))
      _ ≤ val w v := le_val_of_topWord w v htop
  rw [lessThan]
  by_cases hl : x.length = y.length
  · rw [if_neg (by simpa using hl)]
    exact firstMismatchLess_iff w x y hl hx hy
  · rw [if_pos hl, decide_eq_true_iff]
    constructor
    · exact fun h => short x y hx h lx ny
    · intro h
      by_contra hge
      have := short y x hy (by omega) ly nx
      omega

theorem take_normLen_normalized (x : WordArray) (h : 1 ≤ x.length) :
    (x.take (normLen x)).length = normLen x ∧
      ((x.take (normLen x)).length = 1 ∨ topWord (x.take (normLen x)) ≠ 0) := by
  have hle := normLen_le x h
  have hlen : (x.take (normLen x)).length = normLen x := by simp [hle]
  refine ⟨hlen, ?_⟩
  by_cases h1 : normLen x = 1
  · exact .inl (by rw [hlen, h1])
  · right
    have hgt : 1 < normLen x := by have := one_le_normLen x; omega
    rw [topWord_eq_getD, hlen]
    have := getD_below_normLen x hgt
    simpa [List.getD_eq_getElem?_getD, List.getElem?_take, Nat.sub_lt (by omega : 0 < normLen x) Nat.one_pos] using this

/-- `seeking_less_than` of any arrays: `val(X) < val(Y)` (45_compare_normalize R210). -/
theorem seekingLessThan_iff (w : Nat) (x y : WordArray) (hx : Bounded w x) (hy : Bounded w y) (lx : 1 ≤ x.length)
    (ly : 1 ≤ y.length) : seekingLessThan x y = true ↔ val w x < val w y := by
  obtain ⟨ex, nx⟩ := take_normLen_normalized x lx
  obtain ⟨ey, ny⟩ := take_normLen_normalized y ly
  have := one_le_normLen x
  have := one_le_normLen y
  rw [seekingLessThan, lessThan_iff w _ _ (fun a ha => hx a (List.mem_of_mem_take ha))
    (fun a ha => hy a (List.mem_of_mem_take ha)) nx ny (by omega) (by omega), val_take_normLen, val_take_normLen]

/-! ## MUL (42_multiply R160) -/

@[simp] theorem length_rippleInto (w c : Nat) (p : WordArray) : (rippleInto w c p).length = p.length := by
  induction p generalizing c with
  | nil => rfl
  | cons x p ih =>
    rw [rippleInto]
    split <;> simp [ih]

theorem rippleInto_bounded (w c : Nat) (p : WordArray) (h : Bounded w p) : Bounded w (rippleInto w c p) := by
  induction p generalizing c with
  | nil => exact h
  | cons x p ih =>
    rw [rippleInto]
    split
    · exact h
    · exact bounded_cons.2 ⟨Nat.mod_lt _ (Nat.two_pow_pos w), ih _ (bounded_cons.1 h).2⟩

/-- The carry added, modulo what the words can hold. -/
theorem rippleInto_val (w c : Nat) (p : WordArray) (h : Bounded w p) :
    val w (rippleInto w c p) = (val w p + c) % 2 ^ (w * p.length) := by
  induction p generalizing c with
  | nil => simp [rippleInto, Nat.mod_one]
  | cons x p ih =>
    rw [rippleInto]
    split
    · rename_i hc
      rw [hc, Nat.add_zero, Nat.mod_eq_of_lt (val_lt w _ h)]
    · have hd := Nat.mod_add_div (x + c) (2 ^ w)
      rw [val_cons, ih _ (bounded_cons.1 h).2, val_cons, List.length_cons, pow_mul_succ, Nat.mod_mul]
      have e : x + 2 ^ w * val w p + c = (x + c) % 2 ^ w + 2 ^ w * (val w p + (x + c) / 2 ^ w) := by
        calc _ = (x + c) + 2 ^ w * val w p := by ring
          _ = ((x + c) % 2 ^ w + 2 ^ w * ((x + c) / 2 ^ w)) + 2 ^ w * val w p := by rw [hd]
          _ = _ := by ring
      rw [e, Nat.add_mul_mod_self_left, Nat.mod_mod, Nat.add_mul_div_left _ _ (Nat.two_pow_pos w),
        Nat.div_eq_of_lt (Nat.mod_lt _ (Nat.two_pow_pos w)), Nat.zero_add]

@[simp] theorem length_shiftAdd (w k v : Nat) (p : WordArray) : (shiftAdd w p k v).length = p.length := by
  simp [shiftAdd]
  omega

theorem shiftAdd_bounded (w k v : Nat) (p : WordArray) (h : Bounded w p) : Bounded w (shiftAdd w p k v) :=
  bounded_append.2 ⟨fun a ha => h a (List.mem_of_mem_take ha),
    rippleInto_bounded w v _ fun a ha => h a (List.mem_of_mem_drop ha)⟩

/-- `shift_add(P, k, v)` adds `v·2^(W·k)`, modulo what P can hold (42_multiply R160, R161). -/
theorem shiftAdd_val (w k v : Nat) (p : WordArray) (h : Bounded w p) :
    val w (shiftAdd w p k v) = (val w p + v * 2 ^ (w * k)) % 2 ^ (w * p.length) := by
  by_cases hk : k ≤ p.length
  · have ht : Bounded w (p.take k) := fun a ha => h a (List.mem_of_mem_take ha)
    have hd : Bounded w (p.drop k) := fun a ha => h a (List.mem_of_mem_drop ha)
    have hlt := val_lt w _ ht
    have hlen : (p.take k).length = k := by simp [hk]
    have hp : val w p = val w (p.take k) + 2 ^ (w * k) * val w (p.drop k) := by
      conv_lhs => rw [← List.take_append_drop k p]
      rw [val_append, hlen]
    have hpow : 2 ^ (w * p.length) = 2 ^ (w * k) * 2 ^ (w * (p.drop k).length) := by
      rw [← Nat.pow_add, ← Nat.mul_add, List.length_drop, Nat.add_sub_cancel' hk]
    rw [hlen] at hlt
    rw [shiftAdd, val_append, hlen, rippleInto_val w v _ hd, hp, hpow, Nat.mod_mul]
    have e : val w (p.take k) + 2 ^ (w * k) * val w (p.drop k) + v * 2 ^ (w * k) =
        val w (p.take k) + 2 ^ (w * k) * (val w (p.drop k) + v) := by ring
    rw [e, Nat.add_mul_mod_self_left, Nat.mod_eq_of_lt hlt, Nat.add_mul_div_left _ _ (Nat.two_pow_pos _),
      Nat.div_eq_of_lt hlt, Nat.zero_add]
  · have hk : p.length ≤ k := by omega
    have hdvd : 2 ^ (w * p.length) ∣ v * 2 ^ (w * k) :=
      Dvd.dvd.mul_left (Nat.pow_dvd_pow 2 (Nat.mul_le_mul_left w hk)) v
    rw [shiftAdd, List.take_of_length_le hk, List.drop_of_length_le hk, rippleInto, List.append_nil,
      Nat.add_mod, Nat.mod_eq_zero_of_dvd hdvd, Nat.add_zero, Nat.mod_mod, Nat.mod_eq_of_lt (val_lt w p h)]

theorem mulRow_spec (w ai k : Nat) (bs p : WordArray) (h : Bounded w p) :
    (mulRow w ai k bs p).length = p.length ∧ Bounded w (mulRow w ai k bs p) ∧
      val w (mulRow w ai k bs p) = (val w p + ai * val w bs * 2 ^ (w * k)) % 2 ^ (w * p.length) := by
  induction bs generalizing k p with
  | nil => exact ⟨rfl, h, by simp [mulRow, Nat.mod_eq_of_lt (val_lt w p h)]⟩
  | cons b bs ih =>
    rw [mulRow]
    split
    · rename_i hb
      obtain ⟨h1, h2, h3⟩ := ih (k + 1) p h
      refine ⟨h1, h2, ?_⟩
      rw [h3, hb, val_cons, pow_mul_succ]
      congr 2
      ring
    · have hs := shiftAdd_bounded w (k + 1) (ai * b / 2 ^ w) _ (shiftAdd_bounded w k (ai * b % 2 ^ w) p h)
      obtain ⟨h1, h2, h3⟩ := ih (k + 1) _ hs
      rw [length_shiftAdd, length_shiftAdd] at h1 h3
      refine ⟨h1, h2, ?_⟩
      rw [h3, shiftAdd_val w _ _ _ (shiftAdd_bounded w k _ p h), shiftAdd_val w _ _ _ h, length_shiftAdd, val_cons,
        Nat.mod_add_mod, Nat.add_assoc, Nat.mod_add_mod]
      congr 1
      have hd := Nat.mod_add_div (ai * b) (2 ^ w)
      rw [pow_mul_succ]
      calc _ = val w p + (ai * b % 2 ^ w + 2 ^ w * (ai * b / 2 ^ w)) * 2 ^ (w * k) +
                ai * val w bs * (2 ^ w * 2 ^ (w * k)) := by ring
        _ = _ := by rw [hd]; ring

theorem mulRows_spec (w i : Nat) (b as p : WordArray) (h : Bounded w p) :
    (mulRows w b i as p).length = p.length ∧ Bounded w (mulRows w b i as p) ∧
      val w (mulRows w b i as p) = (val w p + val w as * val w b * 2 ^ (w * i)) % 2 ^ (w * p.length) := by
  induction as generalizing i p with
  | nil => exact ⟨rfl, h, by simp [mulRows, Nat.mod_eq_of_lt (val_lt w p h)]⟩
  | cons a as ih =>
    rw [mulRows]
    split
    · rename_i ha
      obtain ⟨h1, h2, h3⟩ := ih (i + 1) p h
      refine ⟨h1, h2, ?_⟩
      rw [h3, ha, val_cons, pow_mul_succ]
      congr 2
      ring
    · obtain ⟨r1, r2, r3⟩ := mulRow_spec w a i b p h
      obtain ⟨h1, h2, h3⟩ := ih (i + 1) _ r2
      rw [r1] at h1 h3
      refine ⟨h1, h2, ?_⟩
      rw [h3, r3, val_cons, Nat.mod_add_mod, pow_mul_succ]
      congr 1
      ring

/-- `P = words_(la+lb)(val(A) · val(B))` (42_multiply R161). -/
theorem mulWords_eq (w : Nat) (a b : WordArray) (ha : Bounded w a) (hb : Bounded w b) :
    mulWords w a b = wordsOf w (a.length + b.length) (val w a * val w b) := by
  obtain ⟨h1, h2, h3⟩ := mulRows_spec w 0 b a _ (bounded_replicate_zero w (a.length + b.length))
  refine eq_wordsOf w _ h2 (h1.trans (by simp)) ?_
  rw [h3, val_replicate_zero, Nat.zero_add, List.length_replicate, Nat.mul_zero, Nat.pow_zero, Nat.mul_one]
  apply Nat.mod_eq_of_lt
  rw [Nat.mul_add, Nat.pow_add]
  exact Nat.mul_lt_mul'' (val_lt w a ha) (val_lt w b hb)

/-! ## DIV (43_divide R170) -/

/-- What the divider holds before iteration `k − 1`: quotient and remainder of the bits of A from `k` up
(43_divide R171). -/
def DivHolds (w : Nat) (a b : WordArray) (k : Nat) (x : WordArray × WordArray) : Prop :=
  (x.1.length = a.length ∧ Bounded w x.1) ∧ (x.2.length = b.length + 1 ∧ Bounded w x.2) ∧
    val w x.1 = val w a / 2 ^ k / val w b * 2 ^ k ∧ val w x.2 = val w a / 2 ^ k % val w b

theorem divStep_holds (w : Nat) (a b : WordArray) (k : Nat) (x : WordArray × WordArray) (hw : 0 < w) (ha : Bounded w a)
    (hb : Bounded w b) (lb : 1 ≤ b.length) (hb0 : val w b ≠ 0) (h : DivHolds w a b (k + 1) x) :
    DivHolds w a b k (divStep w a b k x) := by
  obtain ⟨⟨q1, q2⟩, ⟨r1, r2⟩, hq, hr⟩ := h
  have hbpos : 0 < val w b := Nat.pos_of_ne_zero hb0
  have hblt := val_lt w b hb
  have hbit : (val w a >>> k) % 2 = val w a / 2 ^ k % 2 := by rw [Nat.shiftRight_eq_div_pow]
  have hhalf : val w a / 2 ^ (k + 1) = val w a / 2 ^ k / 2 := by rw [Nat.pow_succ, Nat.div_div_eq_div_mul]
  have hsplit := Nat.mod_add_div (val w a / 2 ^ k) 2
  have hdm := Nat.mod_add_div (val w a / 2 ^ k / 2) (val w b)
  have hrlt : val w a / 2 ^ k / 2 % val w b < val w b := Nat.mod_lt _ hbpos
  have hbit2 : val w a / 2 ^ k % 2 < 2 := Nat.mod_lt _ (by decide)
  rw [hhalf] at hq hr
  generalize hN : val w a / 2 ^ k = N at *
  have hrm : val w (wordsOf w (b.length + 1) (2 * val w x.2 + (val w a >>> k) % 2)) = 2 * (N / 2 % val w b) + N % 2 := by
    rw [val_wordsOf, hr, hbit]
    apply Nat.mod_eq_of_lt
    rw [pow_mul_succ]
    have h2 : 2 ≤ 2 ^ w := by
      calc 2 = 2 ^ 1 := rfl
        _ ≤ 2 ^ w := Nat.pow_le_pow_right (by decide) hw
    calc _ < 2 * 2 ^ (w * b.length) := by omega
      _ ≤ 2 ^ w * 2 ^ (w * b.length) := Nat.mul_le_mul_right _ h2
  have hNsum : N = (2 * (N / 2 % val w b) + N % 2) + val w b * (2 * (N / 2 / val w b)) := by
    calc N = N % 2 + 2 * (N / 2 % val w b + val w b * (N / 2 / val w b)) := by rw [hdm, hsplit]
      _ = _ := by ring
  have hrmb := wordsOf_bounded w (b.length + 1) (2 * val w x.2 + (val w a >>> k) % 2)
  have hseek := seekingLessThan_iff w _ b hrmb hb (by simp) lb
  rw [hrm] at hseek
  simp only [divStep]
  split
  · rename_i hlt
    have hlt := hseek.1 hlt
    refine ⟨⟨q1, q2⟩, ⟨length_wordsOf .., hrmb⟩, ?_, ?_⟩
    · simp only
      have : N / val w b = 2 * (N / 2 / val w b) := by
        conv_lhs => rw [hNsum]
        rw [Nat.add_mul_div_left _ _ hbpos, Nat.div_eq_of_lt hlt, Nat.zero_add]
      rw [hN, this, hq, Nat.pow_succ]
      ring
    · simp only
      rw [hN, hrm]
      conv_rhs => rw [hNsum]
      rw [Nat.add_mul_mod_self_left, Nat.mod_eq_of_lt hlt]
  · rename_i hge
    have hge : val w b ≤ 2 * (N / 2 % val w b) + N % 2 := by
      by_contra hc
      exact hge (hseek.2 (by omega))
    have hNsum' : N = (2 * (N / 2 % val w b) + N % 2 - val w b) + val w b * (2 * (N / 2 / val w b) + 1) := by
      rw [Nat.mul_add, Nat.mul_one]
      omega
    have hsmall : 2 * (N / 2 % val w b) + N % 2 - val w b < val w b := by omega
    have hNq : N / val w b = 2 * (N / 2 / val w b) + 1 := by
      conv_lhs => rw [hNsum']
      rw [Nat.add_mul_div_left _ _ hbpos, Nat.div_eq_of_lt hsmall, Nat.zero_add]
    have hNr : N % val w b = 2 * (N / 2 % val w b) + N % 2 - val w b := by
      conv_lhs => rw [hNsum']
      rw [Nat.add_mul_mod_self_left, Nat.mod_eq_of_lt hsmall]
    refine ⟨⟨length_wordsOf .., wordsOf_bounded _ _ _⟩, ⟨length_wordsOf .., wordsOf_bounded _ _ _⟩, ?_, ?_⟩
    · simp only
      have hval : val w x.1 + 2 ^ k = N / val w b * 2 ^ k := by
        rw [hNq, hq, Nat.pow_succ]
        ring
      rw [val_wordsOf, hval, hN]
      apply Nat.mod_eq_of_lt
      calc N / val w b * 2 ^ k ≤ N * 2 ^ k := Nat.mul_le_mul_right _ (Nat.div_le_self _ _)
        _ ≤ val w a := by rw [← hN]; exact Nat.div_mul_le_self _ _
        _ < 2 ^ (w * a.length) := val_lt w a ha
    · simp only
      rw [val_wordsOf, hrm, hN, hNr]
      apply Nat.mod_eq_of_lt
      rw [pow_mul_succ]
      calc _ < val w b := hsmall
        _ < 2 ^ (w * b.length) := hblt
        _ ≤ 2 ^ w * 2 ^ (w * b.length) := Nat.le_mul_of_pos_left _ (Nat.two_pow_pos w)

theorem divLoop_holds (w : Nat) (a b : WordArray) (k : Nat) (x : WordArray × WordArray) (hw : 0 < w) (ha : Bounded w a)
    (hb : Bounded w b) (lb : 1 ≤ b.length) (hb0 : val w b ≠ 0) (h : DivHolds w a b k x) :
    DivHolds w a b 0 (divLoop w a b k x) := by
  induction k generalizing x with
  | zero => exact h
  | succ k ih => exact ih _ (divStep_holds w a b k x hw ha hb lb hb0 h)

/-- A word lies below 2 to the power of its significant bits (00_scope R14). -/
theorem lt_pow_sub_clz (w x : Nat) (h : x < 2 ^ w) : x < 2 ^ (w - clz w x) := by
  rw [clz]
  split
  · simp_all
  · rename_i hx
    have hl : Nat.log2 x < w := (Nat.log2_lt hx).2 h
    rw [show w - (w - 1 - Nat.log2 x) = Nat.log2 x + 1 by omega]
    exact Nat.lt_log2_self

/-- `val(X) < 2^bitlen(X)` (00_scope R14). -/
theorem val_lt_bitlen (w : Nat) (xs : WordArray) (h : Bounded w xs) (hl : 1 ≤ xs.length) : val w xs < 2 ^ bitlen w xs := by
  induction xs with
  | nil => simp at hl
  | cons x xs ih =>
    cases xs with
    | nil =>
      have := lt_pow_sub_clz w x (bounded_cons.1 h).1
      simpa [bitlen, topWord] using this
    | cons y ys =>
      obtain ⟨hx, hys⟩ := bounded_cons.1 h
      have hi := ih hys (by simp)
      have hb : bitlen w (x :: y :: ys) = w + bitlen w (y :: ys) := by
        simp [bitlen, topWord]
        ring
      rw [hb, val_cons, Nat.pow_add]
      calc x + 2 ^ w * val w (y :: ys) < 2 ^ w * (val w (y :: ys) + 1) := by rw [Nat.mul_add]; omega
        _ ≤ 2 ^ w * 2 ^ bitlen w (y :: ys) := Nat.mul_le_mul_left _ hi

/-- `Q = words_la(floor(val(A)/val(B)))` and `Rm = words_(lb+1)(val(A) mod val(B))` (43_divide R171). -/
theorem divWords_eq (w : Nat) (a b : WordArray) (hw : 0 < w) (ha : Bounded w a) (hb : Bounded w b) (la : 1 ≤ a.length)
    (lb : 1 ≤ b.length) (hb0 : val w b ≠ 0) :
    (divWords w a b).1 = wordsOf w a.length (val w a / val w b) ∧
      (divWords w a b).2 = wordsOf w (b.length + 1) (val w a % val w b) := by
  have hstart : val w a / 2 ^ bitlen w a = 0 := Nat.div_eq_of_lt (val_lt_bitlen w a ha la)
  have h0 : DivHolds w a b (bitlen w a) (List.replicate a.length 0, List.replicate (b.length + 1) 0) := by
    refine ⟨⟨List.length_replicate, bounded_replicate_zero w _⟩, ⟨List.length_replicate, bounded_replicate_zero w _⟩, ?_, ?_⟩
    · simp [val_replicate_zero, hstart]
    · simp [val_replicate_zero, hstart]
  obtain ⟨⟨q1, q2⟩, ⟨r1, r2⟩, hq, hr⟩ := divLoop_holds w a b _ _ hw ha hb lb hb0 h0
  rw [Nat.pow_zero, Nat.div_one, Nat.mul_one] at hq
  rw [Nat.pow_zero, Nat.div_one] at hr
  exact ⟨eq_wordsOf w _ q2 q1 hq, eq_wordsOf w _ r2 r1 hr⟩

theorem length_divLoop (w : Nat) (a b : WordArray) (k : Nat) (x : WordArray × WordArray) (h1 : x.1.length = a.length)
    (h2 : x.2.length = b.length + 1) :
    (divLoop w a b k x).1.length = a.length ∧ (divLoop w a b k x).2.length = b.length + 1 := by
  induction k generalizing x with
  | zero => exact ⟨h1, h2⟩
  | succ k ih =>
    apply ih
    · simp only [divStep]
      split <;> simp [h1]
    · simp only [divStep]
      split <;> simp

end Sys2Proof.Machine
end

