-- ==== Sys2Proof/Laws/State.lean ====
section
/-! SUPPORT. One lemma per field per update of the state, each true by rfl. -/

namespace Sys2Proof.Machine

@[simp] theorem launch_cfg (s : State) : (launch s).cfg = s.cfg := rfl
@[simp] theorem launch_ie (s : State) : (launch s).ie = s.ie := rfl
@[simp] theorem launch_status (s : State) : (launch s).status =
    { s.status with done := false, err := false, ecode := .noError, busy := true } := rfl
@[simp] theorem launch_cmd (s : State) : (launch s).cmd = s.cmd := rfl
@[simp] theorem launch_desc (s : State) : (launch s).desc = s.desc := rfl
@[simp] theorem launch_rLen (s : State) : (launch s).rLen = s.rLen := rfl
@[simp] theorem launch_r2Len (s : State) : (launch s).r2Len = s.r2Len := rfl
@[simp] theorem launch_res (s : State) : (launch s).res = s.res := rfl
@[simp] theorem launch_shadow (s : State) : (launch s).shadow = ⟨s.cmd, s.desc⟩ := rfl
@[simp] theorem launch_wmem (s : State) : (launch s).wmem = s.wmem := rfl
@[simp] theorem launch_held (s : State) : (launch s).held = s.held := rfl
@[simp] theorem launch_resetIn (s : State) : (launch s).resetIn = s.resetIn := rfl
@[simp] theorem launch_inputs (s : State) : (launch s).inputs = s.inputs := rfl
@[simp] theorem launch_readData (s : State) : (launch s).readData = s.readData := rfl
@[simp] theorem launch_draws (s : State) : (launch s).draws = s.draws := rfl

@[simp] theorem errorCompletion_cfg (e : ECode) (s : State) : (errorCompletion e s).cfg = s.cfg := rfl
@[simp] theorem errorCompletion_ie (e : ECode) (s : State) : (errorCompletion e s).ie = s.ie := rfl
@[simp] theorem errorCompletion_status (e : ECode) (s : State) : (errorCompletion e s).status =
    { s.status with err := true, ecode := e, flag := false, busy := false, done := true } := rfl
@[simp] theorem errorCompletion_cmd (e : ECode) (s : State) : (errorCompletion e s).cmd = s.cmd := rfl
@[simp] theorem errorCompletion_desc (e : ECode) (s : State) : (errorCompletion e s).desc = s.desc := rfl
@[simp] theorem errorCompletion_rLen (e : ECode) (s : State) : (errorCompletion e s).rLen = s.rLen := rfl
@[simp] theorem errorCompletion_r2Len (e : ECode) (s : State) : (errorCompletion e s).r2Len = s.r2Len := rfl
@[simp] theorem errorCompletion_res (e : ECode) (s : State) : (errorCompletion e s).res = s.res := rfl
@[simp] theorem errorCompletion_shadow (e : ECode) (s : State) : (errorCompletion e s).shadow = s.shadow := rfl
@[simp] theorem errorCompletion_wmem (e : ECode) (s : State) : (errorCompletion e s).wmem = s.wmem := rfl
@[simp] theorem errorCompletion_held (e : ECode) (s : State) : (errorCompletion e s).held = s.held := rfl
@[simp] theorem errorCompletion_resetIn (e : ECode) (s : State) : (errorCompletion e s).resetIn = s.resetIn := rfl
@[simp] theorem errorCompletion_inputs (e : ECode) (s : State) : (errorCompletion e s).inputs = s.inputs := rfl
@[simp] theorem errorCompletion_readData (e : ECode) (s : State) : (errorCompletion e s).readData = s.readData := rfl
@[simp] theorem errorCompletion_draws (e : ECode) (s : State) : (errorCompletion e s).draws = s.draws := rfl

@[simp] theorem successCompletion_cfg (f : Bool) (s : State) : (successCompletion f s).cfg = s.cfg := rfl
@[simp] theorem successCompletion_ie (f : Bool) (s : State) : (successCompletion f s).ie = s.ie := rfl
@[simp] theorem successCompletion_status (f : Bool) (s : State) : (successCompletion f s).status =
    { s.status with flag := f, busy := false, done := true } := rfl
@[simp] theorem successCompletion_cmd (f : Bool) (s : State) : (successCompletion f s).cmd = s.cmd := rfl
@[simp] theorem successCompletion_desc (f : Bool) (s : State) : (successCompletion f s).desc = s.desc := rfl
@[simp] theorem successCompletion_rLen (f : Bool) (s : State) : (successCompletion f s).rLen = s.rLen := rfl
@[simp] theorem successCompletion_r2Len (f : Bool) (s : State) : (successCompletion f s).r2Len = s.r2Len := rfl
@[simp] theorem successCompletion_res (f : Bool) (s : State) : (successCompletion f s).res = s.res := rfl
@[simp] theorem successCompletion_shadow (f : Bool) (s : State) : (successCompletion f s).shadow = s.shadow := rfl
@[simp] theorem successCompletion_wmem (f : Bool) (s : State) : (successCompletion f s).wmem = s.wmem := rfl
@[simp] theorem successCompletion_held (f : Bool) (s : State) : (successCompletion f s).held = s.held := rfl
@[simp] theorem successCompletion_resetIn (f : Bool) (s : State) : (successCompletion f s).resetIn = s.resetIn := rfl
@[simp] theorem successCompletion_inputs (f : Bool) (s : State) : (successCompletion f s).inputs = s.inputs := rfl
@[simp] theorem successCompletion_readData (f : Bool) (s : State) : (successCompletion f s).readData = s.readData := rfl
@[simp] theorem successCompletion_draws (f : Bool) (s : State) : (successCompletion f s).draws = s.draws := rfl

@[simp] theorem acknowledge_cfg (v : Reg) (s : State) : (acknowledge v s).cfg = s.cfg := rfl
@[simp] theorem acknowledge_ie (v : Reg) (s : State) : (acknowledge v s).ie = s.ie := rfl
@[simp] theorem acknowledge_status (v : Reg) (s : State) : (acknowledge v s).status =
    { s.status with done := s.status.done && !v.getLsbD 1, ovr := s.status.ovr && !v.getLsbD 4 } := rfl
@[simp] theorem acknowledge_cmd (v : Reg) (s : State) : (acknowledge v s).cmd = s.cmd := rfl
@[simp] theorem acknowledge_desc (v : Reg) (s : State) : (acknowledge v s).desc = s.desc := rfl
@[simp] theorem acknowledge_rLen (v : Reg) (s : State) : (acknowledge v s).rLen = s.rLen := rfl
@[simp] theorem acknowledge_r2Len (v : Reg) (s : State) : (acknowledge v s).r2Len = s.r2Len := rfl
@[simp] theorem acknowledge_res (v : Reg) (s : State) : (acknowledge v s).res = s.res := rfl
@[simp] theorem acknowledge_shadow (v : Reg) (s : State) : (acknowledge v s).shadow = s.shadow := rfl
@[simp] theorem acknowledge_wmem (v : Reg) (s : State) : (acknowledge v s).wmem = s.wmem := rfl
@[simp] theorem acknowledge_held (v : Reg) (s : State) : (acknowledge v s).held = s.held := rfl
@[simp] theorem acknowledge_resetIn (v : Reg) (s : State) : (acknowledge v s).resetIn = s.resetIn := rfl
@[simp] theorem acknowledge_inputs (v : Reg) (s : State) : (acknowledge v s).inputs = s.inputs := rfl
@[simp] theorem acknowledge_readData (v : Reg) (s : State) : (acknowledge v s).readData = s.readData := rfl
@[simp] theorem acknowledge_draws (v : Reg) (s : State) : (acknowledge v s).draws = s.draws := rfl

@[simp] theorem writeResults_cfg (e : Effect) (s : State) : (writeResults e s).cfg = s.cfg := rfl
@[simp] theorem writeResults_ie (e : Effect) (s : State) : (writeResults e s).ie = s.ie := rfl
@[simp] theorem writeResults_status (e : Effect) (s : State) : (writeResults e s).status = s.status := rfl
@[simp] theorem writeResults_cmd (e : Effect) (s : State) : (writeResults e s).cmd = s.cmd := rfl
@[simp] theorem writeResults_desc (e : Effect) (s : State) : (writeResults e s).desc = s.desc := rfl
@[simp] theorem writeResults_rLen (e : Effect) (s : State) : (writeResults e s).rLen = resultReg s.rLen e.rLen := rfl
@[simp] theorem writeResults_r2Len (e : Effect) (s : State) : (writeResults e s).r2Len = resultReg s.r2Len e.r2Len := rfl
@[simp] theorem writeResults_res (e : Effect) (s : State) : (writeResults e s).res = resultReg s.res e.res := rfl
@[simp] theorem writeResults_shadow (e : Effect) (s : State) : (writeResults e s).shadow = s.shadow := rfl
@[simp] theorem writeResults_wmem (e : Effect) (s : State) : (writeResults e s).wmem =
    writeArray s.cfg (writeArray s.cfg s.wmem s.shadow.desc.rBase.toNat e.r) s.shadow.desc.r2Base.toNat e.r2 := rfl
@[simp] theorem writeResults_held (e : Effect) (s : State) : (writeResults e s).held = s.held := rfl
@[simp] theorem writeResults_resetIn (e : Effect) (s : State) : (writeResults e s).resetIn = s.resetIn := rfl
@[simp] theorem writeResults_inputs (e : Effect) (s : State) : (writeResults e s).inputs = s.inputs := rfl
@[simp] theorem writeResults_readData (e : Effect) (s : State) : (writeResults e s).readData = s.readData := rfl
@[simp] theorem writeResults_draws (e : Effect) (s : State) : (writeResults e s).draws = s.draws := rfl

@[simp] theorem finish_cfg (e : Effect) (s : State) : (finish e s).cfg = s.cfg := rfl
@[simp] theorem finish_ie (e : Effect) (s : State) : (finish e s).ie = s.ie := rfl
@[simp] theorem finish_status (e : Effect) (s : State) : (finish e s).status =
    { s.status with flag := e.flag, busy := false, done := true } := rfl
@[simp] theorem finish_cmd (e : Effect) (s : State) : (finish e s).cmd = s.cmd := rfl
@[simp] theorem finish_desc (e : Effect) (s : State) : (finish e s).desc = s.desc := rfl
@[simp] theorem finish_rLen (e : Effect) (s : State) : (finish e s).rLen = resultReg s.rLen e.rLen := rfl
@[simp] theorem finish_r2Len (e : Effect) (s : State) : (finish e s).r2Len = resultReg s.r2Len e.r2Len := rfl
@[simp] theorem finish_res (e : Effect) (s : State) : (finish e s).res = resultReg s.res e.res := rfl
@[simp] theorem finish_shadow (e : Effect) (s : State) : (finish e s).shadow = s.shadow := rfl
@[simp] theorem finish_wmem (e : Effect) (s : State) : (finish e s).wmem =
    writeArray s.cfg (writeArray s.cfg s.wmem s.shadow.desc.rBase.toNat e.r) s.shadow.desc.r2Base.toNat e.r2 := rfl
@[simp] theorem finish_held (e : Effect) (s : State) : (finish e s).held = s.held := rfl
@[simp] theorem finish_resetIn (e : Effect) (s : State) : (finish e s).resetIn = s.resetIn := rfl
@[simp] theorem finish_inputs (e : Effect) (s : State) : (finish e s).inputs = s.inputs := rfl
@[simp] theorem finish_readData (e : Effect) (s : State) : (finish e s).readData = s.readData := rfl
@[simp] theorem finish_draws (e : Effect) (s : State) : (finish e s).draws = s.draws := rfl

@[simp] theorem respond_cfg (r : Request) (v : ReadValue) (s : State) : (respond r v s).cfg = s.cfg := rfl
@[simp] theorem respond_ie (r : Request) (v : ReadValue) (s : State) : (respond r v s).ie = s.ie := rfl
@[simp] theorem respond_status (r : Request) (v : ReadValue) (s : State) : (respond r v s).status = s.status := rfl
@[simp] theorem respond_cmd (r : Request) (v : ReadValue) (s : State) : (respond r v s).cmd = s.cmd := rfl
@[simp] theorem respond_desc (r : Request) (v : ReadValue) (s : State) : (respond r v s).desc = s.desc := rfl
@[simp] theorem respond_rLen (r : Request) (v : ReadValue) (s : State) : (respond r v s).rLen = s.rLen := rfl
@[simp] theorem respond_r2Len (r : Request) (v : ReadValue) (s : State) : (respond r v s).r2Len = s.r2Len := rfl
@[simp] theorem respond_res (r : Request) (v : ReadValue) (s : State) : (respond r v s).res = s.res := rfl
@[simp] theorem respond_shadow (r : Request) (v : ReadValue) (s : State) : (respond r v s).shadow = s.shadow := rfl
@[simp] theorem respond_wmem (r : Request) (v : ReadValue) (s : State) : (respond r v s).wmem = s.wmem := rfl
@[simp] theorem respond_held (r : Request) (v : ReadValue) (s : State) : (respond r v s).held = s.held := rfl
@[simp] theorem respond_resetIn (r : Request) (v : ReadValue) (s : State) : (respond r v s).resetIn = s.resetIn := rfl
@[simp] theorem respond_inputs (r : Request) (v : ReadValue) (s : State) : (respond r v s).inputs = s.inputs := rfl
@[simp] theorem respond_readData (r : Request) (v : ReadValue) (s : State) : (respond r v s).readData =
    some ⟨r.master, if r.asBytes then v.onBus s.cfg else v⟩ := rfl
@[simp] theorem respond_draws (r : Request) (v : ReadValue) (s : State) : (respond r v s).draws = s.draws := rfl

@[simp] theorem softReset_cfg (s : State) : (softReset s).cfg = s.cfg := rfl
@[simp] theorem softReset_ie (s : State) : (softReset s).ie = false := rfl
@[simp] theorem softReset_status (s : State) : (softReset s).status = .zero := rfl
@[simp] theorem softReset_cmd (s : State) : (softReset s).cmd = 0 := rfl
@[simp] theorem softReset_desc (s : State) : (softReset s).desc = .zero := rfl
@[simp] theorem softReset_rLen (s : State) : (softReset s).rLen = 0 := rfl
@[simp] theorem softReset_r2Len (s : State) : (softReset s).r2Len = 0 := rfl
@[simp] theorem softReset_res (s : State) : (softReset s).res = 0 := rfl
@[simp] theorem softReset_shadow (s : State) : (softReset s).shadow = drawShadow s.draws := rfl
@[simp] theorem softReset_wmem (s : State) : (softReset s).wmem =
    if s.status.busy then (regionsInFlight s).foldl (drawRegion s.cfg s.draws) s.wmem else s.wmem := rfl
@[simp] theorem softReset_held (s : State) : (softReset s).held = s.held := rfl
@[simp] theorem softReset_resetIn (s : State) : (softReset s).resetIn = s.resetIn := rfl
@[simp] theorem softReset_inputs (s : State) : (softReset s).inputs = s.inputs := rfl
@[simp] theorem softReset_readData (s : State) : (softReset s).readData = s.readData := rfl
@[simp] theorem softReset_draws (s : State) : (softReset s).draws = s.draws + 1 := rfl

@[simp] theorem assertReset_cfg (s : State) : (assertReset s).cfg = s.cfg := rfl
@[simp] theorem assertReset_ie (s : State) : (assertReset s).ie = false := rfl
@[simp] theorem assertReset_status (s : State) : (assertReset s).status = .zero := rfl
@[simp] theorem assertReset_cmd (s : State) : (assertReset s).cmd = 0 := rfl
@[simp] theorem assertReset_desc (s : State) : (assertReset s).desc = .zero := rfl
@[simp] theorem assertReset_rLen (s : State) : (assertReset s).rLen = 0 := rfl
@[simp] theorem assertReset_r2Len (s : State) : (assertReset s).r2Len = 0 := rfl
@[simp] theorem assertReset_res (s : State) : (assertReset s).res = 0 := rfl
@[simp] theorem assertReset_shadow (s : State) : (assertReset s).shadow = drawShadow s.draws := rfl
@[simp] theorem assertReset_wmem (s : State) : (assertReset s).wmem =
    drawBytes s.draws s.wmem 0 (s.cfg.depth * s.cfg.bytesPerWord) := rfl
@[simp] theorem assertReset_held (s : State) : (assertReset s).held = s.held := rfl
@[simp] theorem assertReset_resetIn (s : State) : (assertReset s).resetIn = true := rfl
@[simp] theorem assertReset_inputs (s : State) : (assertReset s).inputs = s.inputs := rfl
@[simp] theorem assertReset_readData (s : State) : (assertReset s).readData = s.readData := rfl
@[simp] theorem assertReset_draws (s : State) : (assertReset s).draws = s.draws + 1 := rfl

end Sys2Proof.Machine
end

