-- ==== Sys2Proof/Laws/Completion.lean ====
section
/-! SUPPORT. What a completion can do: every command is `complete` of its effect; the effect of each command as words and
values; the checks as facts about regions. -/

namespace Sys2Proof.Machine

/-! ## Every command is the completion of its effect -/

/-- The effect of a command on the shadow's operands. -/
def effectOf (i : Instr) (s : State) : Effect :=
  match i with
  | .add => addEffect s.cfg.W s.inputA s.inputB
  | .sub => subEffect s.cfg.W s.inputA s.inputB
  | .mul => mulEffect s.cfg.W s.inputA s.inputB
  | .div => divEffect s.cfg.W s.inputA s.inputB
  | .shl k => shlEffect s.cfg.W k s.inputA
  | .shr k => shrEffect s.cfg.W k s.inputA
  | .clz => clzEffect s.cfg.W s.inputA
  | .sconv aneg rneg => sconvEffect s.cfg.W aneg rneg s.inputA
  | .neg => negEffect s.cfg.W s.inputA
  | .isneg => isnegEffect s.cfg.W s.inputA
  | .cmplt => cmpltEffect s.inputA s.inputB
  | .norm => normEffect s.cfg.W s.inputA

theorem exec_eq_complete (i : Instr) (s : State) : exec i s = complete i (effectOf i s) s := by
  cases i <;> rfl

/-- A completion is the success completion of the effect, or the error completion of the first failed check. -/
theorem exec_cases (i : Instr) (s : State) :
    (check i s = .noError ∧ exec i s = .next (finish (effectOf i s) s)) ∨
      (check i s ≠ .noError ∧ exec i s = .next (errorCompletion (check i s) s)) := by
  rw [exec_eq_complete, complete]
  by_cases h : check i s = .noError
  · exact .inl ⟨h, if_pos h⟩
  · exact .inr ⟨h, if_neg h⟩

theorem exec_of_check (i : Instr) (s : State) (h : check i s = .noError) : exec i s = .next (finish (effectOf i s) s) := by
  rw [exec_eq_complete, complete, if_pos h]

theorem exec_of_failed (i : Instr) (s : State) (e : ECode) (h : check i s = e) (he : e ≠ .noError) :
    exec i s = .next (errorCompletion e s) := by
  rw [exec_eq_complete, complete, h, if_neg he]

/-! ## The inputs -/

@[simp] theorem length_inputA (s : State) : s.inputA.length = s.shadow.desc.aLen.toNat := length_readArray ..

@[simp] theorem length_inputB (s : State) : s.inputB.length = s.shadow.desc.bLen.toNat := length_readArray ..

theorem inputA_bounded (s : State) : Bounded s.cfg.W s.inputA := readArray_lt _ _ _ _

theorem inputB_bounded (s : State) : Bounded s.cfg.W s.inputB := readArray_lt _ _ _ _

/-! ## Regions -/

theorem Region.inRange_iff (c : Config) (r : Region) : r.inRange c = true ↔ r.Fits c := decide_eq_true_iff

/-- The overlap test is right for regions that are not empty (00_scope R15). -/
theorem Region.overlaps_iff (r q : Region) (hr : 0 < r.len) (hq : 0 < q.len) : r.overlaps q = true ↔ ¬ r.Apart q := by
  rw [Region.overlaps, decide_eq_true_iff]
  constructor
  · intro ⟨h1, h2⟩ ha
    exact ha (max r.base q.base) ⟨⟨by omega, by omega⟩, ⟨by omega, by omega⟩⟩
  · intro ha
    by_contra hn
    refine ha fun x ⟨⟨h1, h2⟩, ⟨h3, h4⟩⟩ => hn ⟨by omega, by omega⟩

/-- The model's test of normalization is the rule's (00_scope R12). -/
theorem isNormalized_iff_Normalized (xs : WordArray) (h : 1 ≤ xs.length) : isNormalized xs = true ↔ Normalized xs :=
  isNormalized_iff xs h

/-! ## The effects as words -/

/-- ADD: the exact sum, and FLAG iff it needs a word more (41_add_sub R141). -/
theorem addEffect_eq (w : Nat) (a b : WordArray) (ha : Bounded w a) (hb : Bounded w b) :
    (addEffect w a b).r = wordsOf w (max a.length b.length + 1) (val w a + val w b) ∧
      (addEffect w a b).flag = decide (2 ^ (w * max a.length b.length) ≤ val w a + val w b) := by
  have la : a.length ≤ max a.length b.length := Nat.le_max_left ..
  have lb : b.length ≤ max a.length b.length := Nat.le_max_right ..
  have hv := addChain_val w 0 (pairsTo (max a.length b.length) a b)
  have hc := addChain_carry_le w 0 _ (Nat.zero_le 1) (pairsTo_bounded w (max a.length b.length) a b ha hb)
  have hbd := addChain_bounded w 0 (pairsTo (max a.length b.length) a b)
  have hlen : (addChain w 0 (pairsTo (max a.length b.length) a b)).1.length = max a.length b.length := by
    rw [length_addChain, length_pairsTo _ _ _ la lb]
  have hlt := val_lt w _ hbd
  rw [map_fst_pairsTo _ _ _ la lb, map_snd_pairsTo _ _ _ la lb, val_padTo, val_padTo, length_pairsTo _ _ _ la lb,
    Nat.add_zero] at hv
  rw [hlen] at hlt
  simp only [addEffect, addFlag]
  constructor
  · apply eq_wordsOf
    · refine bounded_append.2 ⟨hbd, bounded_cons.2 ⟨?_, by simp [Bounded]⟩⟩
      rcases Nat.eq_zero_or_pos w with rfl | hw
      · have hva : val 0 a = 0 := by have := val_lt 0 a ha; simpa using this
        have hvb : val 0 b = 0 := by have := val_lt 0 b hb; simpa using this
        rw [hva, hvb] at hv
        simp only [Nat.zero_mul, Nat.pow_zero, Nat.one_mul] at hv ⊢
        omega
      · calc _ ≤ 1 := hc
          _ < 2 ^ 1 := by decide
          _ ≤ 2 ^ w := Nat.pow_le_pow_right (by decide) hw
    · rw [List.length_append, hlen]
      rfl
    · rw [val_append, hlen, val_cons, val_nil, Nat.mul_zero, Nat.add_zero]
      exact hv
  · congr 1
    rw [eq_iff_iff]
    generalize (addChain w 0 (pairsTo (max a.length b.length) a b)).2 = c at *
    rcases (by omega : c = 0 ∨ c = 1) with rfl | rfl
    · simp
      omega
    · simp
      omega

/-- SUB: the exact difference, where it is not negative (41_add_sub R146). -/
theorem subEffect_eq (w : Nat) (a b : WordArray) (ha : Bounded w a) (hb : Bounded w b) (hl : b.length ≤ a.length)
    (h : val w b ≤ val w a) : (subEffect w a b).r = wordsOf w a.length (val w a - val w b) := by
  have hbd := subChain_bounded w 0 (pairsTo a.length a b) fun p hp => (pairsTo_bounded w a.length a b ha hb p hp).1
  have hv := subChain_val w 0 (pairsTo a.length a b) (Nat.zero_le 1)
    fun p hp => (pairsTo_bounded w a.length a b ha hb p hp).2
  have hlen : (subChain w 0 (pairsTo a.length a b)).1.length = a.length := by
    rw [length_subChain, length_pairsTo _ _ _ (Nat.le_refl _) hl]
  have hlt := val_lt w _ hbd
  rw [map_fst_pairsTo _ _ _ (Nat.le_refl _) hl, map_snd_pairsTo _ _ _ (Nat.le_refl _) hl, val_padTo, val_padTo,
    length_pairsTo _ _ _ (Nat.le_refl _) hl, Nat.add_zero] at hv
  rw [hlen] at hlt
  refine eq_wordsOf w _ hbd hlen ?_
  generalize (subChain w 0 (pairsTo a.length a b)).2 = c at *
  rcases Nat.eq_zero_or_pos c with rfl | hc
  · rw [Nat.mul_zero, Nat.add_zero] at hv
    omega
  · have := Nat.mul_le_mul_left (2 ^ (w * a.length)) hc
    omega

/-- MUL: the exact product (42_multiply R161). -/
theorem mulEffect_eq (w : Nat) (a b : WordArray) (ha : Bounded w a) (hb : Bounded w b) :
    (mulEffect w a b).r = wordsOf w (a.length + b.length) (val w a * val w b) := mulWords_eq w a b ha hb

/-- SHL: `val(A)·2^s`, and FLAG iff it needs a word more (44_shift R186). -/
theorem shlEffect_eq (w k : Nat) (a : WordArray) (ha : Bounded w a) (hk : k < w) :
    (shlEffect w k a).r = wordsOf w (a.length + 1) (val w a * 2 ^ k) ∧
      (shlEffect w k a).flag = decide (2 ^ (w * a.length) ≤ val w a * 2 ^ k) := by
  obtain ⟨hv, hbd, hc⟩ := shlChain_val w k 0 a hk (Nat.two_pow_pos k) ha
  have hlt := val_lt w _ hbd
  rw [length_shlChain] at hlt
  rw [Nat.add_zero] at hv
  simp only [shlEffect, shlFlag]
  constructor
  · apply eq_wordsOf
    · refine bounded_append.2 ⟨hbd, bounded_cons.2 ⟨?_, by simp [Bounded]⟩⟩
      exact Nat.lt_of_lt_of_le hc (Nat.pow_le_pow_right (by decide) (Nat.le_of_lt hk))
    · simp
    · rw [val_append, length_shlChain, val_cons, val_nil, Nat.mul_zero, Nat.add_zero]
      exact hv
  · congr 1
    rw [eq_iff_iff]
    generalize (shlChain w k 0 a).2 = c at *
    constructor
    · intro h
      have := Nat.mul_le_mul_left (2 ^ (w * a.length)) (Nat.pos_of_ne_zero h)
      omega
    · rintro h rfl
      omega

/-- SHR: `floor(val(A)/2^s)` (44_shift R186). -/
theorem shrEffect_eq (w k : Nat) (a : WordArray) (ha : Bounded w a) (hk : k < w) :
    (shrEffect w k a).r = wordsOf w a.length (val w a / 2 ^ k) := by
  have hrev : Bounded w a.reverse := fun x hx => ha x (List.mem_reverse.1 hx)
  obtain ⟨hv, hbd⟩ := shrChain_val w k 0 a.reverse hk (Nat.two_pow_pos k) hrev
  rw [Nat.mul_zero, Nat.mul_zero, Nat.add_zero, List.reverse_reverse] at hv
  rw [Nat.mul_zero] at hbd
  exact eq_wordsOf w _ (fun x hx => hbd x (List.mem_reverse.1 hx)) (by simp) hv

/-- NEG: the two's complement, and FLAG iff A is zero (46_twos_complement R220, R221). -/
theorem negEffect_eq (w : Nat) (a : WordArray) (ha : Bounded w a) :
    (negEffect w a).r = wordsOf w a.length (2 ^ (w * a.length) - val w a) ∧
      (negEffect w a).flag = decide (val w a = 0) := by
  obtain ⟨h1, h2⟩ := twos_val w a ha
  constructor
  · rw [← wordsOf_mod]
    exact eq_wordsOf w _ (twosChain_bounded w 1 a) (length_twosChain w 1 a) h1
  · simp only [negEffect, negFlag, h2]
    by_cases h : val w a = 0 <;> simp [h]

/-! ## What the effects write (20_memory R75, 10_state R45) -/

/-- The words at R are the whole of the output region, if the command has one (20_memory R75, R77). -/
theorem length_effect_r (i : Instr) (s : State) :
    (effectOf i s).r.length = (capR s.shadow.desc.aLen.toNat s.shadow.desc.bLen.toNat i).getD 0 := by
  cases i with
  | add =>
    simp only [effectOf, addEffect, capR, List.length_append, length_addChain]
    rw [length_pairsTo _ _ _ (Nat.le_max_left ..) (Nat.le_max_right ..)]
    simp
  | sub =>
    simp [effectOf, subEffect, capR, pairsTo, padTo]
    omega
  | mul =>
    have := (mulRows_spec s.cfg.W 0 s.inputB s.inputA _
      (bounded_replicate_zero s.cfg.W (s.inputA.length + s.inputB.length))).1
    simpa [effectOf, mulEffect, capR, mulWords] using this
  | div =>
    have := (length_divLoop s.cfg.W s.inputA s.inputB (bitlen s.cfg.W s.inputA)
      (List.replicate s.inputA.length 0, List.replicate (s.inputB.length + 1) 0) List.length_replicate
      List.length_replicate).1
    simpa [effectOf, divEffect, capR, divWords] using this
  | shl k => simp [effectOf, shlEffect, capR]
  | shr k => simp [effectOf, shrEffect, capR]
  | sconv aneg rneg =>
    simp only [effectOf, sconvEffect, capR, sconvBody, List.length_append]
    split <;> simp
  | neg => simp [effectOf, negEffect, capR]
  | clz => rfl
  | isneg => rfl
  | cmplt => rfl
  | norm => rfl

/-- The words at R2 are the whole of the second output region, if the command has one (20_memory R75, R77). -/
theorem length_effect_r2 (i : Instr) (s : State) :
    (effectOf i s).r2.length = (capR2 s.shadow.desc.bLen.toNat i).getD 0 := by
  cases i with
  | div =>
    have := (length_divLoop s.cfg.W s.inputA s.inputB (bitlen s.cfg.W s.inputA)
      (List.replicate s.inputA.length 0, List.replicate (s.inputB.length + 1) 0) List.length_replicate
      List.length_replicate).2
    simpa [effectOf, divEffect, capR2, divWords] using this
  | add => rfl
  | sub => rfl
  | mul => rfl
  | shl k => rfl
  | shr k => rfl
  | sconv aneg rneg => rfl
  | neg => rfl
  | clz => rfl
  | isneg => rfl
  | cmplt => rfl
  | norm => rfl

end Sys2Proof.Machine
end

