-- ==== Sys2Proof/Laws/PerInstr.lean ====
section
/-! SUPPORT. One lemma per command: the word the encoder writes is the one its row of the opcode map selects, `c & mask =
match` (30_encoding R103). -/

namespace Sys2Proof.Laws.RowMatch

/-- The row's match and mask (30_encoding R103). -/
def row : Instr → Reg × Reg
  | .add => (0x00000001, 0xFFFFFFFF)
  | .sub => (0x00000002, 0xFFFFFFFF)
  | .mul => (0x00000003, 0xFFFFFFFF)
  | .div => (0x00000004, 0xFFFFFFFF)
  | .shl _ => (0x00000005, 0xFF00FFFF)
  | .shr _ => (0x00000006, 0xFF00FFFF)
  | .clz => (0x00000007, 0xFFFFFFFF)
  | .sconv _ _ => (0x00000008, 0xFFFFFCFF)
  | .neg => (0x00000009, 0xFFFFFFFF)
  | .isneg => (0x0000000A, 0xFFFFFFFF)
  | .cmplt => (0x0000000B, 0xFFFFFFFF)
  | .norm => (0x0000000C, 0xFFFFFFFF)

/-- The encoded word selects the command's row. -/
def Statement (i : Instr) : Prop := i.wellFormed = true → encode i &&& (row i).2 = (row i).1

theorem add : Statement .add := fun _ => rfl

theorem sub : Statement .sub := fun _ => rfl

theorem mul : Statement .mul := fun _ => rfl

theorem div : Statement .div := fun _ => rfl

theorem shl (shamt : Nat) : Statement (.shl shamt) := by
  intro h
  have hs : shamt < 256 := of_decide_eq_true h
  have all : ∀ k : Fin 256, encode (.shl k.val) &&& 0xFF00FFFF = 0x00000005 := by decide +kernel
  exact all ⟨shamt, hs⟩

theorem shr (shamt : Nat) : Statement (.shr shamt) := by
  intro h
  have hs : shamt < 256 := of_decide_eq_true h
  have all : ∀ k : Fin 256, encode (.shr k.val) &&& 0xFF00FFFF = 0x00000006 := by decide +kernel
  exact all ⟨shamt, hs⟩

theorem clz : Statement .clz := fun _ => rfl

theorem sconv (aneg rneg : Bool) : Statement (.sconv aneg rneg) := by
  cases aneg <;> cases rneg <;> exact fun _ => rfl

theorem neg : Statement .neg := fun _ => rfl

theorem isneg : Statement .isneg := fun _ => rfl

theorem cmplt : Statement .cmplt := fun _ => rfl

theorem norm : Statement .norm := fun _ => rfl

end Sys2Proof.Laws.RowMatch
end

