-- ==== Sys2Proof/Laws/Step.lean ====
section
/-! SUPPORT. What a step can do, said once, and the small lemmas of the ports. -/

namespace Sys2Proof.Machine

/-! ## The register port -/

/-- The index of a named register selects it (10_state R33). -/
@[simp] theorem ofIndex_index (r : RegName) : RegName.ofIndex r.index = some r := by cases r <;> rfl

theorem hostRegRead_index (r : RegName) (s : State) : hostRegRead r.index s = regValue s r := by
  rw [hostRegRead, ofIndex_index]

theorem hostRegWrite_index (r : RegName) (v : Reg) (s : State) : hostRegWrite r.index v s = writeReg v s r := by
  rw [hostRegWrite, ofIndex_index]

/-- A register write is a soft reset, a dropped command, a launch, or changes CTRL.IE, STATUS's two W1C bits or a descriptor
alone (10_state R35). -/
theorem writeReg_cases (v : Reg) (s : State) (r : RegName) :
    (r = .ctrl ∧ v.getLsbD 1 = true ∧ writeReg v s r = softReset s) ∨
      (r = .cmd ∧ s.status.busy = true ∧ writeReg v s r = { s with status := { s.status with ovr := true } }) ∨
      (r = .cmd ∧ s.status.busy = false ∧ writeReg v s r = launch { s with cmd := v }) ∨
      (r = .status ∧ writeReg v s r = acknowledge v s) ∨
      (∃ ie d, writeReg v s r = { s with ie := ie, desc := d }) := by
  cases r with
  | ctrl =>
    by_cases h : v.getLsbD 1 = true
    · exact .inl ⟨rfl, h, if_pos h⟩
    · exact .inr (.inr (.inr (.inr ⟨v.getLsbD 0, s.desc, if_neg h⟩)))
  | cmd =>
    by_cases h : s.status.busy = true
    · exact .inr (.inl ⟨rfl, h, if_pos h⟩)
    · exact .inr (.inr (.inl ⟨rfl, by simpa using h, if_neg h⟩))
  | status => exact .inr (.inr (.inr (.inl ⟨rfl, rfl⟩)))
  | id => exact .inr (.inr (.inr (.inr ⟨s.ie, s.desc, rfl⟩)))
  | aBase => exact .inr (.inr (.inr (.inr ⟨s.ie, _, rfl⟩)))
  | aLen => exact .inr (.inr (.inr (.inr ⟨s.ie, _, rfl⟩)))
  | bBase => exact .inr (.inr (.inr (.inr ⟨s.ie, _, rfl⟩)))
  | bLen => exact .inr (.inr (.inr (.inr ⟨s.ie, _, rfl⟩)))
  | rBase => exact .inr (.inr (.inr (.inr ⟨s.ie, _, rfl⟩)))
  | r2Base => exact .inr (.inr (.inr (.inr ⟨s.ie, _, rfl⟩)))
  | rLen => exact .inr (.inr (.inr (.inr ⟨s.ie, s.desc, rfl⟩)))
  | r2Len => exact .inr (.inr (.inr (.inr ⟨s.ie, s.desc, rfl⟩)))
  | res => exact .inr (.inr (.inr (.inr ⟨s.ie, s.desc, rfl⟩)))

/-! ## The WMEM port -/

/-- What an access does when it goes through: a register access, an access held in phase BUSY, or a word read or written
(10_state R34, R35, 20_memory R72, R73). -/
theorem issue_cases (r : Request) (s t : State) (h : issue r s = .next t) :
    (∃ k, r.access = .regRead k ∧ t = respond r (.reg (hostRegRead k s)) s) ∨
      (∃ k v, r.access = .regWrite k v ∧ t = hostRegWrite k v s) ∨
      (s.status.busy = true ∧ r.IsMemAccess s.cfg ∧ t = { s with held := s.held ++ [r] }) ∨
      (s.status.busy = false ∧ ∃ a, r.access = .memRead a ∧ a < s.cfg.depth ∧
        t = respond r (.word (readWord s.cfg s.wmem a)) s) ∨
      (s.status.busy = false ∧ ∃ a v, r.access = .memWrite a v ∧ a < s.cfg.depth ∧
        t = { s with wmem := writeWord s.cfg s.wmem a v }) := by
  rw [issue] at h
  split at h
  · rename_i k hk
    exact .inl ⟨k, hk, by simpa using h.symm⟩
  · rename_i k v hk
    exact .inr (.inl ⟨k, v, hk, by simpa using h.symm⟩)
  · rename_i a hk
    rw [memAccess] at h
    split at h
    · simp at h
    · rename_i ha
      split at h
      · rename_i hb
        exact .inr (.inr (.inl ⟨hb, .inl ⟨a, hk, by omega⟩, by simpa using h.symm⟩))
      · rename_i hb
        exact .inr (.inr (.inr (.inl ⟨by simpa using hb, a, hk, by omega, by simpa using h.symm⟩)))
  · rename_i a v hk
    rw [memAccess] at h
    split at h
    · simp at h
    · rename_i ha
      split at h
      · rename_i hb
        exact .inr (.inr (.inl ⟨hb, .inr ⟨a, v, hk, by omega⟩, by simpa using h.symm⟩))
      · rename_i hb
        exact .inr (.inr (.inr (.inr ⟨by simpa using hb, a, v, hk, by omega, by simpa using h.symm⟩)))

/-- A held access to a word of WMEM goes through in phase IDLE, whatever else is held, and changes the port's answer or WMEM
alone (20_memory R72, R73). -/
theorem issue_of_isMemAccess (r : Request) (s : State) (hb : s.status.busy = false) (hm : r.IsMemAccess s.cfg) :
    ∃ data mem, ∀ l : List Request,
      issue r { s with held := l } = .next { s with held := l, readData := data, wmem := mem } := by
  rcases hm with ⟨a, ha, hl⟩ | ⟨a, v, ha, hl⟩
  · refine ⟨(respond r (.word (readWord s.cfg s.wmem a)) s).readData, s.wmem, fun l => ?_⟩
    simp only [issue, ha, memAccess, Nat.not_le.2 hl, hb]
    rfl
  · refine ⟨s.readData, writeWord s.cfg s.wmem a v, fun l => ?_⟩
    simp only [issue, ha, memAccess, Nat.not_le.2 hl, hb]
    rfl

@[simp] theorem performInOrder_nil (s : State) : performInOrder [] s = .next s := rfl

theorem performInOrder_cons (r : Request) (rest : List Request) (s t : State) (h : issue r s = .next t) :
    performInOrder (r :: rest) s = performInOrder rest t := by rw [performInOrder, h]

/-! ## The byte bus -/

theorem getD_toBytes (n v i : Nat) (h : i < n) : ((toBytes n v).getD i 0).toNat = v / 2 ^ (8 * i) % 256 := by
  induction n generalizing v i with
  | zero => omega
  | succ n ih =>
    cases i with
    | zero => simp [toBytes]
    | succ i =>
      rw [toBytes, List.getD_cons_succ, ih _ _ (by omega), Nat.div_div_eq_div_mul, show 8 * (i + 1) = 8 + 8 * i by ring,
        pow_add]
      rfl

theorem littleEndian_toBytes (n v : Nat) : LittleEndian (toBytes n v) n v :=
  ⟨length_toBytes n v, fun i h => getD_toBytes n v i h⟩

/-- The register window's slots (20_memory R81). -/
theorem busSlot_reg (c : Config) (k : BitVec 4) : busSlot c (c.regBase + 4 * k.toNat) 4 = some (.reg k) := by
  have hk := k.isLt
  rw [busSlot, if_pos (by omega), if_pos (by omega)]
  congr 2
  apply BitVec.eq_of_toNat_eq
  simp

/-- The WMEM window's slots, where the windows do not overlap (20_memory R81). -/
theorem busSlot_word (c : Config) (a : Nat) (ha : a < c.depth)
    (apart : c.regBase + 64 ≤ c.wmemBase ∨ c.wmemBase + c.depth * c.bytesPerWord ≤ c.regBase) :
    busSlot c (c.wmemBase + a * c.bytesPerWord) c.bytesPerWord = some (.word a) := by
  have hp := c.bytesPerWord_pos
  have hlast : (a + 1) * c.bytesPerWord ≤ c.depth * c.bytesPerWord := Nat.mul_le_mul_right _ ha
  rw [Nat.add_mul] at hlast
  rw [busSlot, if_neg (by omega), if_pos (by omega), Nat.add_sub_cancel_left, if_pos ⟨rfl, by simp⟩,
    Nat.mul_div_cancel _ hp]

/-- An access without a slot is none at the ports (20_memory R81). -/
theorem busToPort_of_no_slot (c : Config) (b : BusAccess) (addr size : Nat) (hb : b.IsAt addr size)
    (h : busSlot c addr size = none) : busToPort c b = none := by
  rcases hb with rfl | ⟨data, rfl, rfl⟩ <;> simp [busToPort, h]

/-! ## The turns -/

/-- The completion step ends as R248 says: an illegal word in an error, a command in its own completion. -/
theorem completionStep_cases (s : State) :
    (∃ e, decode s.shadow.cmd = .error e ∧ completionStep s = .next (errorCompletion .illegal s)) ∨
      (∃ i, decode s.shadow.cmd = .ok i ∧ completionStep s = exec i s) := by
  rw [completionStep]
  cases h : decode s.shadow.cmd with
  | error e => exact .inl ⟨e, rfl, rfl⟩
  | ok i => exact .inr ⟨i, rfl, rfl⟩

/-- A completion step leaves a success or an error completion, never anything else. -/
theorem completionStep_next (s t : State) (h : completionStep s = .next t) :
    (∃ i, decode s.shadow.cmd = .ok i ∧ check i s = .noError ∧ t = finish (effectOf i s) s) ∨
      (∃ e, e ≠ .noError ∧ t = errorCompletion e s) := by
  rcases completionStep_cases s with ⟨e, _, he⟩ | ⟨i, hi, he⟩
  · exact .inr ⟨.illegal, by decide, by simpa [he] using h.symm⟩
  · rcases exec_cases i s with ⟨hc, hx⟩ | ⟨hc, hx⟩
    · exact .inl ⟨i, hi, hc, by simpa [he, hx] using h.symm⟩
    · exact .inr ⟨check i s, hc, by simpa [he, hx] using h.symm⟩

theorem completionStep_answers (s : State) : ∃ t, completionStep s = .next t := by
  rcases completionStep_cases s with ⟨e, _, he⟩ | ⟨i, _, he⟩
  · exact ⟨_, he⟩
  · rcases exec_cases i s with ⟨_, hx⟩ | ⟨_, hx⟩
    · exact ⟨_, he.trans hx⟩
    · exact ⟨_, he.trans hx⟩

/-- What every completion step leaves, and what it does not touch. -/
theorem completionStep_frame (s t : State) (h : completionStep s = .next t) :
    t.status.busy = false ∧ t.status.done = true ∧ t.cfg = s.cfg ∧ t.ie = s.ie ∧ t.held = s.held ∧
      t.resetIn = s.resetIn ∧ t.inputs = s.inputs := by
  rcases completionStep_next s t h with ⟨i, _, _, rfl⟩ | ⟨e, _, rfl⟩ <;> exact ⟨rfl, rfl, rfl, rfl, rfl, rfl, rfl⟩

theorem wf_completionStep (s t : State) (h : completionStep s = .next t) (hw : s.wmem.wf) : t.wmem.wf := by
  rcases completionStep_next s t h with ⟨i, _, _, rfl⟩ | ⟨e, _, rfl⟩
  · exact wf_writeArray _ _ _ _ (wf_writeArray _ _ _ _ hw)
  · exact hw

/-- Inputs are taken while nothing is held and while a command is in flight (20_memory R73). -/
theorem step_eq_inputTurn (s : State) (h : s.held = [] ∨ s.status.busy = true) : step s = inputTurn s := by
  rw [step, takeTurn]
  split
  · rcases h with h | h <;> simp_all
  · rfl

/-- What a step from `s` that goes through can have done: idled; completed the command in flight; performed a held access;
made an access of a master; moved the reset input. `rest` is what is left of the inputs, or of the held accesses. -/
inductive Move (s t : State) : Prop where
  | idle (rest : List Input) (busy : s.status.busy = false) (ht : t = { s with inputs := rest })
  | complete (rest : List Input) (busy : s.status.busy = true) (ht : completionStep { s with inputs := rest } = .next t)
  | unhold (r : Request) (rest : List Request) (hheld : s.held = r :: rest) (busy : s.status.busy = false)
      (noReset : s.resetIn = false) (ht : issue r { s with held := rest } = .next t)
  | access (r : Request) (rest : List Input) (free : s.isHeld r.master = false) (noReset : s.resetIn = false)
      (ht : issue r { s with inputs := rest } = .next t)
  | assertReset (rest : List Input) (ht : t = Machine.assertReset { s with inputs := rest })
  | releaseReset (rest : List Input) (ht : t = { s with inputs := rest, resetIn := false })

theorem coreTurn_move (s t : State) (rest : List Input) (h : coreTurn { s with inputs := rest } = .next t) : Move s t := by
  by_cases hb : s.status.busy = true
  · exact .complete rest hb (by simpa [coreTurn, hb] using h)
  · exact .idle rest (by simpa using hb) (by simpa [coreTurn, hb] using h.symm)

theorem hostTurn_move (master : Nat) (acc : Option Access) (asBytes : Bool) (rest : List Input) (s t : State)
    (h : hostTurn master acc asBytes rest s = .next t) : Move s t := by
  simp only [hostTurn] at h
  split at h
  · simp at h
  · rename_i hr
    split at h
    · exact coreTurn_move s t s.inputs h
    · rename_i hm
      split at h
      · simp at h
      · rename_i a
        exact .access ⟨master, a, asBytes⟩ rest (by simpa using hm) (by simpa using hr) h

theorem inputTurn_move (s t : State) (h : inputTurn s = .next t) : Move s t := by
  simp only [inputTurn] at h
  split at h
  · exact coreTurn_move s t s.inputs h
  · exact coreTurn_move s t _ h
  · exact .assertReset _ (by simpa using h.symm)
  · exact .releaseReset _ (by simpa using h.symm)
  · exact hostTurn_move _ _ _ _ s t h
  · exact hostTurn_move _ _ _ _ s t h

/-- Every step that goes through is one of the moves. -/
theorem step_move (s t : State) (h : step s = .next t) : Move s t := by
  rw [step, takeTurn] at h
  split at h
  · rename_i r rest hheld
    split at h
    · exact inputTurn_move s t h
    · rename_i hb
      simp only [Bool.or_eq_true, not_or, Bool.not_eq_true] at hb
      exact .unhold r rest hheld hb.1 hb.2 h
  · exact inputTurn_move s t h

/-! ## Draws (log 10) -/

theorem wf_drawBytes (d : Nat) (m : Memory) (a n : Nat) (h : m.wf) : (drawBytes d m a n).wf := by
  induction n with
  | zero => exact h
  | succ n ih => exact Memory.wf_write _ _ _ ih

theorem read_drawBytes_outside (d : Nat) (m : Memory) (a n b : Nat) (h : m.wf) (hb : b < a ∨ a + n ≤ b) :
    (drawBytes d m a n).read b = m.read b := by
  induction n with
  | zero => rfl
  | succ n ih =>
    rw [drawBytes, Memory.read_write _ _ _ (wf_drawBytes d m a n h), if_neg (by omega), ih (by omega)]

theorem within_drawBytes (c : Config) (d : Nat) (m : Memory) (a n : Nat) (h : Memory.within c m)
    (ha : a + n ≤ c.depth * c.bytesPerWord) : Memory.within c (drawBytes d m a n) := by
  induction n with
  | zero => exact h
  | succ n ih => exact within_write c _ _ _ (ih (by omega)) (by omega)

theorem wf_drawRegion (c : Config) (d : Nat) (m : Memory) (r : Region) (h : m.wf) : (drawRegion c d m r).wf :=
  wf_drawBytes _ _ _ _ h

theorem within_drawRegion (c : Config) (d : Nat) (m : Memory) (r : Region) (h : Memory.within c m) :
    Memory.within c (drawRegion c d m r) := by
  apply within_drawBytes _ _ _ _ _ h
  rw [← Nat.add_mul]
  exact Nat.mul_le_mul_right _ (by omega)

/-- Every byte of a word outside the region keeps its value (70_reset R272). -/
theorem read_drawRegion_outside (c : Config) (d : Nat) (m : Memory) (r : Region) (b : Nat) (h : m.wf)
    (hb : b < r.base * c.bytesPerWord ∨ (r.base + r.len) * c.bytesPerWord ≤ b) :
    (drawRegion c d m r).read b = m.read b := by
  by_cases hlt : r.base < c.depth
  · apply read_drawBytes_outside _ _ _ _ _ h
    rw [← Nat.add_mul, Nat.min_eq_left (Nat.le_of_lt hlt)]
    rcases hb with hb | hb
    · exact .inl hb
    · refine .inr (Nat.le_trans (Nat.mul_le_mul_right _ ?_) hb)
      omega
  · have e1 : min r.base c.depth = c.depth := by omega
    have e2 : min (r.base + r.len) c.depth = c.depth := by omega
    simp [drawRegion, e1, e2, drawBytes]

end Sys2Proof.Machine
end

