-- ==== Sys2Proof/Tests/Slice0.lean ====
section
/-! SUPPORT. The model's own tests: each a step or a decoding whose outcome the spec gives (95_test_vectors, or the rule named),
and, for every statement that has hypotheses, concrete values that meet them. -/

namespace Sys2Proof.Tests

open Sys2Proof.Machine

/-! ## Helpers -/

/-- The outcome is a next state of which `p` holds. -/
def nextAnd (o : Host.Outcome State Fault Refusal) (p : State → Bool) : Bool :=
  match o with
  | .next t => p t
  | .fault _ => false
  | .refused _ => false

theorem nextAnd_next (o : Host.Outcome State Fault Refusal) (p : State → Bool) (h : nextAnd o p = true) :
    ∃ t, o = .next t ∧ p t = true := by
  cases o with
  | next t => exact ⟨t, rfl, h⟩
  | fault r => cases h
  | refused r => cases h

/-- Phase IDLE in the reference configuration, arrays placed in WMEM, and 0x55 in the result registers, so that a command that
leaves one alone shows it (95_test_vectors section 4). -/
def loaded (d : Descriptors) (arrays : List (Nat × WordArray)) : State :=
  { State.reset with
    desc := d
    rLen := 0x55
    r2Len := 0x55
    res := 0x55
    wmem := arrays.foldl (fun m p => writeArray .reference m p.1 p.2) [] }

/-- The descriptors of 95_test_vectors section 2: A at word 0, B at word `la + 8`, R at word 64, R2 at word 128. -/
def layout (la lb : Nat) : Descriptors := ⟨0, BitVec.ofNat 32 la, BitVec.ofNat 32 (la + 8), BitVec.ofNat 32 lb, 64, 128⟩

/-- A and B placed as in 95_test_vectors section 2. -/
def operands (a b : WordArray) : State := loaded (layout a.length b.length) [(0, a), (a.length + 8, b)]

/-- The step that completes command word `c`. -/
def run (c : Nat) (s : State) : Host.Outcome State Fault Refusal := step (s.withFetchWord 32 c)

/-- STATUS as it reads, and the words from `a` on. -/
def shows (t : State) (status : Nat) (a : Nat) (words : WordArray) : Bool :=
  decide (t.status.value.toNat = status ∧ readArray t.cfg t.wmem a words.length = words)

/-- R_LEN, R2_LEN and RES. -/
def results (t : State) (rLen r2Len res : Nat) : Bool :=
  decide (t.rLen.toNat = rLen ∧ t.r2Len.toNat = r2Len ∧ t.res.toNat = res)

/-- `s` with the word latched and the command in flight. -/
def inFlight (c : Reg) (s : State) : State := launch { s with cmd := c }

def rejects (c : Reg) (e : Rejection) : Bool :=
  match decode c with
  | .ok _ => false
  | .error r => decide (r = e)

def decodesTo (c : Reg) (i : Instr) : Bool :=
  match decode c with
  | .ok j => decide (j = i)
  | .error _ => false

/-! ## Form of commands (WellFormed) -/

/-- A shift amount of more than 8 bits has no encoding (30_encoding R101). -/
theorem test_wellformed_refuses : Instr.wellFormed (.shl 256) = false ∧ Instr.wellFormed (.shr 256) = false := by decide

/-- Every amount up to 255 has one, and so has every other command (44_shift R191). -/
theorem test_wellformed_accepts : Instr.wellFormed (.shl 255) = true ∧ Instr.wellFormed (.shr 255) = true ∧
    Instr.wellFormed (.sconv true true) = true ∧ Instr.wellFormed .norm = true := by decide

/-! ## Decoding: words written out from 30_encoding R101, R103, R108 -/

theorem test_decode_add_sub : decodesTo 0x00000001 .add ∧ decodesTo 0x00000002 .sub := by decide
theorem test_decode_mul_div : decodesTo 0x00000003 .mul ∧ decodesTo 0x00000004 .div := by decide
theorem test_decode_shl : decodesTo 0x003F0005 (.shl 63) ∧ decodesTo 0x00FF0005 (.shl 255) := by decide
theorem test_decode_shr : decodesTo 0x000C0006 (.shr 12) ∧ decodesTo 0x00000006 (.shr 0) := by decide
theorem test_decode_clz : decodesTo 0x00000007 .clz := by decide
theorem test_decode_sconv : decodesTo 0x00000208 (.sconv false true) ∧ decodesTo 0x00000108 (.sconv true false) := by decide
theorem test_decode_neg_isneg : decodesTo 0x00000009 .neg ∧ decodesTo 0x0000000A .isneg := by decide
theorem test_decode_cmplt_norm : decodesTo 0x0000000B .cmplt ∧ decodesTo 0x0000000C .norm := by decide

/-- 95_test_vectors section 4, the ILLEGAL rows. -/
theorem test_decode_rejects : rejects 0x00000000 .reservedOp ∧ rejects 0x0000000D .reservedOp ∧
    rejects 0x0000001F .reservedOp ∧ rejects 0x00000021 .reservedBits ∧ rejects 0x00000401 .reservedBits ∧
    rejects 0x01000001 .reservedBits ∧ rejects 0x00000101 .signNotTaken ∧ rejects 0x00000209 .signNotTaken ∧
    rejects 0x00010001 .shamtNotTaken := by decide

theorem test_decodeTableWord : decodeTableWord 32 0x003F0005 = some (.shl 63) ∧ decodeTableWord 32 0x0D = none := by decide

/-! ## One step of each command: rows of 95_test_vectors sections 2 and 4 -/

theorem test_add_carry : nextAnd (run 0x01 (operands [0xFFFFFFFFFFFFFFFF, 0xFFFFFFFFFFFFFFFF] [1]))
    (fun t => shows t 0x0A 64 [0, 0, 1] && results t 3 0x55 0x55) = true := by decide

theorem test_add_shorter_lhs : nextAnd (run 0x01 (operands [5] [0xFFFFFFFFFFFFFFFF, 1]))
    (fun t => shows t 0x02 64 [4, 2, 0] && results t 2 0x55 0x55) = true := by decide

theorem test_sub_borrow : nextAnd (run 0x02 (operands [0, 0, 1] [1]))
    (fun t => shows t 0x02 64 [0xFFFFFFFFFFFFFFFF, 0xFFFFFFFFFFFFFFFF, 0] && results t 2 0x55 0x55) = true := by
  decide

theorem test_sub_underflow : nextAnd (run 0x02 (operands [0, 1] [1, 1]))
    (fun t => shows t 0x806 64 [0, 0] && results t 0x55 0x55 0x55) = true := by decide

theorem test_mul_cascade :
    nextAnd (run 0x03 (operands [0xFFFFFFFFFFFFFFFF, 0xFFFFFFFFFFFFFFFF] [0xFFFFFFFFFFFFFFFF, 0xFFFFFFFFFFFFFFFF]))
      (fun t => shows t 0x02 64 [1, 0, 0xFFFFFFFFFFFFFFFE, 0xFFFFFFFFFFFFFFFF] && results t 4 0x55 0x55) = true := by
  decide

theorem test_mul_zero : nextAnd (run 0x03 (operands [0] [0xFFFFFFFFFFFFFFFF, 0xFFFFFFFFFFFFFFFF]))
    (fun t => shows t 0x02 64 [0, 0, 0] && results t 1 0x55 0x55) = true := by decide

theorem test_div : nextAnd (run 0x04 (operands [1, 2, 3] [4, 5]))
    (fun t => shows t 0x02 64 [0x9999999999999999, 0, 0] && shows t 0x02 128 [0x999999999999999D, 2, 0] &&
      results t 1 2 0x55) = true := by decide +kernel

theorem test_div_by_zero : nextAnd (run 0x04 (operands [100] [0]))
    (fun t => shows t 0x706 64 [0] && results t 0x55 0x55 0x55) = true := by decide

theorem test_shl_in_place : nextAnd (run 0x00080005 (loaded ⟨0, 1, 0, 0, 0, 0⟩ [(0, [0x123456789ABCDEF])]))
    (fun t => shows t 0x0A 0 [0x23456789ABCDEF00, 1] && results t 2 0x55 0x55) = true := by decide

theorem test_shl_too_far : nextAnd (run 0x00400005 (operands [1] []))
    (fun t => shows t 0x206 64 [0, 0] && results t 0x55 0x55 0x55) = true := by decide

theorem test_shr_in_place :
    nextAnd (run 0x000C0006 (loaded ⟨0, 2, 0, 0, 0, 0⟩ [(0, [0x123456789ABCDEF, 0xFEDCBA9876543210])]))
      (fun t => shows t 0x02 0 [0x2100123456789ABC, 0xFEDCBA9876543] && results t 2 0x55 0x55) = true := by decide

theorem test_shr_by_zero : nextAnd (run 0x00000006 (operands [5] []))
    (fun t => shows t 0x02 64 [5] && results t 1 0x55 0x55) = true := by decide

theorem test_clz_top_word : nextAnd (run 0x07 (operands [5, 16] []))
    (fun t => shows t 0x02 64 [0] && results t 0x55 0x55 59) = true := by decide

theorem test_clz_zero : nextAnd (run 0x07 (operands [7, 0] []))
    (fun t => shows t 0x0A 0 [7, 0] && results t 0x55 0x55 64) = true := by decide

theorem test_sconv_guard : nextAnd (run 0x208 (operands [1, 0x8000000000000000] []))
    (fun t => shows t 0x0A 64 [0xFFFFFFFFFFFFFFFF, 0x7FFFFFFFFFFFFFFF, 0xFFFFFFFFFFFFFFFF] && results t 3 0x55 0x55) =
      true := by decide

theorem test_sconv_back : nextAnd (run 0x108 (operands [0xFFFFFFFFFFFFFFFB] []))
    (fun t => shows t 0x02 64 [5, 0] && results t 1 0x55 0x55) = true := by decide

theorem test_neg_raw_length : nextAnd (run 0x09 (operands [1, 0] []))
    (fun t => shows t 0x02 64 [0xFFFFFFFFFFFFFFFF, 0xFFFFFFFFFFFFFFFF] && results t 2 0x55 0x55) = true := by decide

theorem test_neg_zero : nextAnd (run 0x09 (operands [0] []))
    (fun t => shows t 0x0A 64 [0] && results t 1 0x55 0x55) = true := by decide

theorem test_isneg_top_word : nextAnd (run 0x0A (operands [0, 0x8000000000000000] []))
    (fun t => shows t 0x0A 64 [0] && results t 0x55 0x55 1) = true := by decide

theorem test_isneg_guarded : nextAnd (run 0x0A (operands [0x8000000000000000, 0] []))
    (fun t => shows t 0x02 64 [0] && results t 0x55 0x55 0) = true := by decide

theorem test_cmplt_first_mismatch : nextAnd (run 0x0B (operands [3, 5] [4, 5]))
    (fun t => shows t 0x0A 64 [0] && results t 0x55 0x55 1) = true := by decide

theorem test_cmplt_longer_lhs : nextAnd (run 0x0B (operands [0, 1] [0xFFFFFFFFFFFFFFFF]))
    (fun t => shows t 0x02 64 [0] && results t 0x55 0x55 0) = true := by decide

theorem test_norm_middle : nextAnd (run 0x0C (operands [0, 0, 0x8000000000000000, 0] []))
    (fun t => shows t 0x02 0 [0, 0, 0x8000000000000000, 0] && results t 3 0x55 0x55) = true := by decide

theorem test_norm_zero : nextAnd (run 0x0C (operands [0, 0, 0] []))
    (fun t => shows t 0x0A 0 [0, 0, 0] && results t 1 0x55 0x55) = true := by decide

/-! ## Checks (95_test_vectors section 4) -/

theorem test_illegal_before_len : nextAnd (run 0x101 (loaded ⟨0, 0, 8, 1, 16, 32⟩ []))
    (fun t => shows t 0x106 16 [0]) = true := by decide

theorem test_no_wrap_of_addresses : nextAnd (run 0x07 (loaded ⟨0xFFFFFFFF, 2, 8, 1, 16, 32⟩ []))
    (fun t => shows t 0x406 16 [0]) = true := by decide

theorem test_last_word_in_range : nextAnd (run 0x07 (loaded ⟨0x3FF, 1, 8, 1, 16, 32⟩ [(1023, [9])]))
    (fun t => shows t 0x02 16 [0] && results t 0x55 0x55 60) = true := by decide

/-! ## Host accesses -/

/-- ID at W = 8 and AW = 4 (95_test_vectors section 2.8). -/
theorem test_id_small : idValue ⟨.w8, 3, 0, 64⟩ = 0xB5010408 := by decide

/-- A CMD write over the byte bus launches; `ack` clears DONE and OVR (30_encoding R110). -/
theorem test_bus_launch : nextAnd (step { State.reset with inputs := [.bus 0 (.write 0x1000C [0x07, 0, 0, 0])] })
    (fun t => decide (t.status.value = 0x01 ∧ t.shadow.cmd = 0x07)) = true := by decide

theorem test_ack : hostRegRead 2 (hostRegWrite 2 0x12 { State.reset with status := ⟨false, true, false, true, true, .noError⟩ }) =
    0x08 := by decide

/-- The third byte of word 1 on the byte bus is bits 23 to 16 of the word (20_memory R79). -/
theorem test_bus_byte_order : nextAnd
    (step { loaded (layout 1 1) [(1, [0x0807060504030201])] with inputs := [.bus 0 (.read 0x20008 8)] })
    (fun t => decide (t.readData = some ⟨0, .bytes [1, 2, 3, 4, 5, 6, 7, 8]⟩)) = true := by decide

/-! ## Values that meet the hypotheses of the statements -/

/-- Two operands in WMEM and the command in flight: A of two words, B of one. -/
def two (c : Reg) : State := inFlight c (operands [0xFFFFFFFFFFFFFFFF, 0xFFFFFFFFFFFFFFFF] [1])

/-- The same A, with R in place. -/
def inPlace (c : Reg) : State :=
  inFlight c (loaded ⟨0, 2, 0, 0, 0, 0⟩ [(0, [0xFFFFFFFFFFFFFFFF, 0xFFFFFFFFFFFFFFFF])])

theorem apart_of_before (r q : Region) (h : r.base + r.len ≤ q.base ∨ q.base + q.len ≤ r.base) : r.Apart q := by
  rintro x ⟨⟨h1, h2⟩, h3, h4⟩
  omega

theorem two_wf (c : Reg) : (two c).wmem.wf := by
  change Memory.wf (two 0).wmem
  decide

theorem two_inputs (c : Reg) : (two c).TwoInputs := by
  change (two 0).TwoInputs
  refine ⟨⟨by decide, ?_⟩, ⟨by decide, ?_⟩, .inr ?_, .inl ?_⟩
  · change _ ≤ _
    decide
  · change _ ≤ _
    decide
  · decide
  · decide

theorem two_inputs_one_output (c : Reg) (n : Nat) (hn : n ≤ 3) : (two c).TwoInputsOneOutput n := by
  refine ⟨two_inputs c, ⟨?_, ?_⟩, ?_⟩
  · change 64 + n ≤ 1024
    omega
  · exact apart_of_before _ _ (.inr (by change 0 + 2 ≤ 64; omega))
  · exact apart_of_before _ _ (.inr (by change 10 + 1 ≤ 64; omega))

theorem witness_AddStoresExactSum : (two 0x01).wmem.wf ∧ (two 0x01).TwoInputsOneOutput (max (two 0x01).la (two 0x01).lb + 1) ∧
    (two 0x01).valA + (two 0x01).valB ≠ 0 :=
  ⟨two_wf _, two_inputs_one_output _ _ (by decide), by decide⟩

theorem witness_SubStoresExactDifference : (two 0x02).wmem.wf ∧ (two 0x02).TwoInputsOneOutput (two 0x02).la ∧
    (two 0x02).valB ≤ (two 0x02).valA :=
  ⟨two_wf _, two_inputs_one_output _ _ (by decide), by decide⟩

theorem witness_MulStoresExactProduct : (two 0x03).wmem.wf ∧ (two 0x03).TwoInputsOneOutput ((two 0x03).la + (two 0x03).lb) ∧
    (two 0x03).valA * (two 0x03).valB ≠ 0 :=
  ⟨two_wf _, two_inputs_one_output _ _ (by decide), by decide⟩

theorem witness_DivStoresQuotientAndRemainder : (two 0x04).wmem.wf ∧
    (two 0x04).TwoInputsTwoOutputs (two 0x04).la ((two 0x04).lb + 1) ∧ (two 0x04).valB ≠ 0 := by
  refine ⟨two_wf _, ⟨two_inputs_one_output _ _ (by decide), ⟨?_, ?_⟩, ?_, ?_⟩, by decide⟩
  · change 128 + 2 ≤ 1024
    omega
  · exact apart_of_before _ _ (.inr (by decide))
  · exact apart_of_before _ _ (.inr (by decide))
  · exact apart_of_before _ _ (.inl (by decide))

/-- The smallest and the largest legal amount, in place. -/
theorem witness_ShlStoresExactProduct : (inPlace 0x05).wmem.wf ∧ (inPlace 0x05).ShiftInputs 0 ((inPlace 0x05).la + 1) ∧
    (inPlace 0x05).ShiftInputs 63 ((inPlace 0x05).la + 1) := by
  refine ⟨by decide, ⟨by decide, ⟨by decide, ?_⟩, .inr (by decide), ?_, .inr rfl⟩,
    ⟨by decide, ⟨by decide, ?_⟩, .inr (by decide), ?_, .inr rfl⟩⟩ <;> (change _ ≤ _; decide)

theorem witness_ShrStoresFloor : (two 0x06).wmem.wf ∧ (two 0x06).ShiftInputs 0 (two 0x06).la ∧
    (two 0x06).ShiftInputs 63 (two 0x06).la ∧ 2 ^ 63 ≤ (two 0x06).valA := by
  refine ⟨two_wf _, ⟨by decide, ⟨by decide, ?_⟩, .inr (by decide), ?_, .inl (apart_of_before _ _ (.inr (by decide)))⟩,
    ⟨by decide, ⟨by decide, ?_⟩, .inr (by decide), ?_, .inl (apart_of_before _ _ (.inr (by decide)))⟩,
    by decide⟩ <;> (change _ ≤ _; decide)

/-- One word, 0 and the largest: both clauses of CLZ's statement. -/
def oneWord (c : Reg) (x : Nat) : State := inFlight c (operands [x] [])

theorem oneWord_usable (c : Reg) (x : Nat) : (oneWord c x).UsableA := by
  refine ⟨?_, ?_⟩
  · change 0 < 1
    omega
  · change 0 + 1 ≤ 1024
    omega

theorem witness_ClzCountsTopWord : (oneWord 0x07 0).UsableA ∧
    readWord (oneWord 0x07 0).cfg (oneWord 0x07 0).wmem
      ((oneWord 0x07 0).shadow.desc.aBase.toNat + (oneWord 0x07 0).la - 1) = 0 ∧
    (oneWord 0x07 1).UsableA ∧
    readWord (oneWord 0x07 1).cfg (oneWord 0x07 1).wmem
      ((oneWord 0x07 1).shadow.desc.aBase.toNat + (oneWord 0x07 1).la - 1) ≠ 0 :=
  ⟨oneWord_usable _ _, by decide, oneWord_usable _ _, by decide⟩

theorem witness_SconvStoresSignedArray : (oneWord 0x208 0x8000000000000000).wmem.wf ∧
    (oneWord 0x208 0x8000000000000000).UsableA ∧
    (oneWord 0x208 0x8000000000000000).ClearOfA ⟨(oneWord 0x208 0x8000000000000000).rAddr, 2⟩ := by
  refine ⟨by decide, oneWord_usable _ _, ?_, apart_of_before _ _ (.inr (by decide))⟩
  change 64 + 2 ≤ 1024
  omega

theorem witness_NegStoresTwosComplement : (inPlace 0x09).wmem.wf ∧ (inPlace 0x09).UsableA ∧
    (inPlace 0x09).ClearOrInPlace ⟨(inPlace 0x09).rAddr, (inPlace 0x09).la⟩ := by
  refine ⟨by decide, ⟨by decide, ?_⟩, ?_, .inr rfl⟩ <;> (change _ ≤ _; decide)

theorem witness_IsnegReportsSign : (oneWord 0x0A 0x8000000000000000).UsableA := oneWord_usable _ _

theorem witness_CmpltComparesValues : (two 0x0B).TwoInputs := two_inputs _

theorem witness_NormReportsLength : (oneWord 0x0C 0).UsableA ∧ (oneWord 0x0C 0).valA = 0 :=
  ⟨oneWord_usable _ _, by decide⟩

/-! ### Encoding and steps -/

theorem witness_EncodedCommandDecodesBack : Instr.wellFormed (.shl 255) = true ∧ Instr.wellFormed (.shl 0) = true := by decide

theorem witness_DecodedWordIsItsEncoding : decode 0x00FF0006 = .ok (.shr 255) := by decide

/-- One word for each way to be illegal, and a state with one in flight. -/
theorem witness_IllegalWordEndsInErrorIllegal : IllegalWord 0x00000020 ∧ IllegalWord 0x00000000 ∧ IllegalWord 0x0000001F ∧
    IllegalWord 0x00010001 ∧ IllegalWord 0x00000209 ∧ IllegalWord (two 0x0D).shadow.cmd := by
  refine ⟨.inl (.inr (.inr (by decide))), .inr (.inl (.inl (by decide))), .inr (.inl (.inr (by decide))),
    .inr (.inr (.inl (by decide))), .inr (.inr (.inr (by decide))), .inr (.inl (.inr (by decide)))⟩

/-- The three ways the core gets its turn. -/
theorem witness_StepRunsDecodedCommand : (two 0x01).status.busy = true ∧ decode (two 0x01).shadow.cmd = .ok .add ∧
    (two 0x01).inputs = [] ∧
    { two 0x01 with inputs := [.core] }.inputs = .core :: [] ∧
    (let s := { two 0x01 with held := [⟨1, .memRead 64, false⟩], inputs := [.host 1 (.memRead 65)] }
     s.status.busy = true ∧ s.resetIn = false ∧ s.isHeld 1 = true) ∧
    (let s := { two 0x01 with held := [⟨1, .memRead 64, true⟩], inputs := [.bus 1 (.read 0x20000 8)] }
     s.status.busy = true ∧ s.resetIn = false ∧ s.isHeld 1 = true) := by decide

theorem witness_FetchedWordRunsNext : decode (BitVec.ofNat 32 0x00FF0005) = .ok (.shl 255) ∧ 0x00FF0005 < 2 ^ 32 := by decide

theorem witness_StepMakesHostAccess :
    (let s := { State.reset with inputs := [.host 0 (.memRead 1023)] }
     s.resetIn = false ∧ s.isHeld 0 = false ∧ s.held = []) ∧
    (let s := { two 0x01 with held := [⟨1, .memRead 64, false⟩], inputs := [.host 0 (.regRead 2)] }
     s.resetIn = false ∧ s.isHeld 0 = false ∧ s.status.busy = true) ∧
    (let s := { two 0x01 with inputs := [.host 0 (.regWrite 15 0xFFFFFFFF)] }
     s.resetIn = false ∧ s.isHeld 0 = false ∧ s.status.busy = true) := by decide

theorem witness_AccessDuringResetIsRefused : { State.reset with resetIn := true }.resetIn = true := rfl

/-! ### The checks, each the first that fails -/

/-- A command in flight on the descriptors of 95_test_vectors section 4, with WMEM all zero but word 0. -/
def checked (c : Reg) (d : Descriptors) (a : WordArray) : State := inFlight c (loaded d [(0, a)])

theorem not_badShift_add (s : State) : ¬ BadShift .add s := by
  rintro ⟨k, h | h, _⟩ <;> cases h

theorem witness_bad_shift : decode (checked 0x00400005 ⟨0, 1, 8, 1, 16, 32⟩ [5]).shadow.cmd = .ok (.shl 64) ∧
    BadShift (.shl 64) (checked 0x00400005 ⟨0, 1, 8, 1, 16, 32⟩ [5]) :=
  ⟨by decide, 64, .inl rfl, by decide⟩

theorem witness_bad_len : decode (checked 0x01 ⟨0, 1, 8, 0, 16, 32⟩ [5]).shadow.cmd = .ok .add ∧
    ¬ BadShift .add (checked 0x01 ⟨0, 1, 8, 0, 16, 32⟩ [5]) ∧ BadLen .add (checked 0x01 ⟨0, 1, 8, 0, 16, 32⟩ [5]) :=
  ⟨by decide, not_badShift_add _, .inr ⟨rfl, by decide⟩⟩

/-- R ends one word above WMEM. -/
theorem witness_bad_range : decode (checked 0x01 ⟨0, 1, 8, 1, 0x3FF, 32⟩ [5]).shadow.cmd = .ok .add ∧
    ¬ BadShift .add (checked 0x01 ⟨0, 1, 8, 1, 0x3FF, 32⟩ [5]) ∧ ¬ BadLen .add (checked 0x01 ⟨0, 1, 8, 1, 0x3FF, 32⟩ [5]) ∧
    BadRange .add (checked 0x01 ⟨0, 1, 8, 1, 0x3FF, 32⟩ [5]) := by
  refine ⟨by decide, not_badShift_add _, ?_, ⟨0x3FF, 2⟩, by decide, ?_⟩
  · rintro (h | ⟨_, h⟩) <;> revert h <;> decide
  · change ¬ (_ ≤ _)
    decide

theorem not_badRange (i : Instr) (s : State)
    (h : (inputRegions i s.shadow.desc ++ outputRegions i s.shadow.desc).all (fun r => decide (r.base + r.len ≤ s.cfg.depth)) = true) :
    ¬ BadRange i s := by
  rintro ⟨r, hr, hn⟩
  have hfit := List.all_eq_true.1 h r hr
  exact hn (by simpa [Region.Fits] using hfit)

/-- R starts where A starts, which ADD does not admit. -/
theorem witness_bad_placement : decode (checked 0x01 ⟨0, 1, 8, 1, 0, 32⟩ [5]).shadow.cmd = .ok .add ∧
    ¬ BadShift .add (checked 0x01 ⟨0, 1, 8, 1, 0, 32⟩ [5]) ∧ ¬ BadLen .add (checked 0x01 ⟨0, 1, 8, 1, 0, 32⟩ [5]) ∧
    ¬ BadRange .add (checked 0x01 ⟨0, 1, 8, 1, 0, 32⟩ [5]) ∧ BadPlacement .add (checked 0x01 ⟨0, 1, 8, 1, 0, 32⟩ [5]) := by
  refine ⟨by decide, not_badShift_add _, ?_, not_badRange _ _ (by decide), .inl ⟨⟨0, 2⟩, by decide, .inr ⟨?_, ?_⟩⟩⟩
  · rintro (h | ⟨_, h⟩) <;> revert h <;> decide
  · exact fun h => h 0 ⟨⟨by decide, by decide⟩, by decide, by decide⟩
  · rintro ⟨h, _⟩
    cases h

/-- The placement of ADD on the base descriptors is legal, whatever the lengths 1 to 2 of A. -/
theorem not_badPlacement_add (n : Fin 3) (a : WordArray) :
    ¬ BadPlacement .add (checked 0x01 ⟨0, BitVec.ofNat 32 n.val, 8, 1, 16, 32⟩ a) := by
  have hreg : ∀ n : Fin 3, ∀ o ∈ outputRegions .add ⟨0, BitVec.ofNat 32 n.val, 8, 1, 16, 32⟩, o.base = 16 := by decide
  have hone : ∀ n : Fin 3, (regionA ⟨0, BitVec.ofNat 32 n.val, 8, 1, 16, 32⟩).base +
    (regionA ⟨0, BitVec.ofNat 32 n.val, 8, 1, 16, 32⟩).len ≤ 16 := by decide
  rintro (⟨o, ho, h⟩ | ⟨r, _, r2, h, _⟩)
  · have hb := hreg n o ho
    rcases h with ⟨_, h⟩ | ⟨h, _⟩
    · exact h (apart_of_before _ _ (.inr (by rw [hb]; change 8 + 1 ≤ 16; omega)))
    · exact h (apart_of_before _ _ (.inr (by rw [hb]; exact hone n)))
  · cases h

theorem witness_bad_norm : decode (checked 0x01 ⟨0, 2, 8, 1, 16, 32⟩ [5, 0]).shadow.cmd = .ok .add ∧
    ¬ BadShift .add (checked 0x01 ⟨0, 2, 8, 1, 16, 32⟩ [5, 0]) ∧ ¬ BadLen .add (checked 0x01 ⟨0, 2, 8, 1, 16, 32⟩ [5, 0]) ∧
    ¬ BadRange .add (checked 0x01 ⟨0, 2, 8, 1, 16, 32⟩ [5, 0]) ∧
    ¬ BadPlacement .add (checked 0x01 ⟨0, 2, 8, 1, 16, 32⟩ [5, 0]) ∧ BadNorm .add (checked 0x01 ⟨0, 2, 8, 1, 16, 32⟩ [5, 0]) := by
  refine ⟨by decide, not_badShift_add _, ?_, not_badRange _ _ (by decide), not_badPlacement_add 2 _, rfl, .inl ?_⟩
  · rintro (h | ⟨_, h⟩) <;> revert h <;> decide
  · change ¬ (_ ∨ _)
    decide

/-- No check fails: 5 and 0 are added. -/
theorem witness_no_check_fails : decode (checked 0x01 ⟨0, 1, 8, 1, 16, 32⟩ [5]).shadow.cmd = .ok .add ∧
    ¬ BadShift .add (checked 0x01 ⟨0, 1, 8, 1, 16, 32⟩ [5]) ∧ ¬ BadLen .add (checked 0x01 ⟨0, 1, 8, 1, 16, 32⟩ [5]) ∧
    ¬ BadRange .add (checked 0x01 ⟨0, 1, 8, 1, 16, 32⟩ [5]) ∧ ¬ BadPlacement .add (checked 0x01 ⟨0, 1, 8, 1, 16, 32⟩ [5]) ∧
    ¬ BadNorm .add (checked 0x01 ⟨0, 1, 8, 1, 16, 32⟩ [5]) ∧ ¬ BadDivisor .add (checked 0x01 ⟨0, 1, 8, 1, 16, 32⟩ [5]) ∧
    ¬ BadDifference .add (checked 0x01 ⟨0, 1, 8, 1, 16, 32⟩ [5]) := by
  refine ⟨by decide, not_badShift_add _, ?_, not_badRange _ _ (by decide), not_badPlacement_add 1 _, ?_, ?_, ?_⟩
  · rintro (h | ⟨_, h⟩) <;> revert h <;> decide
  · rintro ⟨_, h | ⟨_, h⟩⟩
    · exact h (.inl (by decide))
    · exact h (.inl (by decide))
  · rintro ⟨h, _⟩
    cases h
  · rintro ⟨h, _⟩
    cases h

/-- What DIV and SUB check last, on `5` and the zero word at B: neither placement nor normalization fails first. -/
theorem not_badPlacement_div_sub : ¬ BadPlacement .div (checked 0x04 ⟨0, 1, 8, 1, 16, 32⟩ [5]) ∧
    ¬ BadPlacement .sub (checked 0x02 ⟨8, 1, 0, 1, 16, 32⟩ [5]) := by
  constructor
  · have hreg : ∀ o ∈ outputRegions .div ⟨0, 1, 8, 1, 16, 32⟩, 9 ≤ o.base := by decide
    rintro (⟨o, ho, h⟩ | ⟨r, hr, r2, hr2, h⟩)
    · have hb := hreg o ho
      rcases h with ⟨_, h⟩ | ⟨h, _⟩
      · exact h (apart_of_before _ _ (.inr (by change 8 + 1 ≤ _; omega)))
      · exact h (apart_of_before _ _ (.inr (by change 0 + 1 ≤ _; omega)))
    · cases hr
      cases hr2
      exact h (apart_of_before _ _ (.inl (by decide)))
  · have hreg : ∀ o ∈ outputRegions .sub ⟨8, 1, 0, 1, 16, 32⟩, 9 ≤ o.base := by decide
    rintro (⟨o, ho, h⟩ | ⟨r, hr, r2, hr2, h⟩)
    · have hb := hreg o ho
      rcases h with ⟨_, h⟩ | ⟨h, _⟩
      · exact h (apart_of_before _ _ (.inr (by change 0 + 1 ≤ _; omega)))
      · exact h (apart_of_before _ _ (.inr (by change 8 + 1 ≤ _; omega)))
    · cases hr2

theorem witness_bad_divisor : decode (checked 0x04 ⟨0, 1, 8, 1, 16, 32⟩ [5]).shadow.cmd = .ok .div ∧
    ¬ BadShift .div (checked 0x04 ⟨0, 1, 8, 1, 16, 32⟩ [5]) ∧ ¬ BadLen .div (checked 0x04 ⟨0, 1, 8, 1, 16, 32⟩ [5]) ∧
    ¬ BadRange .div (checked 0x04 ⟨0, 1, 8, 1, 16, 32⟩ [5]) ∧ ¬ BadPlacement .div (checked 0x04 ⟨0, 1, 8, 1, 16, 32⟩ [5]) ∧
    ¬ BadNorm .div (checked 0x04 ⟨0, 1, 8, 1, 16, 32⟩ [5]) ∧ BadDivisor .div (checked 0x04 ⟨0, 1, 8, 1, 16, 32⟩ [5]) := by
  refine ⟨by decide, ?_, ?_, not_badRange _ _ (by decide), not_badPlacement_div_sub.1, ?_, rfl, by decide⟩
  · rintro ⟨k, h | h, _⟩ <;> cases h
  · rintro (h | ⟨_, h⟩) <;> revert h <;> decide
  · rintro ⟨_, h | ⟨_, h⟩⟩
    · exact h (.inl (by decide))
    · exact h (.inl (by decide))

theorem witness_bad_difference : decode (checked 0x02 ⟨8, 1, 0, 1, 16, 32⟩ [5]).shadow.cmd = .ok .sub ∧
    ¬ BadShift .sub (checked 0x02 ⟨8, 1, 0, 1, 16, 32⟩ [5]) ∧ ¬ BadLen .sub (checked 0x02 ⟨8, 1, 0, 1, 16, 32⟩ [5]) ∧
    ¬ BadRange .sub (checked 0x02 ⟨8, 1, 0, 1, 16, 32⟩ [5]) ∧ ¬ BadPlacement .sub (checked 0x02 ⟨8, 1, 0, 1, 16, 32⟩ [5]) ∧
    ¬ BadNorm .sub (checked 0x02 ⟨8, 1, 0, 1, 16, 32⟩ [5]) ∧ BadDifference .sub (checked 0x02 ⟨8, 1, 0, 1, 16, 32⟩ [5]) := by
  refine ⟨by decide, ?_, ?_, not_badRange _ _ (by decide), not_badPlacement_div_sub.2, ?_, rfl, by decide⟩
  · rintro ⟨k, h | h, _⟩ <;> cases h
  · rintro (h | ⟨_, h⟩) <;> revert h <;> decide
  · rintro ⟨_, h | ⟨_, h⟩⟩
    · exact h (.inl (by decide))
    · exact h (.inl (by decide))

/-! ### Laws between commands -/

theorem witness_AddAndSubAreInverse : (∀ x ∈ [0, 1], x < 2 ^ 64) ∧ (∀ x ∈ [1], x < 2 ^ 64) ∧ Normalized [0, 1] ∧ Normalized [1] ∧
    val 64 [1] ≤ val 64 [0, 1] :=
  ⟨by decide, by decide, .inr (by decide), .inl (by decide), by decide⟩

/-- The largest amount. -/
theorem witness_ShrUndoesShl : 63 < 64 ∧ (∀ x ∈ [1, 0x8000000000000000], x < 2 ^ 64) ∧ Normalized [1, 0x8000000000000000] :=
  ⟨by decide, by decide, .inr (by decide)⟩

/-- One array for each row: nonzero magnitude, the most negative value, nonnegative, negative zero. -/
theorem witness_SconvMeaning : (∀ x ∈ [2 ^ 63], x < 2 ^ 64) ∧ val 64 [2 ^ 63] ≠ 0 ∧ sval 64 [2 ^ 63] = - 2 ^ (64 * 1 - 1) ∧
    0 ≤ sval 64 [2 ^ 63 - 1] ∧ val 64 [0] = 0 ∧ (sconvEffect 64 false true [2 ^ 63 + 1]).flag = true := by decide

theorem witness_SconvRoundTrip : (∀ x ∈ [2 ^ 63], x < 2 ^ 64) ∧ Normalized [2 ^ 63] ∧ (val 64 [2 ^ 63] ≠ 0 ∨ true = false) ∧
    Normalized [0] ∧ (val 64 [0] ≠ 0 ∨ false = false) :=
  ⟨by decide, .inl rfl, .inl (by decide), .inl rfl, .inr rfl⟩

/-! ### Frames -/

/-- A command that stores: it goes through, and the byte just below and the byte just above its output region are outside. -/
theorem witness_CommandsWriteOnlyOutputRegions : (two 0x01).wmem.wf ∧ (∃ t, exec .add (two 0x01) = .next t) ∧
    (∀ o ∈ outputRegions .add (two 0x01).shadow.desc, o.ByteOutside (two 0x01).cfg (64 * 8 - 1)) ∧
    (∀ o ∈ outputRegions .add (two 0x01).shadow.desc, o.ByteOutside (two 0x01).cfg ((64 + 3) * 8)) := by
  refine ⟨two_wf _, ⟨_, rfl⟩, fun o ho => .inl ?_, fun o ho => .inr ?_⟩
  · revert o
    decide
  · revert o
    decide

/-- An error completion, which records a new code. -/
theorem witness_error_frame : nextAnd (exec .add (checked 0x01 ⟨0, 0, 8, 1, 16, 32⟩ [5]))
    (fun t => decide (t.status.ecode ≠ (checked 0x01 ⟨0, 0, 8, 1, 16, 32⟩ [5]).status.ecode)) = true := by decide

theorem witness_ReadingCommandsLeaveWmem : ∃ t, exec .clz (two 0x07) = .next t := ⟨_, rfl⟩

theorem witness_CommandsLeaveHostStateAlone : ∃ t, exec .div (two 0x04) = .next t := ⟨_, rfl⟩

theorem witness_ResultRegistersOnlyWhereNamed : ∃ t, exec .norm (two 0x0C) = .next t := ⟨_, rfl⟩

theorem witness_UnusedDescriptorsAreIgnored : (∃ t, exec .neg (inPlace 0x09) = .next t) ∧
    (∃ t, exec .cmplt (two 0x0B) = .next t) ∧ Instr.neg ≠ .add ∧ Instr.neg ≠ .div :=
  ⟨⟨_, rfl⟩, ⟨_, rfl⟩, by decide, by decide⟩

/-! ### Ports, reset, interrupt -/

theorem witness_CmdWriteLaunches : State.reset.status.busy = false := rfl

theorem witness_CmdWriteWhileBusySetsOverrun : (two 0x01).status.busy = true := rfl

/-- The first and the last descriptor, with a command in flight and without one. -/
theorem witness_DescriptorWritesStoreEveryValue : (4 : BitVec 4) ≤ 4 ∧ (4 : BitVec 4) ≤ 9 ∧ (9 : BitVec 4) ≤ 9 ∧
    (∃ t, completionStep (two 0x01) = .next t) ∧ State.reset.status.busy = false :=
  ⟨by decide, by decide, by decide, ⟨_, rfl⟩, rfl⟩

/-- The boundary indices. -/
theorem witness_ReadOnlyWritesAreIgnored : (10 : BitVec 4) ≤ 10 ∧ (10 : BitVec 4) ≤ 15 := by decide

theorem witness_RegisterReadsHaveNoSideEffect : (13 : BitVec 4) ≤ 13 ∧ (13 : BitVec 4) ≤ 15 := by decide

theorem witness_IdReadsConfiguration : State.reset.cfg = (two 0x01).cfg := rfl

theorem witness_CtrlWriteSetsEnableOrResets : (1 : Reg).getLsbD 1 = false ∧ (3 : Reg).getLsbD 1 = true ∧
    State.reset.status.busy = false := by decide

theorem witness_SoftResetAbortsCommand : (two 0x04).wmem.wf ∧ (two 0x04).status.busy = true ∧ (2 : Reg).getLsbD 1 = true ∧
    decode (two 0x04).shadow.cmd = .ok .div ∧
    ∀ o ∈ outputRegions .div (two 0x04).shadow.desc, o.ByteOutside (two 0x04).cfg (66 * 8) := by
  refine ⟨two_wf _, rfl, by decide, by decide, fun o ho => ?_⟩
  rcases List.mem_cons.1 ho with rfl | ho
  · exact .inr (by decide)
  · exact .inl (by revert o; decide)

/-- An illegal word in flight: nonzero reserved bits. -/
theorem witness_SoftResetAbortsIllegalWord : (two 0x21).wmem.wf ∧ (two 0x21).status.busy = true ∧
    IllegalWord (two 0x21).shadow.cmd :=
  ⟨two_wf _, rfl, .inl (.inr (.inr (by decide)))⟩

theorem witness_IdleWmemAccessIsPerformedAtOnce : (loaded (layout 1 1) [(1023, [7])]).wmem.wf ∧
    (loaded (layout 1 1) [(1023, [7])]).status.busy = false ∧ 1023 < (loaded (layout 1 1) [(1023, [7])]).cfg.depth ∧
    (Region.mk 1023 1).ByteOutside (loaded (layout 1 1) [(1023, [7])]).cfg (1023 * 8 - 1) :=
  ⟨by decide, rfl, by decide, .inl (by decide)⟩

theorem witness_BusyWmemAccessIsHeld : (two 0x01).status.busy = true ∧
    (Request.mk 0 (.memWrite 1023 7) false).IsMemAccess (two 0x01).cfg :=
  ⟨rfl, .inr ⟨1023, 7, rfl, by decide⟩⟩

theorem witness_AddressBeyondDepthFaults : State.reset.cfg.depth ≤ 1024 := by decide

theorem witness_HeldReadSeesTheResult :
    (let s := { two 0x01 with held := [⟨1, .memRead 66, false⟩, ⟨2, .memRead 0, false⟩] }
     s.resetIn = false ∧ 66 < s.cfg.depth ∧ ∃ t, completionStep s = .next t) ∧
    (let s := { two 0x01 with held := [⟨1, .memRead 1023, true⟩] }
     s.resetIn = false ∧ 1023 < s.cfg.depth ∧ ∃ t, completionStep s = .next t) :=
  ⟨⟨rfl, by decide, _, rfl⟩, rfl, by decide, _, rfl⟩

/-- A held write of the last word, while the command runs and after it. -/
theorem witness_HeldAccessIsPerformedWhenIdle :
    (let s := { two 0x01 with held := [⟨1, .memWrite 1023 7, false⟩, ⟨2, .memRead 1023, true⟩] }
     s.resetIn = false ∧ s.wmem.wf ∧ 1023 < s.cfg.depth ∧ ∃ t, completionStep s = .next t) ∧
    (let s := { State.reset with held := [⟨1, .memWrite 1023 7, false⟩] }
     s.resetIn = false ∧ s.status.busy = false) ∧ (2 : Reg).getLsbD 1 = true :=
  ⟨⟨rfl, two_wf 0x01, by decide, _, rfl⟩, ⟨rfl, rfl⟩, by decide⟩

/-- The windows of the reference configuration, with the first and the last register and word. -/
theorem witness_BusReachesRegistersAndWords : State.reset.resetIn = false ∧ State.reset.isHeld 0 = false ∧
    State.reset.held = [] ∧
    State.reset.cfg.regBase + 64 ≤ State.reset.cfg.wmemBase ∧ 1023 < State.reset.cfg.depth ∧
    ([0, 0, 0, 0] : List Byte).length = 4 ∧
    ([0, 0, 0, 0, 0, 0, 0, 0] : List Byte).length = State.reset.cfg.bytesPerWord := by decide

/-- What is refused: one byte read and written in each window's last place, the byte below and the byte above each. -/
theorem witness_bus_refusals : (BusAccess.read 0x1003F 1).IsAt (State.reset.cfg.regBase + 63) 1 ∧ 63 < 64 ∧
    (1 ≠ 4 ∨ 63 % 4 ≠ 0) ∧
    (BusAccess.write 0x21FFF [7]).IsAt (State.reset.cfg.wmemBase + 8191) 1 ∧
    8191 < State.reset.cfg.depth * State.reset.cfg.bytesPerWord ∧
    (1 ≠ State.reset.cfg.bytesPerWord ∨ 8191 % State.reset.cfg.bytesPerWord ≠ 0) ∧
    (∀ addr ∈ [0xFFFF, 0x10040, 0x1FFFF, 0x22000],
      (addr < State.reset.cfg.regBase ∨ State.reset.cfg.regBase + 64 ≤ addr) ∧
        (addr < State.reset.cfg.wmemBase ∨
          State.reset.cfg.wmemBase + State.reset.cfg.depth * State.reset.cfg.bytesPerWord ≤ addr)) :=
  ⟨.inl rfl, by decide, by decide, .inr ⟨_, rfl, rfl⟩, by decide, by decide, by decide⟩

theorem witness_BusReadsLeastSignificantByteFirst : 0xFFFFFFFFFFFFFFFF < 2 ^ Config.reference.W ∧
    State.reset.status.busy = false ∧ 1023 < State.reset.cfg.depth ∧ 7 < State.reset.cfg.bytesPerWord := by decide

theorem witness_ResetClearsEveryRegister : (1 : BitVec 4) ≠ 0 ∧ (15 : BitVec 4) ≠ 0 := by decide

theorem witness_ResetInputClearsEveryRegister :
    { State.reset with inputs := [.assertReset] }.held = [] ∧ { two 0x01 with inputs := [.assertReset] }.status.busy = true :=
  ⟨rfl, rfl⟩

theorem witness_InterruptLineIsEnableAndDone : (∃ t, completionStep (two 0x01) = .next t) ∧
    (∃ t, step (two 0x01) = .next t ∧ (two 0x01).status.done = false ∧ t.status.done = true) ∧ (2 : Reg).getLsbD 1 = true ∧
    (2 : Reg).getLsbD 0 = false ∧ State.reset.status.busy = false :=
  ⟨⟨_, rfl⟩, ⟨_, rfl, rfl, rfl⟩, by decide, by decide, rfl⟩

/-! ### Invariants and whole-machine rules -/

/-- A command in flight, master 1 waiting for a held read, master 0 about to write. -/
def waiting : State :=
  { two 0x01 with
    held := [⟨1, .memRead 66, false⟩]
    inputs := [.host 0 (.memWrite 1023 7), .core] }

theorem waiting_heldInv : waiting.HeldInv := by
  refine ⟨fun r hr => ?_, by decide⟩
  rw [List.mem_singleton.1 hr]
  exact .inl ⟨66, rfl, by decide⟩

theorem waiting_inv : waiting.Inv := by
  refine ⟨⟨by decide, by decide, by decide⟩, ⟨two_wf 0x01, ?_⟩, waiting_heldInv, by decide⟩
  decide

theorem witness_StepKeepsInvariant : waiting.Inv ∧ ∃ t, step waiting = .next t := ⟨waiting_inv, _, rfl⟩

theorem witness_StepKeepsStatusInvariants : waiting.status.Inv ∧ ∃ t, step waiting = .next t := ⟨waiting_inv.1, _, rfl⟩

theorem witness_ConfigurationNeverChanges : ∃ t, step waiting = .next t := ⟨_, rfl⟩

theorem witness_CommandInFlightIsNotObservable : ∃ t, step waiting = .next t ∧ waiting.phase = .busy ∧ t.phase = .busy :=
  ⟨_, rfl, by decide, by decide⟩

theorem witness_ResultsChangeOnlyAtSuccessOrReset : ∃ t, step (two 0x01) = .next t := ⟨_, rfl⟩

theorem witness_OnlyLaunchEntersBusy :
    let s := { State.reset with inputs := [.host 0 (.regWrite 3 0x01)] }
    s.HeldInv ∧ s.phase = .idle ∧ ∃ t, step s = .next t ∧ t.phase = .busy := by
  intro s
  refine ⟨⟨fun r hr => ?_, by decide⟩, by decide, _, rfl, by decide⟩
  cases hr

theorem witness_PollingDoesNotChangeTheCompletion :
    let s := { waiting with inputs := List.replicate 2 (Input.host 0 (asmRd .status)) ++ [Input.core] }
    s.status.busy = true ∧ s.resetIn = false ∧ s.isHeld 0 = false := by decide

theorem witness_HeldAccessesAreAllPerformed :
    (let s := { waiting with inputs := [] }
     s.HeldInv ∧ s.status.busy = true ∧ s.resetIn = false ∧ s.inputs = []) ∧
    (let s := { waiting with inputs := [.core, .host 0 (.memWrite 1023 7)] }
     s.HeldInv ∧ s.status.busy = true ∧ s.resetIn = false ∧ s.inputs = .core :: [.host 0 (.memWrite 1023 7)]) :=
  ⟨⟨waiting_heldInv, rfl, rfl, rfl⟩, waiting_heldInv, rfl, rfl, rfl⟩

end Sys2Proof.Tests
end

section
/-! PROOFS. The register STATUS and the register ID: the invariants of STATUS through every step (10_state R42), its W1C bits
(R41), and the fields of ID (R37). -/

namespace Sys2Proof.Machine

/-! ## The invariants of STATUS, one rule per way STATUS changes (10_state R42) -/

theorem Status.inv_zero : Status.zero.Inv := ⟨by decide, by decide, by decide⟩

/-- A launch clears what BUSY excludes, and FLAG may keep its value since ERR is 0 (60_exceptions R245). -/
theorem launch_keeps_inv (s : State) : (launch s).status.Inv := by
  simp [Status.Inv]

/-- An error completion sets ERR with a code that is not 0, and clears FLAG (60_exceptions R246). -/
theorem errorCompletion_keeps_inv (e : ECode) (s : State) (he : e ≠ .noError) : (errorCompletion e s).status.Inv := by
  simp [Status.Inv, he]

/-- A success completion may set FLAG, since ERR is 0 while a command is in flight (60_exceptions R247). -/
theorem finish_keeps_inv (e : Effect) (s : State) (hb : s.status.busy = true) (hs : s.status.Inv) :
    (finish e s).status.Inv := by
  obtain ⟨hbusy, -, -⟩ := hs
  obtain ⟨-, herr, hcode⟩ := hbusy hb
  simp [Status.Inv, herr, hcode]

/-- The acknowledgement only clears bits, and OVR is in no invariant. -/
theorem acknowledge_keeps_inv (v : Reg) (s : State) (hs : s.status.Inv) : (acknowledge v s).status.Inv := by
  obtain ⟨hbusy, hcode, hflag⟩ := hs
  refine ⟨fun hb => ?_, hcode, hflag⟩
  obtain ⟨hdone, herr, hnone⟩ := hbusy hb
  exact ⟨by simp [hdone], herr, hnone⟩

theorem writeReg_keeps_inv (v : Reg) (s : State) (r : RegName) (hs : s.status.Inv) : (writeReg v s r).status.Inv := by
  rcases writeReg_cases v s r with ⟨-, -, h⟩ | ⟨-, -, h⟩ | ⟨-, -, h⟩ | ⟨-, h⟩ | ⟨ie, d, h⟩ <;> rw [h]
  · exact Status.inv_zero
  · exact hs
  · exact launch_keeps_inv _
  · exact acknowledge_keeps_inv v s hs
  · exact hs

theorem hostRegWrite_keeps_inv (k : BitVec 4) (v : Reg) (s : State) (hs : s.status.Inv) :
    (hostRegWrite k v s).status.Inv := by
  rw [hostRegWrite]
  split
  · exact writeReg_keeps_inv v s _ hs
  · exact hs

/-- Of the accesses only a register write touches STATUS. -/
theorem issue_keeps_status_inv (r : Request) (s t : State) (h : issue r s = .next t) (hs : s.status.Inv) :
    t.status.Inv := by
  rcases issue_cases r s t h with ⟨k, -, rfl⟩ | ⟨k, v, -, rfl⟩ | ⟨-, -, rfl⟩ | ⟨-, a, -, -, rfl⟩ | ⟨-, a, v, -, -, rfl⟩
  · exact hs
  · exact hostRegWrite_keeps_inv k v s hs
  · exact hs
  · exact hs
  · exact hs

theorem completionStep_keeps_status_inv (s t : State) (h : completionStep s = .next t) (hb : s.status.busy = true)
    (hs : s.status.Inv) : t.status.Inv := by
  rcases completionStep_next s t h with ⟨i, -, -, rfl⟩ | ⟨e, he, rfl⟩
  · exact finish_keeps_inv _ s hb hs
  · exact errorCompletion_keeps_inv e s he

theorem step_keeps_status_inv (s t : State) (hs : s.status.Inv) (h : step s = .next t) : t.status.Inv := by
  cases step_move s t h with
  | idle rest _ ht => exact ht ▸ hs
  | complete rest busy ht => exact completionStep_keeps_status_inv _ t ht busy hs
  | unhold r rest _ _ _ ht => exact issue_keeps_status_inv r _ t ht hs
  | access r rest _ _ ht => exact issue_keeps_status_inv r _ t ht hs
  | assertReset rest ht => exact ht ▸ Status.inv_zero
  | releaseReset rest ht => exact ht ▸ hs

/-- Settles O53, by the moves a step can make: each of them keeps the three clauses. -/
theorem stepKeepsStatusInvariants : Obligations.StepKeepsStatusInvariants := step_keeps_status_inv

/-! ## The value of STATUS with a bit cleared (10_state R40, R41) -/

/-- DONE is bit 1 of STATUS. -/
theorem Status.value_clear_done (t : Status) (b : Bool) :
    Status.value { t with done := t.done && !b } = t.value &&& ~~~(if b then BitVec.twoPow 32 1 else 0) := by
  obtain ⟨busy, done, err, flag, ovr, ecode⟩ := t
  cases ecode <;> revert busy done err flag ovr b <;> decide

/-- OVR is bit 4 of STATUS. -/
theorem Status.value_clear_ovr (t : Status) (b : Bool) :
    Status.value { t with ovr := t.ovr && !b } = t.value &&& ~~~(if b then BitVec.twoPow 32 4 else 0) := by
  obtain ⟨busy, done, err, flag, ovr, ecode⟩ := t
  cases ecode <;> revert busy done err flag ovr b <;> decide

/-- The two W1C bits of a written value, taken apart. -/
theorem and_w1c_mask (v : Reg) : v &&& 0x12 =
    (if v.getLsbD 1 then BitVec.twoPow 32 1 else 0) ||| (if v.getLsbD 4 then BitVec.twoPow 32 4 else 0) := by
  have mask : (0x12 : Reg) = BitVec.twoPow 32 1 ||| BitVec.twoPow 32 4 := by decide
  rw [mask, BitVec.and_or_distrib_left, BitVec.and_twoPow, BitVec.and_twoPow]
  rfl

theorem value_acknowledge (v : Reg) (s : State) :
    (acknowledge v s).status.value = s.status.value &&& ~~~(v &&& 0x12) := by
  rw [and_w1c_mask, BitVec.not_or, ← BitVec.and_assoc, ← Status.value_clear_done, ← Status.value_clear_ovr]
  rfl

/-- Settles O34: the write of STATUS is the acknowledgement, and each W1C bit clears its own bit of the value. -/
theorem statusWriteClearsDoneAndOverrun : Obligations.StatusWriteClearsDoneAndOverrun := by
  intro s v
  have hwrite : hostRegWrite 2 v s = acknowledge v s := hostRegWrite_index .status v s
  have hread (t : State) : hostRegRead 2 t = t.status.value := hostRegRead_index .status t
  refine ⟨hwrite, ?_⟩
  rw [hwrite, hread, hread, value_acknowledge]

/-! ## The fields of ID (10_state R37) -/

/-- ID as a number: the fields do not run into one another, since W and AW are below 2^8 in every configuration. -/
theorem toNat_idValue (c : Config) : (idValue c).toNat = c.W + 2 ^ 8 * (c.AW + 2 ^ 8 * (1 + 2 ^ 8 * 0xB5)) := by
  have hW := c.W_le
  have hAW := c.AW_le
  rw [idValue, BitVec.toNat_ofNat]
  omega

/-- An 8-bit field of ID as a digit of its number. -/
theorem toNat_idField (c : Config) (i : Nat) :
    ((idValue c).extractLsb' i 8).toNat = (c.W + 2 ^ 8 * (c.AW + 2 ^ 8 * (1 + 2 ^ 8 * 0xB5))) / 2 ^ i % 2 ^ 8 := by
  rw [BitVec.extractLsb'_toNat, toNat_idValue, Nat.shiftRight_eq_div_pow]

theorem idValue_fields (c : Config) :
    ((idValue c).extractLsb' 0 8).toNat = c.W ∧ ((idValue c).extractLsb' 8 8).toNat = c.AW ∧
      (idValue c).extractLsb' 16 8 = 1 ∧ (idValue c).extractLsb' 24 8 = 0xB5 := by
  have hW := c.W_le
  have hAW := c.AW_le
  have version : ((idValue c).extractLsb' 16 8).toNat = 1 := by rw [toNat_idField]; omega
  have magic : ((idValue c).extractLsb' 24 8).toNat = 0xB5 := by rw [toNat_idField]; omega
  refine ⟨?_, ?_, BitVec.eq_of_toNat_eq version, BitVec.eq_of_toNat_eq magic⟩ <;> rw [toNat_idField] <;> omega

/-- Settles O38: ID reads idValue of the configuration, and a write of it is ignored. -/
theorem idReadsConfiguration : Obligations.IdReadsConfiguration := by
  have hread (s : State) : hostRegRead 0 s = idValue s.cfg := hostRegRead_index .id s
  refine ⟨fun s => ?_, fun s t h => ?_, fun s v => hostRegWrite_index .id v s, ?_⟩
  · rw [hread]
    exact idValue_fields s.cfg
  · rw [hread, hread, h]
  · decide

end Sys2Proof.Machine
end

section
/-! PROOFS. The illegal command words (30_encoding R104 to R106): which words the decoder rejects, said by the fields of the word,
and the error completion each of them ends in (60_exceptions R246, R248). -/

namespace Sys2Proof.Machine

/-! ## The fields of a command word as numbers (30_encoding R101) -/

/-- The fields by which the decoder reads a word are those of `IllegalWord`, as numbers. -/
theorem toNat_field (c : Reg) (lo n : Nat) : (c.extractLsb' lo (n + 1)).toNat = bits c (lo + n) lo := by
  rw [BitVec.extractLsb'_toNat, bits, Nat.add_sub_cancel_left]

theorem field_ne_zero_iff (c : Reg) (lo n : Nat) : c.extractLsb' lo (n + 1) ≠ 0 ↔ bits c (lo + n) lo ≠ 0 := by
  rw [← toNat_field, ne_eq, ← BitVec.toNat_inj]
  rfl

theorem getLsbD_iff_bits (c : Reg) (i : Nat) : c.getLsbD i = true ↔ bits c i i ≠ 0 := by
  rw [BitVec.getLsbD, Nat.testBit_eq_decide_div_mod_eq, decide_eq_true_iff, bits, Nat.shiftRight_eq_div_pow,
    Nat.sub_self, Nat.zero_add, Nat.pow_one, Nat.mod_two_ne_zero]

theorem opField_eq_iff (c : Reg) (k : BitVec 5) : opField c = k ↔ bits c 4 0 = k.toNat := by
  rw [← BitVec.toNat_inj, opField, toNat_field c 0 4]

theorem le_opField_iff (c : Reg) (k : BitVec 5) : k ≤ opField c ↔ k.toNat ≤ bits c 4 0 := by
  rw [BitVec.le_def, opField, toNat_field c 0 4]

/-- The illegal words, by the numbers that the decoder reads. -/
theorem illegalWord_iff_bits (c : Reg) : IllegalWord c ↔
    (bits c 31 24 ≠ 0 ∨ bits c 15 10 ≠ 0 ∨ bits c 7 5 ≠ 0) ∨ (bits c 4 0 = 0 ∨ 0x0D ≤ bits c 4 0) ∨
      (bits c 4 0 ≠ 0x05 ∧ bits c 4 0 ≠ 0x06 ∧ bits c 23 16 ≠ 0) ∨
      (bits c 4 0 ≠ 0x08 ∧ (bits c 8 8 ≠ 0 ∨ bits c 9 9 ≠ 0)) := by
  simp only [IllegalWord, field_ne_zero_iff, getLsbD_iff_bits, ne_eq, opField_eq_iff, le_opField_iff]
  rfl

/-! ## What the decoder rejects (30_encoding R104 to R107) -/

theorem decodePlain_error_iff (c : Reg) (i : Instr) : (∃ e, decodePlain c i = .error e) ↔
    bits c 23 16 ≠ 0 ∨ bits c 8 8 ≠ 0 ∨ bits c 9 9 ≠ 0 := by
  rw [decodePlain]
  split_ifs <;> simp_all

theorem decodeShift_error_iff (c : Reg) (mk : Nat → Instr) : (∃ e, decodeShift c mk = .error e) ↔
    bits c 8 8 ≠ 0 ∨ bits c 9 9 ≠ 0 := by
  rw [decodeShift]
  split_ifs <;> simp_all

theorem decodeSign_error_iff (c : Reg) (mk : Bool → Bool → Instr) : (∃ e, decodeSign c mk = .error e) ↔
    bits c 23 16 ≠ 0 := by
  rw [decodeSign]
  split_ifs <;> simp_all

/-- By the reserved bits first, and then by the command number: a reserved one is rejected, and the arm of each command rejects
the nonzero fields that the command does not take. -/
theorem illegalWord_iff_decode_error (c : Reg) : IllegalWord c ↔ ∃ e, decode c = .error e := by
  rw [illegalWord_iff_bits, decode]
  by_cases reserved : bits c 31 24 ≠ 0 ∨ bits c 15 10 ≠ 0 ∨ bits c 7 5 ≠ 0
  · simp [reserved]
  · rw [if_neg reserved]
    split
    case h_13 =>
      have reservedOp : bits c 4 0 = 0 ∨ 0x0D ≤ bits c 4 0 := by grind
      simp [reservedOp]
    all_goals
      rename_i op
      simp [decodePlain_error_iff, decodeShift_error_iff, decodeSign_error_iff, reserved, op]

/-! ## The error completion of an illegal word (60_exceptions R246) -/

/-- The error completion changes STATUS alone. -/
theorem errorCompletion_eq_erroredWith (e : ECode) (s : State) : errorCompletion e s = s.erroredWith e := rfl

theorem completionStep_of_illegalWord (s : State) (h : IllegalWord s.shadow.cmd) :
    completionStep s = .next (s.erroredWith .illegal) := by
  obtain ⟨e, he⟩ := (illegalWord_iff_decode_error _).1 h
  rcases completionStep_cases s with ⟨-, -, ht⟩ | ⟨i, hi, -⟩
  · rw [ht, errorCompletion_eq_erroredWith]
  · exact absurd (he.symm.trans hi) nofun

/-- Settles O4: the fields of a word decide what the decoder rejects, and a rejected word ends in the error completion. -/
theorem illegalWordEndsInErrorIllegal : Obligations.IllegalWordEndsInErrorIllegal :=
  ⟨illegalWord_iff_decode_error, completionStep_of_illegalWord, by decide, by decide⟩

end Sys2Proof.Machine
end

section
/-! PROOFS. ADD and SUB (41_add_sub): the exact sum and the exact difference with their normalized lengths (R141, R145), and the
two commands as inverses of each other (R146). -/

namespace Sys2Proof.Machine

/-! ## Normalized arrays by their values (00_scope R12) -/

/-- A comparison of two powers of `2^W` is one of their exponents. -/
theorem lt_of_pow_mul_lt {w m n : Nat} (h : 2 ^ (w * m) < 2 ^ (w * n)) : m < n :=
  Nat.lt_of_mul_lt_mul_left ((Nat.pow_lt_pow_iff_right (by decide)).1 h)

/-- A nonzero number that is at least the value of a normalized array reaches into its top word. -/
theorem Normalized.pow_le {w v : Nat} {xs : WordArray} (hn : Normalized xs) (hv : val w xs ≤ v) (h0 : v ≠ 0) :
    2 ^ (w * (xs.length - 1)) ≤ v := by
  rcases hn with hone | htop
  · rw [hone, Nat.sub_self, Nat.mul_zero, Nat.pow_zero]
    exact Nat.pos_of_ne_zero h0
  · exact (le_val_of_topWord w xs htop).trans hv

/-- A normalized array is no longer than any array of at least its value. -/
theorem Normalized.length_le {w : Nat} {xs ys : WordArray} (hn : Normalized xs) (hy : Bounded w ys) (ly : 1 ≤ ys.length)
    (h : val w xs ≤ val w ys) : xs.length ≤ ys.length := by
  rcases hn with hone | htop
  · omega
  · have below : xs.length - 1 < ys.length := lt_of_pow_mul_lt (w := w) <|
      calc 2 ^ (w * (xs.length - 1)) ≤ val w xs := le_val_of_topWord w xs htop
        _ ≤ val w ys := h
        _ < 2 ^ (w * ys.length) := val_lt w ys hy
    omega

/-- A normalized array is determined by its value. -/
theorem Normalized.eq_of_val_eq {w : Nat} {xs ys : WordArray} (nx : Normalized xs) (ny : Normalized ys)
    (hx : Bounded w xs) (hy : Bounded w ys) (lx : 1 ≤ xs.length) (ly : 1 ≤ ys.length) (h : val w xs = val w ys) :
    xs = ys :=
  val_inj w xs ys (Nat.le_antisymm (nx.length_le hy ly h.le) (ny.length_le hx lx h.ge)) hx hy h

/-! ## norm_len and the first `norm_len` words (00_scope R12) -/

theorem isNormLen_normLen (xs : WordArray) (h : 1 ≤ xs.length) : IsNormLen (normLen xs) xs := by
  refine ⟨one_le_normLen xs, normLen_le xs h, getD_above_normLen xs, ?_⟩
  rcases Nat.eq_or_lt_of_le (one_le_normLen xs) with hone | hmore
  · exact .inl hone.symm
  · exact .inr (getD_below_normLen xs hmore)

theorem take_bounded {w : Nat} {xs : WordArray} (n : Nat) (h : Bounded w xs) : Bounded w (xs.take n) :=
  fun x hx => h x (List.mem_of_mem_take hx)

theorem one_le_length_take_normLen (xs : WordArray) (h : 1 ≤ xs.length) : 1 ≤ (xs.take (normLen xs)).length :=
  (one_le_normLen xs).trans_eq (take_normLen_normalized xs h).1.symm

/-- `norm_len` of a nonzero array, by its value. -/
theorem normLen_eq_of_val {w m : Nat} {xs : WordArray} (hx : Bounded w xs) (lx : 1 ≤ xs.length)
    (hlo : 2 ^ (w * m) ≤ val w xs) (hhi : val w xs < 2 ^ (w * (m + 1))) : normLen xs = m + 1 := by
  have h0 : val w xs ≠ 0 := Nat.ne_of_gt (Nat.lt_of_lt_of_le (Nat.two_pow_pos _) hlo)
  obtain ⟨hlen, hnorm⟩ := take_normLen_normalized xs lx
  have lower := Normalized.pow_le hnorm (val_take_normLen w xs).le h0
  have upper := val_lt w _ (take_bounded (normLen xs) hx)
  rw [val_take_normLen] at upper
  rw [hlen] at lower upper
  have above : m < normLen xs := lt_of_pow_mul_lt (Nat.lt_of_le_of_lt hlo upper)
  have below : normLen xs - 1 < m + 1 := lt_of_pow_mul_lt (Nat.lt_of_le_of_lt lower hhi)
  omega

/-- The first `norm_len` words of an array are the normalized array of its value. -/
theorem take_normLen_eq {w : Nat} {xs ys : WordArray} (hx : Bounded w xs) (hy : Bounded w ys) (lx : 1 ≤ xs.length)
    (ly : 1 ≤ ys.length) (ny : Normalized ys) (h : val w xs = val w ys) : xs.take (normLen xs) = ys :=
  Normalized.eq_of_val_eq (take_normLen_normalized xs lx).2 ny (take_bounded _ hx) hy (one_le_length_take_normLen xs lx) ly
    ((val_take_normLen w xs).trans h)

/-! ## The values of the sum and of the difference (41_add_sub R141, R146) -/

/-- The sum of two arrays fits one word more than the longer of them. -/
theorem val_add_val_lt {w : Nat} {a b : WordArray} (hw : 0 < w) (ha : Bounded w a) (hb : Bounded w b) :
    val w a + val w b < 2 ^ (w * (max a.length b.length + 1)) := by
  have below (xs : WordArray) (hx : Bounded w xs) (hl : xs.length ≤ max a.length b.length) :
      val w xs < 2 ^ (w * max a.length b.length) :=
    Nat.lt_of_lt_of_le (val_lt w xs hx) (Nat.pow_le_pow_right (by decide) (Nat.mul_le_mul_left w hl))
  have h1 := below a ha (Nat.le_max_left ..)
  have h2 := below b hb (Nat.le_max_right ..)
  rw [pow_mul_succ]
  calc val w a + val w b < 2 * 2 ^ (w * max a.length b.length) := by omega
    _ ≤ 2 ^ w * 2 ^ (w * max a.length b.length) := Nat.mul_le_mul_right _ (Nat.le_self_pow (Nat.ne_of_gt hw) 2)

/-- The words of the sum hold it "exactly, with no wrap-around". -/
theorem val_wordsOf_add {w : Nat} {a b : WordArray} (hw : 0 < w) (ha : Bounded w a) (hb : Bounded w b) :
    val w (wordsOf w (max a.length b.length + 1) (val w a + val w b)) = val w a + val w b := by
  rw [val_wordsOf, Nat.mod_eq_of_lt (val_add_val_lt hw ha hb)]

/-- A difference needs no more words than the minuend. -/
theorem val_wordsOf_sub {w : Nat} {a : WordArray} (ha : Bounded w a) (v : Nat) :
    val w (wordsOf w a.length (val w a - v)) = val w a - v := by
  rw [val_wordsOf, Nat.mod_eq_of_lt (Nat.lt_of_le_of_lt (Nat.sub_le ..) (val_lt w a ha))]

/-- `norm_len` of the sum is `n + c` unless both inputs are zero: the carry is the word `n`, and without one the longer input
reaches into the word below it. -/
theorem normLen_wordsOf_add {w : Nat} {a b : WordArray} (hw : 0 < w) (ha : Bounded w a) (hb : Bounded w b)
    (la : 1 ≤ a.length) (na : Normalized a) (nb : Normalized b) (h0 : val w a + val w b ≠ 0) :
    normLen (wordsOf w (max a.length b.length + 1) (val w a + val w b)) =
      max a.length b.length + (decide (2 ^ (w * max a.length b.length) ≤ val w a + val w b)).toNat := by
  by_cases carry : 2 ^ (w * max a.length b.length) ≤ val w a + val w b
  · rw [decide_eq_true carry, Bool.toNat_true]
    apply normLen_eq_of_val (wordsOf_bounded _ _ _) (by simp) <;> rw [val_wordsOf_add hw ha hb]
    · exact carry
    · exact val_add_val_lt hw ha hb
  · have reach : 2 ^ (w * (max a.length b.length - 1)) ≤ val w a + val w b := by
      rcases Nat.le_total a.length b.length with hle | hle
      · rw [Nat.max_eq_right hle]
        exact nb.pow_le (Nat.le_add_left ..) h0
      · rw [Nat.max_eq_left hle]
        exact na.pow_le (Nat.le_add_right ..) h0
    have hn : max a.length b.length - 1 + 1 = max a.length b.length := Nat.sub_add_cancel (la.trans (Nat.le_max_left ..))
    rw [decide_eq_false carry, Bool.toNat_false, Nat.add_zero]
    refine (normLen_eq_of_val (wordsOf_bounded _ _ _) (by simp) ?_ ?_).trans hn <;> rw [val_wordsOf_add hw ha hb]
    · exact reach
    · rw [hn]
      exact Nat.lt_of_not_le carry

/-! ## ADD and SUB are inverse (41_add_sub R146) -/

theorem addEffect_result {w : Nat} {a b : WordArray} (ha : Bounded w a) (hb : Bounded w b) :
    (addEffect w a b).result = (wordsOf w (max a.length b.length + 1) (val w a + val w b)).take
      (normLen (wordsOf w (max a.length b.length + 1) (val w a + val w b))) := by
  rw [← (addEffect_eq w a b ha hb).1]
  rfl

theorem subEffect_result {w : Nat} {a b : WordArray} (ha : Bounded w a) (hb : Bounded w b) (hl : b.length ≤ a.length)
    (h : val w b ≤ val w a) : (subEffect w a b).result =
      (wordsOf w a.length (val w a - val w b)).take (normLen (wordsOf w a.length (val w a - val w b))) := by
  rw [← subEffect_eq w a b ha hb hl h]
  rfl

/-- The first R_LEN words that ADD writes are the normalized array of the sum. -/
theorem addEffect_result_eq {w : Nat} {x b a : WordArray} (hw : 0 < w) (hx : Bounded w x) (hb : Bounded w b)
    (ha : Bounded w a) (la : 1 ≤ a.length) (na : Normalized a) (h : val w x + val w b = val w a) :
    (addEffect w x b).result = a := by
  rw [addEffect_result hx hb]
  exact take_normLen_eq (wordsOf_bounded _ _ _) ha (by simp) la na ((val_wordsOf_add hw hx hb).trans h)

/-- The first R_LEN words that SUB writes are the normalized array of the difference. -/
theorem subEffect_result_eq {w : Nat} {x b a : WordArray} (hx : Bounded w x) (hb : Bounded w b) (ha : Bounded w a)
    (lx : 1 ≤ x.length) (la : 1 ≤ a.length) (nb : Normalized b) (na : Normalized a) (h : val w x = val w a + val w b) :
    (subEffect w x b).result = a := by
  have hle : val w b ≤ val w x := h ▸ Nat.le_add_left ..
  rw [subEffect_result hx hb (nb.length_le hx lx hle) hle]
  refine take_normLen_eq (wordsOf_bounded _ _ _) ha (by simpa using lx) la na ?_
  rw [val_wordsOf_sub hx, h, Nat.add_sub_cancel]

/-- Settles O23: each command gives the normalized array of its value, and a normalized array is determined by its value. -/
theorem addAndSubAreInverse : Obligations.AddAndSubAreInverse := by
  intro w a b hw ha hb la lb na nb
  constructor
  · rw [addEffect_result ha hb]
    refine subEffect_result_eq (take_bounded _ (wordsOf_bounded _ _ _)) hb ha
      (one_le_length_take_normLen _ (by simp)) la nb na ?_
    rw [val_take_normLen, val_wordsOf_add hw ha hb]
  · intro h
    have hl : b.length ≤ a.length := nb.length_le ha la h
    have hr : (subEffect w a b).r = wordsOf w a.length (val w a - val w b) := subEffect_eq w a b ha hb hl h
    refine ⟨hr, ⟨normLen (subEffect w a b).r, rfl, isNormLen_normLen _ (by simpa [hr] using la)⟩, ?_⟩
    rw [subEffect_result ha hb hl h]
    refine addEffect_result_eq hw (take_bounded _ (wordsOf_bounded _ _ _)) hb ha la na ?_
    rw [val_take_normLen, val_wordsOf_sub ha, Nat.sub_add_cancel h]

/-! ## A command with two inputs and one output passes the checks (60_exceptions R242 to R244, R249) -/

/-- An output region clear of both inputs is well placed for every command (20_memory R78). -/
theorem outputPlaced_of_apart {i : Instr} {d : Descriptors} {o : Region} (ho : 0 < o.len) (ha : 0 < d.aLen.toNat)
    (hb : 0 < d.bLen.toNat) (apartA : o.Apart (regionA d)) (apartB : o.Apart (regionB d)) :
    outputPlaced i d o = true := by
  have clearA : o.overlaps (regionA d) = false :=
    Bool.eq_false_iff.2 fun h => (Region.overlaps_iff o _ ho ha).1 h apartA
  have clearB : o.overlaps (regionB d) = false :=
    Bool.eq_false_iff.2 fun h => (Region.overlaps_iff o _ ho hb).1 h apartB
  simp [outputPlaced, clearA, clearB]

theorem unnormalizedInput_of_twoInputs {i : Instr} {s : State} (h : s.TwoInputs) : unnormalizedInput i s = false := by
  obtain ⟨⟨la, -⟩, ⟨lb, -⟩, na, nb⟩ := h
  have hA := (isNormalized_iff_Normalized s.inputA (la.trans_eq (length_inputA s).symm)).2 na
  have hB := (isNormalized_iff_Normalized s.inputB (lb.trans_eq (length_inputB s).symm)).2 nb
  simp [unnormalizedInput, hA, hB]

/-- No check fails for a command of two inputs and one output region, but for those of DIV and SUB on values. -/
theorem check_of_twoInputsOneOutput {i : Instr} {s : State} {n : Nat} (h : s.TwoInputsOneOutput n) (hn : 0 < n)
    (hshift : shiftTooFar s.cfg i = false) (hR : capR s.la s.lb i = some n) (hR2 : capR2 s.lb i = none)
    (hdiv : ¬ BadDivisor i s) (hsub : ¬ BadDifference i s) : check i s = .noError := by
  obtain ⟨hin, ⟨fitsR, apartA⟩, apartB⟩ := h
  have hnorm := unnormalizedInput_of_twoInputs (i := i) hin
  obtain ⟨⟨la, fitsA⟩, ⟨lb, fitsB⟩, -⟩ := hin
  have outR : regionR i s.shadow.desc = some ⟨s.rAddr, n⟩ := congrArg (Option.map _) hR
  have outR2 : regionR2 i s.shadow.desc = none := congrArg (Option.map _) hR2
  have outs : outputRegions i s.shadow.desc = [⟨s.rAddr, n⟩] := by rw [outputRegions, outR, outR2]; rfl
  have lengths : ¬ (s.shadow.desc.aLen = 0 ∨ (usesB i ∧ s.shadow.desc.bLen = 0)) := by
    rintro (hzero | ⟨-, hzero⟩)
    · exact absurd la (by simp [State.la, hzero])
    · exact absurd lb (by simp [State.lb, hzero])
  have ranges : (inputRegions i s.shadow.desc ++ outputRegions i s.shadow.desc).any (fun r => !r.inRange s.cfg) = false := by
    rw [← Region.inRange_iff] at fitsR fitsA fitsB
    rw [outs, inputRegions]
    cases usesB i <;> simp [fitsR, fitsA, fitsB]
  have placement : placementLegal i s.shadow.desc = true := by
    simp [placementLegal, outs, outputsApart, outR, outR2, outputPlaced_of_apart hn la lb apartA apartB]
  simp only [check, hshift, lengths, ranges, placement, hnorm, if_false, Bool.false_eq_true, not_true_eq_false]
  exact (if_neg hdiv).trans (if_neg hsub)

/-! ## What a command with one output region leaves (60_exceptions R247) -/

/-- Where no check fails, an effect of words at R, their length and a flag is the success completion with those words at
R_BASE and nothing else changed. -/
theorem exec_stores_words {i : Instr} {s : State} {r : WordArray} {len : Nat} {f : Bool} (hwf : s.wmem.wf)
    (hcheck : check i s = .noError) (heffect : effectOf i s = { r := r, rLen := some len, flag := f })
    (hr : Bounded s.cfg.W r) :
    ∃ m, exec i s = .next (s.completedWith m (BitVec.ofNat 32 len) s.r2Len s.res f) ∧
      readArray s.cfg m s.rAddr r.length = r := by
  refine ⟨writeArray s.cfg s.wmem s.rAddr r, ?_, readArray_writeArray_same _ _ _ _ hwf hr⟩
  rw [exec_of_check i s hcheck, heffect]
  rfl

/-! ## ADD and SUB on the state (41_add_sub R140, R145) -/

/-- The lengths of the inputs, as the statements name them (00_scope R17). -/
theorem length_inputA_eq_la (s : State) : s.inputA.length = s.la := length_inputA s

theorem length_inputB_eq_lb (s : State) : s.inputB.length = s.lb := length_inputB s

/-- What ADD writes: the words of the sum, their `norm_len` and the carry. -/
theorem effectOf_add (s : State) : effectOf .add s =
    { r := wordsOf s.W (max s.la s.lb + 1) (s.valA + s.valB)
      rLen := some (normLen (wordsOf s.W (max s.la s.lb + 1) (s.valA + s.valB)))
      flag := decide (2 ^ (s.W * max s.la s.lb) ≤ s.valA + s.valB) } := by
  obtain ⟨hr, hflag⟩ := addEffect_eq s.W s.inputA s.inputB (inputA_bounded s) (inputB_bounded s)
  rw [← length_inputA_eq_la, ← length_inputB_eq_lb, State.valA, State.valB, ← hr, ← hflag]
  rfl

/-- What SUB writes: the words of the difference and their `norm_len`. -/
theorem effectOf_sub (s : State) (hl : s.lb ≤ s.la) (h : s.valB ≤ s.valA) : effectOf .sub s =
    { r := wordsOf s.W s.la (s.valA - s.valB)
      rLen := some (normLen (wordsOf s.W s.la (s.valA - s.valB)))
      flag := false } := by
  rw [← length_inputA_eq_la, ← length_inputB_eq_lb] at hl
  rw [← length_inputA_eq_la, State.valA, State.valB,
    ← subEffect_eq s.W s.inputA s.inputB (inputA_bounded s) (inputB_bounded s) hl h]
  rfl

/-- Settles O11: ADD passes the checks and stores the words of the sum. -/
theorem addStoresExactSum : Obligations.AddStoresExactSum := by
  intro s hwf hplaced n sum carry
  have hcheck : check .add s = .noError :=
    check_of_twoInputsOneOutput hplaced (Nat.succ_pos _) rfl rfl rfl nofun nofun
  obtain ⟨m, hexec, hread⟩ := exec_stores_words hwf hcheck (effectOf_add s) (wordsOf_bounded _ _ _)
  rw [length_wordsOf] at hread
  obtain ⟨⟨⟨la, -⟩, -, na, nb⟩, -⟩ := hplaced
  rw [← length_inputA_eq_la] at la
  have hval := val_wordsOf_add s.cfg.W_pos (inputA_bounded s) (inputB_bounded s)
  have hlen := normLen_wordsOf_add s.cfg.W_pos (inputA_bounded s) (inputB_bounded s) la na nb
  rw [length_inputA_eq_la, length_inputB_eq_lb] at hval hlen
  exact ⟨m, normLen sum, hexec, hread, hval, isNormLen_normLen sum (by simp [sum]), hlen⟩

/-- Settles O12: SUB passes the checks, since its first input is not the smaller one, and stores the words of the difference. -/
theorem subStoresExactDifference : Obligations.SubStoresExactDifference := by
  intro s hwf hplaced hle difference
  obtain ⟨⟨⟨la, -⟩, -, -, nb⟩, -⟩ := id hplaced
  have hcheck : check .sub s = .noError :=
    check_of_twoInputsOneOutput hplaced la rfl rfl rfl nofun fun ⟨_, hlt⟩ => Nat.not_lt.2 hle hlt
  have hl : s.inputB.length ≤ s.inputA.length :=
    nb.length_le (inputA_bounded s) (la.trans_eq (length_inputA_eq_la s).symm) hle
  rw [length_inputA_eq_la, length_inputB_eq_lb] at hl
  obtain ⟨m, hexec, hread⟩ := exec_stores_words hwf hcheck (effectOf_sub s hl hle) (wordsOf_bounded _ _ _)
  rw [length_wordsOf] at hread
  have hval : val s.W difference = s.valA - s.valB := by
    have := val_wordsOf_sub (inputA_bounded s) s.valB
    rwa [length_inputA_eq_la] at this
  refine ⟨m, normLen difference, hexec, hread, ?_, isNormLen_normLen difference (la.trans_eq (length_wordsOf ..).symm)⟩
  rw [hval, Nat.sub_add_cancel hle]

end Sys2Proof.Machine
end

section
/-! PROOFS. DIV on the state (43_divide R170, R171): the checks a command with two output regions passes, what the memory holds
after both of its arrays are written, and the values, the spare word and the lengths of quotient and remainder. -/

namespace Sys2Proof.Machine

/-! ## Two output regions (20_memory R78) -/

/-- Of two regions that are not empty and have no word in common, one ends where the other has not begun. -/
theorem Region.Apart.before {r q : Region} (h : r.Apart q) (hr : 0 < r.len) (hq : 0 < q.len) :
    r.base + r.len ≤ q.base ∨ q.base + q.len ≤ r.base := by
  by_contra hmeet
  exact h (max r.base q.base) ⟨⟨by omega, by omega⟩, ⟨by omega, by omega⟩⟩

/-- No check fails for DIV with a divisor that is not 0. -/
theorem check_div_of_twoInputsTwoOutputs {s : State} (h : s.TwoInputsTwoOutputs s.la (s.lb + 1)) (h0 : s.valB ≠ 0) :
    check .div s = .noError := by
  obtain ⟨⟨hin, ⟨fitsR, apartAR⟩, apartBR⟩, ⟨fitsR2, apartAR2⟩, apartBR2, apart⟩ := h
  have hnorm := unnormalizedInput_of_twoInputs (i := .div) hin
  obtain ⟨⟨la, fitsA⟩, ⟨lb, fitsB⟩, -⟩ := hin
  have lb' : 0 < s.lb + 1 := Nat.succ_pos _
  have outR : regionR .div s.shadow.desc = some ⟨s.rAddr, s.la⟩ := rfl
  have outR2 : regionR2 .div s.shadow.desc = some ⟨s.r2Addr, s.lb + 1⟩ := rfl
  have outs : outputRegions .div s.shadow.desc = [⟨s.rAddr, s.la⟩, ⟨s.r2Addr, s.lb + 1⟩] := rfl
  have ins : inputRegions .div s.shadow.desc = [regionA s.shadow.desc, regionB s.shadow.desc] := rfl
  have lengths : ¬ (s.shadow.desc.aLen = 0 ∨ (usesB .div ∧ s.shadow.desc.bLen = 0)) := by
    rintro (hzero | ⟨-, hzero⟩)
    · exact absurd la (by simp [State.la, hzero])
    · exact absurd lb (by simp [State.lb, hzero])
  have ranges : (inputRegions .div s.shadow.desc ++ outputRegions .div s.shadow.desc).any
      (fun r => !r.inRange s.cfg) = false := by
    rw [← Region.inRange_iff] at fitsA fitsB fitsR fitsR2
    simp [ins, outs, fitsA, fitsB, fitsR, fitsR2]
  have placement : placementLegal .div s.shadow.desc = true := by
    have disjoint : Region.overlaps ⟨s.rAddr, s.la⟩ ⟨s.r2Addr, s.lb + 1⟩ = false :=
      Bool.eq_false_iff.2 fun hover => (Region.overlaps_iff _ _ la lb').1 hover apart
    have placedR := outputPlaced_of_apart (i := .div) la la lb apartAR apartBR
    have placedR2 := outputPlaced_of_apart (i := .div) lb' la lb apartAR2 apartBR2
    simp [placementLegal, outs, outputsApart, outR, outR2, placedR, placedR2, disjoint]
  simp only [check, shiftTooFar, lengths, ranges, placement, hnorm, if_false, Bool.false_eq_true, not_true_eq_false]
  exact (if_neg fun ⟨_, hzero⟩ => h0 hzero).trans (if_neg nofun)

/-- Where no check fails, an effect of words at R and at R2, their lengths and a flag is the success completion with those
words at R_BASE and R2_BASE and nothing else changed (60_exceptions R247): the second array leaves the first as written. -/
theorem exec_stores_two_arrays {i : Instr} {s : State} {q r : WordArray} {lenQ lenR : Nat} {f : Bool} (hwf : s.wmem.wf)
    (hcheck : check i s = .noError)
    (heffect : effectOf i s = { r := q, r2 := r, rLen := some lenQ, r2Len := some lenR, flag := f })
    (hq : Bounded s.cfg.W q) (hr : Bounded s.cfg.W r)
    (apart : s.rAddr + q.length ≤ s.r2Addr ∨ s.r2Addr + r.length ≤ s.rAddr) :
    ∃ m, exec i s = .next (s.completedWith m (BitVec.ofNat 32 lenQ) (BitVec.ofNat 32 lenR) s.res f) ∧
      readArray s.cfg m s.rAddr q.length = q ∧ readArray s.cfg m s.r2Addr r.length = r := by
  have hwfR := wf_writeArray s.cfg q s.wmem s.rAddr hwf
  refine ⟨writeArray s.cfg (writeArray s.cfg s.wmem s.rAddr q) s.r2Addr r, ?_, ?_,
    readArray_writeArray_same _ _ _ _ hwfR hr⟩
  · rw [exec_of_check i s hcheck, heffect]
    rfl
  · rw [readArray_writeArray_apart _ _ _ _ _ _ hwfR apart, readArray_writeArray_same _ _ _ _ hwf hq]

/-! ## The words of a value with room to spare (00_scope R11, R12) -/

theorem val_wordsOf_of_lt {w n v : Nat} (h : v < 2 ^ (w * n)) : val w (wordsOf w n v) = v := by
  rw [val_wordsOf, Nat.mod_eq_of_lt h]

/-- A word more than the value needs is 0. -/
theorem wordsOf_succ_of_lt {w n v : Nat} (h : v < 2 ^ (w * n)) : wordsOf w (n + 1) v = wordsOf w n v ++ [0] := by
  have hbound : Bounded w (wordsOf w n v ++ [0]) :=
    bounded_append.2 ⟨wordsOf_bounded w n v, bounded_replicate_zero w 1⟩
  refine (eq_wordsOf w _ hbound (by simp) ?_).symm
  rw [val_append, val_wordsOf_of_lt h]
  simp

/-- `norm_len` does not count a top word that is 0, but for the least length 1 (00_scope R12). -/
theorem IsNormLen.le_of_top_zero {n k : Nat} {xs : WordArray} (h : IsNormLen n xs) (hl : xs.length = k + 1) (hk : 1 ≤ k)
    (htop : xs.getD k 0 = 0) : n ≤ k := by
  obtain ⟨-, hle, -, hone | htopmost⟩ := h
  · exact hone ▸ hk
  · by_contra hlong
    exact htopmost (by rwa [show n - 1 = k by omega])

/-- A word of an array is the word of WMEM at its address (00_scope R16). -/
theorem getD_readArray (c : Config) (m : Memory) (a : Nat) {n i : Nat} (h : i < n) :
    (readArray c m a n).getD i 0 = readWord c m (a + i) := by
  simp [readArray, h]

/-! ## The words of quotient and remainder (43_divide R171) -/

/-- The array Q that DIV is to leave (43_divide R171). -/
def State.quotient (s : State) : WordArray := wordsOf s.W s.la (s.valA / s.valB)

/-- The array Rm that DIV is to leave, with the spare word above the remainder (43_divide R171). -/
def State.remainder (s : State) : WordArray := wordsOf s.W (s.lb + 1) (s.valA % s.valB)

@[simp] theorem length_quotient (s : State) : s.quotient.length = s.la := length_wordsOf ..

@[simp] theorem length_remainder (s : State) : s.remainder.length = s.lb + 1 := length_wordsOf ..

/-- A quotient needs no more words than the dividend. -/
theorem val_quotient (s : State) : val s.W s.quotient = s.valA / s.valB := by
  have hA := val_lt s.W s.inputA (inputA_bounded s)
  rw [length_inputA_eq_la] at hA
  exact val_wordsOf_of_lt (Nat.lt_of_le_of_lt (Nat.div_le_self ..) hA)

/-- A remainder needs no more words than the divisor. -/
theorem valA_mod_valB_lt (s : State) (h0 : s.valB ≠ 0) : s.valA % s.valB < 2 ^ (s.W * s.lb) := by
  have hB := val_lt s.W s.inputB (inputB_bounded s)
  rw [length_inputB_eq_lb] at hB
  exact Nat.lt_trans (Nat.mod_lt s.valA (Nat.pos_of_ne_zero h0)) hB

theorem remainder_eq_append (s : State) (h0 : s.valB ≠ 0) :
    s.remainder = wordsOf s.W s.lb (s.valA % s.valB) ++ [0] := wordsOf_succ_of_lt (valA_mod_valB_lt s h0)

theorem val_remainder (s : State) (h0 : s.valB ≠ 0) : val s.W s.remainder = s.valA % s.valB := by
  rw [remainder_eq_append s h0, val_append, val_wordsOf_of_lt (valA_mod_valB_lt s h0)]
  simp

theorem getD_remainder_spare (s : State) (h0 : s.valB ≠ 0) : s.remainder.getD s.lb 0 = 0 := by
  simp [remainder_eq_append s h0]

/-- What DIV writes: the words of quotient and remainder and the `norm_len` of each. -/
theorem effectOf_div (s : State) (la : 0 < s.la) (lb : 0 < s.lb) (h0 : s.valB ≠ 0) : effectOf .div s =
    { r := s.quotient
      r2 := s.remainder
      rLen := some (normLen s.quotient)
      r2Len := some (normLen s.remainder)
      flag := false } := by
  rw [← length_inputA_eq_la] at la
  rw [← length_inputB_eq_lb] at lb
  obtain ⟨hq, hr⟩ := divWords_eq s.W s.inputA s.inputB s.cfg.W_pos (inputA_bounded s) (inputB_bounded s) la lb h0
  rw [State.quotient, State.remainder, ← length_inputA_eq_la, ← length_inputB_eq_lb, State.valA, State.valB, ← hq, ← hr]
  rfl

/-! ## DIV on the state (43_divide R170) -/

/-- Settles O14: DIV passes the checks and stores the words of quotient and remainder; the remainder is below the divisor, so
its spare word is 0 and does not count in R2_LEN. -/
theorem divStoresQuotientAndRemainder : Obligations.DivStoresQuotientAndRemainder := by
  intro s hwf hplaced h0
  have hcheck := check_div_of_twoInputsTwoOutputs hplaced h0
  obtain ⟨⟨⟨⟨la, -⟩, ⟨lb, -⟩, -⟩, -⟩, -, -, apart⟩ := hplaced
  have placed := apart.before la (Nat.succ_pos _)
  obtain ⟨m, hexec, readQ, readR⟩ := exec_stores_two_arrays hwf hcheck (effectOf_div s la lb h0)
    (wordsOf_bounded _ _ _) (wordsOf_bounded _ _ _) (by simpa using placed)
  rw [length_quotient] at readQ
  rw [length_remainder] at readR
  have hpos : 1 ≤ s.quotient.length := la.trans_eq (length_quotient s).symm
  have normR : IsNormLen (normLen s.remainder) s.remainder := isNormLen_normLen _ (by simp)
  have spare := getD_remainder_spare s h0
  refine ⟨m, normLen s.quotient, normLen s.remainder, hexec, ?_⟩
  rw [← getD_readArray s.cfg m s.r2Addr (Nat.lt_succ_self s.lb), readQ, readR, val_quotient, val_remainder s h0]
  exact ⟨rfl, rfl, spare, isNormLen_normLen _ hpos, normR, (normLen_le _ hpos).trans_eq (length_quotient s),
    normR.le_of_top_zero (length_remainder s) lb spare, Nat.div_add_mod' .., Nat.mod_lt _ (Nat.pos_of_ne_zero h0)⟩

end Sys2Proof.Machine
end

section
/-! PROOFS. SHL and SHR (44_shift): the values the shifted words hold, and SHR by `s` as what undoes SHL by `s` (R186). -/

namespace Sys2Proof.Machine

/-! ## The values of the shifted words (44_shift R186) -/

/-- A left shift by less than a word needs one word more. -/
theorem val_wordsOf_shl {w k : Nat} {a : WordArray} (ha : Bounded w a) (hk : k < w) :
    val w (wordsOf w (a.length + 1) (val w a * 2 ^ k)) = val w a * 2 ^ k := by
  apply val_wordsOf_of_lt
  calc val w a * 2 ^ k < 2 ^ (w * a.length) * 2 ^ k := Nat.mul_lt_mul_of_pos_right (val_lt w a ha) (Nat.two_pow_pos k)
    _ = 2 ^ (w * a.length + k) := (Nat.pow_add ..).symm
    _ ≤ 2 ^ (w * (a.length + 1)) := Nat.pow_le_pow_right (by decide) (Nat.add_le_add_left hk.le _)

/-- A right shift needs no more words than its input. -/
theorem val_wordsOf_shr {w : Nat} {a : WordArray} (ha : Bounded w a) (k : Nat) :
    val w (wordsOf w a.length (val w a / 2 ^ k)) = val w a / 2 ^ k :=
  val_wordsOf_of_lt (Nat.lt_of_le_of_lt (Nat.div_le_self ..) (val_lt w a ha))

/-! ## The first R_LEN words of a shift (44_shift R185, R190) -/

theorem shlEffect_result {w k : Nat} {a : WordArray} (ha : Bounded w a) (hk : k < w) :
    (shlEffect w k a).result = (wordsOf w (a.length + 1) (val w a * 2 ^ k)).take
      (normLen (wordsOf w (a.length + 1) (val w a * 2 ^ k))) := by
  rw [← (shlEffect_eq w k a ha hk).1]
  rfl

theorem shrEffect_result {w k : Nat} {a : WordArray} (ha : Bounded w a) (hk : k < w) :
    (shrEffect w k a).result = (wordsOf w a.length (val w a / 2 ^ k)).take
      (normLen (wordsOf w a.length (val w a / 2 ^ k))) := by
  rw [← shrEffect_eq w k a ha hk]
  rfl

/-- The first R_LEN words that SHR writes are the normalized array of the floor. -/
theorem shrEffect_result_eq {w k : Nat} {x a : WordArray} (hx : Bounded w x) (ha : Bounded w a) (hk : k < w)
    (lx : 1 ≤ x.length) (la : 1 ≤ a.length) (na : Normalized a) (h : val w x / 2 ^ k = val w a) :
    (shrEffect w k x).result = a := by
  rw [shrEffect_result hx hk]
  exact take_normLen_eq (wordsOf_bounded _ _ _) ha (by simpa using lx) la na ((val_wordsOf_shr hx k).trans h)

/-- R_LEN of SHR counts the words of its result. -/
theorem shrEffect_rLen (w k : Nat) (x : WordArray) (lx : 1 ≤ x.length) :
    (shrEffect w k x).rLen = some (shrEffect w k x).result.length := by
  have hr : 1 ≤ (shrEffect w k x).r.length := by simpa [shrEffect] using lx
  exact congrArg some (take_normLen_normalized _ hr).1.symm

/-! ## SHR undoes SHL (44_shift R186) -/

/-- Settles O24: the first R_LEN words of SHL hold `val(A)·2^s`, so its floor by `2^s` is `val(A)`, and A is the normalized
array of that value. -/
theorem shrUndoesShl : Obligations.ShrUndoesShl := by
  intro w k a hk ha la na
  have hshl : val w (shlEffect w k a).result = val w a * 2 ^ k := by
    rw [shlEffect_result ha hk, val_take_normLen, val_wordsOf_shl ha hk]
  have bounded : Bounded w (shlEffect w k a).result := shlEffect_result ha hk ▸ take_bounded _ (wordsOf_bounded _ _ _)
  have nonempty : 1 ≤ (shlEffect w k a).result.length :=
    shlEffect_result ha hk ▸ one_le_length_take_normLen _ (by simp)
  have hback : (shrEffect w k (shlEffect w k a).result).result = a :=
    shrEffect_result_eq bounded ha hk nonempty la na (by rw [hshl, Nat.mul_div_cancel _ (Nat.two_pow_pos k)])
  exact ⟨(shlEffect_eq w k a ha hk).1, shrEffect_eq w k a ha hk, hback, by rw [shrEffect_rLen w k _ nonempty, hback]⟩

end Sys2Proof.Machine
end

section
/-! PROOFS. SCONV (46_twos_complement): the sign of an array by its value (R13), what each use of SCONV means (R217), and the
round trip of a magnitude and a sign (R218). -/

namespace Sys2Proof.Machine

/-! ## The sign bit, by the value (00_scope R13) -/

@[simp] theorem topBit_append_word (w x : Nat) (xs : WordArray) : topBit w (xs ++ [x]) = x.testBit (w - 1) := by
  simp [topBit, topWord]

/-- The top bit of a W-bit word says whether the word reaches half of `2^W`. -/
theorem testBit_top_iff {w x : Nat} (hw : 0 < w) (hx : x < 2 ^ w) : x.testBit (w - 1) = true ↔ 2 ^ (w - 1) ≤ x := by
  rw [← mul_pow_sub_one hw.ne' 2, Nat.mul_comm] at hx
  have quotient : x / 2 ^ (w - 1) < 2 := Nat.div_lt_of_lt_mul hx
  have reaches : 1 ≤ x / 2 ^ (w - 1) ↔ 2 ^ (w - 1) ≤ x := Nat.one_le_div_iff (Nat.two_pow_pos _)
  rw [Nat.testBit_eq_decide_div_mod_eq, decide_eq_true_iff, ← reaches]
  generalize x / 2 ^ (w - 1) = q at quotient
  omega

/-- The sign of an array by its value: the words below the top one decide nothing, as they stay below a unit of it. -/
theorem topBit_iff {w : Nat} {xs : WordArray} (hw : 0 < w) (hx : Bounded w xs) (lx : 1 ≤ xs.length) :
    topBit w xs = true ↔ 2 ^ (w * xs.length) ≤ 2 * val w xs := by
  obtain rfl | ⟨ys, x, rfl⟩ := xs.eq_nil_or_concat'
  · simp at lx
  obtain ⟨hys, hxx⟩ := bounded_append.1 hx
  have low := val_lt w ys hys
  rw [topBit_append_word, testBit_top_iff hw (hxx x (List.mem_singleton_self x)), val_append, List.length_append,
    List.length_singleton, pow_mul_succ, ← mul_pow_sub_one hw.ne' 2, val_cons, val_nil]
  generalize val w ys = v at *
  generalize 2 ^ (w * ys.length) = p at *
  generalize 2 ^ (w - 1) = half
  constructor
  · intro hle
    have := Nat.mul_le_mul_left p hle
    linarith
  · intro hle
    have : p * half < p * (x + 1) := by linarith
    exact Nat.le_of_lt_succ (Nat.lt_of_mul_lt_mul_left this)

/-- Zero reads nonnegative. -/
theorem val_ne_zero_of_topBit {w : Nat} {xs : WordArray} (h : topBit w xs = true) : val w xs ≠ 0 := by
  have htop : topWord xs ≠ 0 := fun h0 => by simp [topBit, h0] at h
  exact Nat.ne_of_gt (Nat.lt_of_lt_of_le (Nat.two_pow_pos _) (le_val_of_topWord w xs htop))

/-- The value of a two's-complement array by its sign. -/
theorem sval_of_topBit {w : Nat} {xs : WordArray} {b : Bool} (h : topBit w xs = b) :
    sval w xs = val w xs - if b = true then 2 ^ (w * xs.length) else 0 := by
  rw [sval, h]

/-- A two's-complement array is negative iff its top bit is set (46_twos_complement R225). -/
theorem sval_neg_iff {w : Nat} {xs : WordArray} (hx : Bounded w xs) : sval w xs < 0 ↔ topBit w xs = true := by
  cases h : topBit w xs with
  | false => simp [sval_of_topBit h]
  | true =>
    have bound : (val w xs : Int) < 2 ^ (w * xs.length) := mod_cast val_lt w xs hx
    simpa [sval_of_topBit h] using bound

/-! ## SCONV as its body and a guard word (46_twos_complement R215, R216) -/

/-- The guard word: 0 for a result to read nonnegative, all-ones for one to read negative (46_twos_complement R215). -/
def guardWord (w : Nat) (rneg : Bool) : Nat := if rneg = true then 2 ^ w - 1 else 0

theorem guardWord_lt (w : Nat) (rneg : Bool) : guardWord w rneg < 2 ^ w := by
  have := Nat.two_pow_pos w
  cases rneg <;> simp [guardWord]

/-- The guard word reads as the sign it stands for. -/
theorem testBit_guardWord {w : Nat} (hw : 0 < w) (rneg : Bool) : (guardWord w rneg).testBit (w - 1) = rneg := by
  cases rneg <;> simp [guardWord, Nat.testBit_two_pow_sub_one, hw]

theorem twos_bounded (w : Nat) (a : WordArray) : Bounded w (twos w a).1 := twosChain_bounded w 1 a

/-- Matching polarities: a copy (46_twos_complement R215). -/
@[simp] theorem sconvBody_same (w : Nat) (r : Bool) (a : WordArray) : sconvBody w r r a = a := if_pos rfl

/-- Differing polarities: the two's complement (46_twos_complement R215). -/
theorem sconvBody_of_ne {w : Nat} {aneg rneg : Bool} {a : WordArray} (h : aneg ≠ rneg) :
    sconvBody w aneg rneg a = (twos w a).1 := if_neg h

@[simp] theorem length_sconvBody (w : Nat) (aneg rneg : Bool) (a : WordArray) :
    (sconvBody w aneg rneg a).length = a.length := by
  rcases eq_or_ne aneg rneg with rfl | h
  · rw [sconvBody_same]
  · rw [sconvBody_of_ne h, length_twos]

theorem sconvBody_bounded {w : Nat} (aneg rneg : Bool) {a : WordArray} (ha : Bounded w a) :
    Bounded w (sconvBody w aneg rneg a) := by
  rcases eq_or_ne aneg rneg with rfl | h
  · rwa [sconvBody_same]
  · rw [sconvBody_of_ne h]
    exact twos_bounded w a

theorem sconvEffect_flag_iff (w : Nat) (aneg rneg : Bool) (a : WordArray) :
    (sconvEffect w aneg rneg a).flag = true ↔ topBit w (sconvBody w aneg rneg a) ≠ rneg := by
  simp [sconvEffect, sconvFlag, sconvGuard]

/-- The first R_LEN words of SCONV: the body where it reads with the sign wanted, else the body and the guard word. -/
theorem sconvResult_eq (w : Nat) (aneg rneg : Bool) (a : WordArray) : sconvResult w aneg rneg a =
    if topBit w (sconvBody w aneg rneg a) = rneg then sconvBody w aneg rneg a
    else sconvBody w aneg rneg a ++ [guardWord w rneg] := by
  by_cases h : topBit w (sconvBody w aneg rneg a) = rneg
  · simp [sconvResult, sconvEffect, Effect.result, sconvGuard, h]
  · simp [sconvResult, sconvEffect, Effect.result, sconvGuard, sconvLast, guardWord, h]

theorem sconvResult_of_no_guard {w : Nat} {aneg rneg : Bool} {a : WordArray}
    (h : topBit w (sconvBody w aneg rneg a) = rneg) : sconvResult w aneg rneg a = sconvBody w aneg rneg a := by
  rw [sconvResult_eq, if_pos h]

theorem sconvResult_of_guard {w : Nat} {aneg rneg : Bool} {a : WordArray}
    (h : topBit w (sconvBody w aneg rneg a) ≠ rneg) :
    sconvResult w aneg rneg a = sconvBody w aneg rneg a ++ [guardWord w rneg] := by
  rw [sconvResult_eq, if_neg h]

/-- "In every case the top bit of word `R_LEN − 1` equals `rneg`" (46_twos_complement R216). -/
theorem topBit_sconvResult {w : Nat} (hw : 0 < w) (aneg rneg : Bool) (a : WordArray) :
    topBit w (sconvResult w aneg rneg a) = rneg := by
  by_cases h : topBit w (sconvBody w aneg rneg a) = rneg
  · rw [sconvResult_of_no_guard h, h]
  · rw [sconvResult_of_guard h, topBit_append_word, testBit_guardWord hw]

theorem sconvResult_bounded {w : Nat} (aneg rneg : Bool) {a : WordArray} (ha : Bounded w a) :
    Bounded w (sconvResult w aneg rneg a) := by
  have body := sconvBody_bounded aneg rneg ha
  rw [sconvResult_eq]
  split
  · exact body
  · exact bounded_append.2 ⟨body, List.forall_mem_singleton.2 (guardWord_lt w rneg)⟩

theorem length_le_length_sconvResult (w : Nat) (aneg rneg : Bool) (a : WordArray) :
    a.length ≤ (sconvResult w aneg rneg a).length := by
  rw [sconvResult_eq]
  split <;> simp

/-- A result to read nonnegative has the value of the body, with or without the guard word. -/
theorem val_sconvResult_nonneg (w : Nat) (aneg : Bool) (a : WordArray) :
    val w (sconvResult w aneg false a) = val w (sconvBody w aneg false a) := by
  rw [sconvResult_eq]
  split
  · rfl
  · simp [val_append, guardWord]

/-- The two's-complement value SCONV gives: that of the body, less `2^(W·la)` for a result to read negative. -/
theorem sval_sconvResult {w : Nat} (hw : 0 < w) (aneg rneg : Bool) (a : WordArray) :
    sval w (sconvResult w aneg rneg a) =
      val w (sconvBody w aneg rneg a) - if rneg = true then 2 ^ (w * a.length) else 0 := by
  rw [sval_of_topBit (topBit_sconvResult hw aneg rneg a)]
  cases rneg with
  | false => simp [val_sconvResult_nonneg]
  | true =>
    by_cases h : topBit w (sconvBody w aneg true a) = true
    · simp [sconvResult_of_no_guard h]
    · rw [sconvResult_of_guard h, val_append, List.length_append, length_sconvBody, List.length_singleton, val_cons, val_nil]
      simp only [guardWord, reduceIte]
      push_cast [Nat.cast_pred (Nat.two_pow_pos w)]
      ring

/-! ## What each use of SCONV means (46_twos_complement R217) -/

/-- The complement of a nonzero array (46_twos_complement R221). -/
theorem val_twos_of_ne_zero {w : Nat} {a : WordArray} (ha : Bounded w a) (h0 : val w a ≠ 0) :
    val w (twos w a).1 = 2 ^ (w * a.length) - val w a := by
  rw [(twos_val w a ha).1, Nat.mod_eq_of_lt (Nat.sub_lt (Nat.two_pow_pos _) (Nat.pos_of_ne_zero h0))]

/-- An array that is its own complement modulo `2^(W·n)` comes back from `twos`: zero and the most negative value. -/
theorem twos_eq_self {w : Nat} {a : WordArray} (ha : Bounded w a)
    (h : (2 ^ (w * a.length) - val w a) % 2 ^ (w * a.length) = val w a) : (twos w a).1 = a :=
  val_inj w _ _ (length_twos w a) (twos_bounded w a) ha ((twos_val w a ha).1.trans h)

theorem sval_sconv_positive {w : Nat} (hw : 0 < w) (a : WordArray) : sval w (sconvResult w false false a) = val w a := by
  simp [sval_sconvResult hw]

theorem sval_sconv_negative {w : Nat} {a : WordArray} (hw : 0 < w) (ha : Bounded w a) (h0 : val w a ≠ 0) :
    sval w (sconvResult w false true a) = - (val w a : Int) := by
  have body : val w (sconvBody w false true a) = 2 ^ (w * a.length) - val w a := val_twos_of_ne_zero ha h0
  rw [sval_sconvResult hw, body, Nat.cast_sub (val_lt w a ha).le]
  push_cast
  simp

/-- Back to a magnitude: `2^(W·la) − val(A)` is the negated value of a negative array. -/
theorem val_sconv_back {w : Nat} {a : WordArray} (ha : Bounded w a) (hneg : sval w a < 0) :
    (val w (sconvResult w true false a) : Int) = - sval w a := by
  have htop := (sval_neg_iff ha).1 hneg
  have body : val w (sconvBody w true false a) = 2 ^ (w * a.length) - val w a :=
    val_twos_of_ne_zero ha (val_ne_zero_of_topBit htop)
  rw [val_sconvResult_nonneg, body, Nat.cast_sub (val_lt w a ha).le, sval_of_topBit htop]
  push_cast
  simp

/-- The complement of a negative array still reads negative for the most negative value alone. -/
theorem topBit_twos_iff_of_neg {w : Nat} {a : WordArray} (hw : 0 < w) (ha : Bounded w a) (la : 1 ≤ a.length)
    (hneg : sval w a < 0) : topBit w (twos w a).1 = true ↔ sval w a = - 2 ^ (w * a.length - 1) := by
  have htop := (sval_neg_iff ha).1 hneg
  have bound := val_lt w a ha
  have upper := (topBit_iff hw ha la).1 htop
  have half : 2 * 2 ^ (w * a.length - 1) = 2 ^ (w * a.length) := mul_pow_sub_one (Nat.mul_pos hw la).ne' 2
  rw [topBit_iff hw (twos_bounded w a) (la.trans_eq (length_twos w a).symm), length_twos,
    val_twos_of_ne_zero ha (val_ne_zero_of_topBit htop), sval_of_topBit htop, if_pos rfl]
  zify [bound.le] at upper half ⊢
  omega

/-- Negative zero: the complement of 0 is 0, which reads nonnegative (46_twos_complement R217). -/
theorem sconvBody_zero {w : Nat} {a : WordArray} (ha : Bounded w a) (h0 : val w a = 0) : sconvBody w false true a = a :=
  twos_eq_self ha (by simp [h0])

/-- Settles O25: SCONV is a body of a known value and the guard word of the sign wanted, so each row is the value of its body,
and its guard word is there iff the body reads with the other sign. -/
theorem sconvMeaning : Obligations.SconvMeaning := by
  intro w a hw ha la
  refine ⟨⟨sval_sconv_positive hw a, ?_⟩, fun h0 => ⟨sval_sconv_negative hw ha h0, ?_, ?_⟩,
    fun hneg => ⟨val_sconv_back ha hneg, ?_, ?_⟩, fun hnonneg => ?_, fun r => ?_, fun h0 => ⟨?_, ?_⟩⟩
  · exact (sconvEffect_flag_iff w false false a).trans (Bool.not_eq_false _).to_iff
  · exact (sconvEffect_flag_iff w false true a).trans (Bool.not_eq_true _).to_iff
  · exact fun guard => sconvResult_of_guard ((sconvEffect_flag_iff w false true a).1 guard)
  · rw [← topBit_twos_iff_of_neg hw ha la hneg]
    exact (sconvEffect_flag_iff w true false a).trans (Bool.not_eq_false _).to_iff
  · exact fun guard => sconvResult_of_guard ((sconvEffect_flag_iff w true false a).1 guard)
  · exact sconvResult_of_no_guard (Bool.eq_false_iff.2 fun h => hnonneg.not_gt ((sval_neg_iff ha).2 h))
  · simpa only [sconvBody_same, guardWord] using sconvResult_eq w r r a
  · have htop : topBit w a ≠ true := fun h => val_ne_zero_of_topBit h h0
    rw [← sconvBody_zero ha h0] at htop
    rw [sconvResult_of_guard htop, sconvBody_zero ha h0]
    rfl
  · rw [sval_sconvResult hw, sconvBody_zero ha h0, h0]
    simp

/-! ## The round trip of a magnitude and a sign (46_twos_complement R218) -/

/-- To two's complement and back gives the magnitude's value. -/
theorem val_sconv_roundTrip {w : Nat} {m : WordArray} {neg : Bool} (hw : 0 < w) (hm : Bounded w m)
    (h : val w m ≠ 0 ∨ neg = false) :
    val w (sconvResult w neg false (sconvResult w false neg m)) = val w m := by
  cases neg with
  | false => simp [val_sconvResult_nonneg]
  | true =>
    have h0 : val w m ≠ 0 := h.resolve_right (by decide)
    have hsval := sval_sconv_negative hw hm h0
    have hneg : sval w (sconvResult w false true m) < 0 := by omega
    have back := val_sconv_back (sconvResult_bounded false true hm) hneg
    omega

/-- The most negative value is its own complement. -/
theorem twos_mostNegative {w : Nat} (hw : 0 < w) : (twos w [2 ^ (w - 1)]).1 = [2 ^ (w - 1)] := by
  have half : 2 * 2 ^ (w - 1) = 2 ^ w := mul_pow_sub_one hw.ne' 2
  refine twos_eq_self (List.forall_mem_singleton.2 (Nat.pow_lt_pow_right (by decide) (Nat.sub_lt hw Nat.one_pos))) ?_
  have hpos := Nat.two_pow_pos (w - 1)
  simp only [val_cons, val_nil, List.length_singleton, Nat.mul_one, Nat.mul_zero, Nat.add_zero]
  rw [Nat.mod_eq_of_lt] <;> omega

/-- Settles O26: the way back gives an array of the value `val(m)`, whose first `norm_len` words are `m` since `m` is the
normalized array of that value; the sign is the top bit that SCONV leaves. -/
theorem sconvRoundTrip : Obligations.SconvRoundTrip := by
  constructor
  · intro w m neg hw hm lm nm h t u
    have hu : val w u = val w m := val_sconv_roundTrip hw hm h
    have bounded : Bounded w u := sconvResult_bounded neg false (sconvResult_bounded false neg hm)
    have nonempty : 1 ≤ u.length :=
      lm.trans ((length_le_length_sconvResult w false neg m).trans (length_le_length_sconvResult w neg false t))
    have words : u.take (normLen u) = m := take_normLen_eq bounded hm nonempty lm nm hu
    have hlen : normLen u = m.length := by rw [← (take_normLen_normalized u nonempty).1, words]
    refine ⟨?_, hu, congrArg some hlen, hlen ▸ words, topBit_sconvResult hw false neg m⟩
    cases neg with
    | false => exact sval_sconv_positive hw m
    | true => exact sval_sconv_negative hw hm (h.resolve_right (by decide))
  · intro w hw
    have top : topBit w [2 ^ (w - 1)] = true := by simp [topBit, topWord, Nat.testBit_two_pow_self]
    have body (aneg rneg : Bool) : sconvBody w aneg rneg [2 ^ (w - 1)] = [2 ^ (w - 1)] := by
      rcases eq_or_ne aneg rneg with rfl | h
      · exact sconvBody_same ..
      · exact (sconvBody_of_ne h).trans (twos_mostNegative hw)
    simp [sconvResult_eq, body, top, guardWord]

end Sys2Proof.Machine
end

section
/-! PROOFS. The checks of a completion step (60_exceptions R242 to R244, R249): the model's tests are the conditions of the rules,
the first that holds gives the error code, and a completion of a command is decided by it (R246 to R248). -/

namespace Sys2Proof.Machine

/-! ## Lengths of regions (20_memory R75) -/

/-- The input regions that a command uses are not empty, once the check LEN has passed. -/
theorem pos_of_not_badLen {i : Instr} {s : State} (h : ¬ BadLen i s) : 0 < s.la ∧ (usesB i = true → 0 < s.lb) := by
  obtain ⟨hA, hB⟩ := not_or.1 h
  exact ⟨Nat.pos_of_ne_zero hA, fun uses => Nat.pos_of_ne_zero fun h0 => hB ⟨uses, h0⟩⟩

/-- Every capacity at R is at least one word where A has one. -/
theorem capR_pos {la lb n : Nat} {i : Instr} (ha : 0 < la) (h : capR la lb i = some n) : 0 < n := by
  cases i <;> simp only [capR, Option.some.injEq, reduceCtorEq] at h <;> omega

/-- The capacity at R2, which DIV alone has, counts the spare word. -/
theorem capR2_pos {lb n : Nat} {i : Instr} (h : capR2 lb i = some n) : 0 < n := by
  cases i <;> simp only [capR2, Option.some.injEq, reduceCtorEq] at h
  case div => omega

theorem regionR_len_pos {i : Instr} {d : Descriptors} {r : Region} (ha : 0 < d.aLen.toNat) (h : regionR i d = some r) :
    0 < r.len := by
  obtain ⟨n, hn, rfl⟩ := Option.map_eq_some_iff.1 h
  exact capR_pos ha hn

theorem regionR2_len_pos {i : Instr} {d : Descriptors} {r : Region} (h : regionR2 i d = some r) : 0 < r.len := by
  obtain ⟨n, hn, rfl⟩ := Option.map_eq_some_iff.1 h
  exact capR2_pos hn

theorem outputRegions_len_pos {i : Instr} {d : Descriptors} {o : Region} (ha : 0 < d.aLen.toNat)
    (h : o ∈ outputRegions i d) : 0 < o.len := by
  rcases List.mem_append.1 h with hR | hR2
  · exact regionR_len_pos ha (Option.mem_toList.1 hR)
  · exact regionR2_len_pos (Option.mem_toList.1 hR2)

/-! ## Each test of the model is the condition of its rule -/

theorem shiftTooFar_iff (i : Instr) (s : State) : shiftTooFar s.cfg i = true ↔ BadShift i s := by
  cases i <;> simp [shiftTooFar, BadShift, State.W]

theorem zeroLength_iff (i : Instr) (s : State) :
    (s.shadow.desc.aLen = 0 ∨ (usesB i = true ∧ s.shadow.desc.bLen = 0)) ↔ BadLen i s := by
  rw [← BitVec.toNat_inj, ← BitVec.toNat_inj]
  rfl

theorem outOfRange_iff (i : Instr) (s : State) :
    (inputRegions i s.shadow.desc ++ outputRegions i s.shadow.desc).any (fun r => !r.inRange s.cfg) = true ↔
      BadRange i s := by
  simp only [List.any_eq_true, Bool.not_eq_true', ← Bool.not_eq_true, Region.inRange_iff]
  rfl

/-- One output region is well placed: clear of B, and clear of A or in place (20_memory R78). The overlap test is right only for
regions that are not empty, hence the hypotheses. -/
theorem outputPlaced_iff {i : Instr} {d : Descriptors} {o : Region} (ho : 0 < o.len) (ha : 0 < d.aLen.toNat)
    (hb : usesB i = true → 0 < d.bLen.toNat) :
    outputPlaced i d o = true ↔ ¬ ((usesB i = true ∧ ¬ o.Apart (regionB d)) ∨
      (¬ o.Apart (regionA d) ∧ ¬ (mayBeInPlace i = true ∧ o.base = d.aBase.toNat))) := by
  have meetsA := Region.overlaps_iff o (regionA d) ho ha
  have meetsB (uses : usesB i = true) := Region.overlaps_iff o (regionB d) ho (hb uses)
  cases uses : usesB i with
  | false => simp [outputPlaced, uses, ← meetsA, imp_iff_not_or]
  | true => simp [outputPlaced, uses, ← meetsA, ← meetsB uses, imp_iff_not_or]

theorem outputsApart_iff {i : Instr} {d : Descriptors} (ha : 0 < d.aLen.toNat) :
    outputsApart i d = true ↔ ¬ ∃ r ∈ regionR i d, ∃ r2 ∈ regionR2 i d, ¬ r.Apart r2 := by
  rw [outputsApart]
  cases hR : regionR i d with
  | none => simp
  | some r =>
    cases hR2 : regionR2 i d with
    | none => simp
    | some r2 =>
      have meets := Region.overlaps_iff r r2 (regionR_len_pos ha hR) (regionR2_len_pos hR2)
      simp [← meets]

theorem misplaced_iff {i : Instr} {s : State} (hlen : ¬ BadLen i s) :
    ¬ placementLegal i s.shadow.desc = true ↔ BadPlacement i s := by
  obtain ⟨ha, hb⟩ := pos_of_not_badLen hlen
  have placed : (∀ o ∈ outputRegions i s.shadow.desc, outputPlaced i s.shadow.desc o = true) ↔ _ :=
    forall₂_congr fun o ho => outputPlaced_iff (outputRegions_len_pos ha ho) ha hb
  rw [placementLegal, Bool.and_eq_true, List.all_eq_true, placed, outputsApart_iff ha, not_and_or, not_not]
  refine or_congr_left ?_
  push Not
  rfl

theorem unnormalizedInput_iff {i : Instr} {s : State} (hlen : ¬ BadLen i s) :
    unnormalizedInput i s = true ↔ BadNorm i s := by
  obtain ⟨ha, hb⟩ := pos_of_not_badLen hlen
  have normA := isNormalized_iff_Normalized s.inputA (ha.trans_eq (length_inputA_eq_la s).symm)
  have normB (uses : usesB i = true) :=
    isNormalized_iff_Normalized s.inputB ((hb uses).trans_eq (length_inputB_eq_lb s).symm)
  cases uses : usesB i with
  | false => simp [unnormalizedInput, BadNorm, uses, ← normA]
  | true => simp [unnormalizedInput, BadNorm, uses, ← normA, ← normB uses]

/-! ## The first check that fails (60_exceptions R242) -/

open Classical in
/-- The check in the words of the rules. The tests of placement and of normalization come after LEN, so that they meet no empty
region. -/
theorem check_eq_first_failed (i : Instr) (s : State) : check i s =
    if BadShift i s then .shamt
    else if BadLen i s then .len
    else if BadRange i s then .range
    else if BadPlacement i s then .overlap
    else if BadNorm i s then .notnorm
    else if BadDivisor i s then .div0
    else if BadDifference i s then .underflow
    else .noError := by
  refine ite_congr (propext (shiftTooFar_iff i s)) (fun _ => rfl) fun _ => ?_
  refine ite_congr (propext (zeroLength_iff i s)) (fun _ => rfl) fun hlen => ?_
  refine ite_congr (propext (outOfRange_iff i s)) (fun _ => rfl) fun _ => ?_
  refine ite_congr (propext (misplaced_iff hlen)) (fun _ => rfl) fun _ => ?_
  refine ite_congr (propext (unnormalizedInput_iff hlen)) (fun _ => rfl) fun _ => ?_
  exact ite_congr rfl (fun _ => rfl) fun _ => ite_congr rfl (fun _ => rfl) fun _ => rfl

/-- Of DIV0 and UNDERFLOW a command can meet one only. -/
theorem not_badDivisor_of_badDifference {i : Instr} {s : State} (h : BadDifference i s) : ¬ BadDivisor i s := by
  obtain ⟨rfl, -⟩ := h
  exact nofun

/-! ## The completion step of a command (60_exceptions R246 to R248) -/

theorem completionStep_of_decode {s : State} {i : Instr} (h : decode s.shadow.cmd = .ok i) :
    completionStep s = exec i s := by
  rw [completionStep, h]

/-- A failed check changes STATUS alone. -/
theorem completionStep_of_failed {s : State} {i : Instr} (h : decode s.shadow.cmd = .ok i) {e : ECode}
    (hcheck : check i s = e) (he : e ≠ .noError) : completionStep s = .next (s.erroredWith e) := by
  rw [completionStep_of_decode h, exec_of_failed i s e hcheck he, errorCompletion_eq_erroredWith]

theorem completionStep_of_passed {s : State} {i : Instr} (h : decode s.shadow.cmd = .ok i)
    (hcheck : check i s = .noError) :
    ∃ m rLen r2Len res flag, completionStep s = .next (s.completedWith m rLen r2Len res flag) := by
  rw [completionStep_of_decode h, exec_of_check i s hcheck]
  exact ⟨_, _, _, _, _, rfl⟩

/-- Settles O10: an illegal word ends as O4 says; for a command each clause picks its branch of the check in the words of the
rules. -/
theorem firstFailedCheckIsReported : Obligations.FirstFailedCheckIsReported := by
  refine ⟨completionStep_of_illegalWord, fun s i h => ?_⟩
  have failed {e : ECode} := completionStep_of_failed h (e := e)
  have hcheck := check_eq_first_failed i s
  refine ⟨?shamt, ?len, ?range, ?overlap, ?notnorm, ?div0, ?underflow, ?pass⟩
  case shamt => exact fun shift => failed (by simp [hcheck, shift]) nofun
  case len => exact fun shift len => failed (by simp [hcheck, shift, len]) nofun
  case range => exact fun shift len range => failed (by simp [hcheck, shift, len, range]) nofun
  case overlap =>
    exact fun shift len range place => failed (by simp [hcheck, shift, len, range, place]) nofun
  case notnorm =>
    exact fun shift len range place norm => failed (by simp [hcheck, shift, len, range, place, norm]) nofun
  case div0 =>
    exact fun shift len range place norm div => failed (by simp [hcheck, shift, len, range, place, norm, div]) nofun
  case underflow =>
    intro shift len range place norm sub
    have div := not_badDivisor_of_badDifference sub
    exact failed (by simp [hcheck, shift, len, range, place, norm, div, sub]) nofun
  case pass =>
    intro shift len range place norm div sub
    exact completionStep_of_passed h (by simp [hcheck, shift, len, range, place, norm, div, sub])

end Sys2Proof.Machine
end

section
/-! PROOFS. The interrupt line (60_exceptions R250): what it is, that a completion alone sets DONE, and what lowers the line. -/

namespace Sys2Proof.Machine

/-! ## Only a completion sets DONE -/

theorem writeReg_done_of_not_done (v : Reg) {s : State} (r : RegName) (h : s.status.done = false) :
    (writeReg v s r).status.done = false := by
  rcases writeReg_cases v s r with ⟨-, -, hw⟩ | ⟨-, -, hw⟩ | ⟨-, -, hw⟩ | ⟨-, hw⟩ | ⟨ie, d, hw⟩ <;> rw [hw]
  · rfl
  · exact h
  · rfl
  · simp [h]
  · exact h

theorem hostRegWrite_done_of_not_done (k : BitVec 4) (v : Reg) {s : State} (h : s.status.done = false) :
    (hostRegWrite k v s).status.done = false := by
  rw [hostRegWrite]
  split
  · exact writeReg_done_of_not_done v _ h
  · exact h

/-- Of the accesses only a register write touches STATUS, and none sets DONE. -/
theorem issue_done_of_not_done {r : Request} {s t : State} (ht : issue r s = .next t) (h : s.status.done = false) :
    t.status.done = false := by
  rcases issue_cases r s t ht with ⟨k, -, rfl⟩ | ⟨k, v, -, rfl⟩ | ⟨-, -, rfl⟩ | ⟨-, a, -, -, rfl⟩ | ⟨-, a, v, -, -, rfl⟩
  · exact h
  · exact hostRegWrite_done_of_not_done k v h
  · exact h
  · exact h
  · exact h

/-- A step after which DONE is 1 where it was 0 is the completion of the command in flight: no other move sets DONE. -/
theorem completionStep_of_step_sets_done {s t : State} (hstep : step s = .next t) (before : s.status.done = false)
    (after : t.status.done = true) : s.status.busy = true ∧ ∃ rest, completionStep { s with inputs := rest } = .next t := by
  cases step_move s t hstep with
  | complete rest busy ht => exact ⟨busy, rest, ht⟩
  | idle rest _ ht => subst ht; exact absurd (after.symm.trans before) nofun
  | unhold r rest _ _ _ ht => exact absurd (after.symm.trans (issue_done_of_not_done ht before)) nofun
  | access r rest _ _ ht => exact absurd (after.symm.trans (issue_done_of_not_done ht before)) nofun
  | assertReset rest ht => subst ht; exact absurd after nofun
  | releaseReset rest ht => subst ht; exact absurd (after.symm.trans before) nofun

/-! ## The line -/

theorem irq_iff (s : State) : s.irq = true ↔ s.ie = true ∧ s.status.done = true := Bool.and_eq_true_iff

theorem irq_of_not_enabled {s : State} (h : s.ie = false) : s.irq = false := by rw [State.irq, h, Bool.false_and]

theorem irq_of_not_done {s : State} (h : s.status.done = false) : s.irq = false := by rw [State.irq, h, Bool.and_false]

/-- A write of CTRL leaves IE at bit 0, or at 0 after the soft reset that bit 1 asks for (10_state R38). -/
theorem writeCtrl_ie (v : Reg) (s : State) : (writeCtrl v s).ie = (v.getLsbD 0 && !v.getLsbD 1) := by
  rw [writeCtrl]
  split
  case isTrue h => rw [softReset_ie, h, Bool.not_true, Bool.and_false]
  case isFalse h => rw [Bool.eq_false_iff.2 h, Bool.not_false, Bool.and_true]

theorem phase_eq_busy {s : State} (h : s.status.busy = true) : s.phase = .busy := if_pos h

theorem phase_eq_idle {s : State} (h : s.status.busy = false) : s.phase = .idle := if_neg (Bool.eq_false_iff.1 h)

/-- Settles O50: a completion sets DONE and keeps IE, no other move sets DONE, and each of the lowering events clears DONE or IE. -/
theorem interruptLineIsEnableAndDone : Obligations.InterruptLineIsEnableAndDone := by
  intro s
  have hctrl (v : Reg) : hostRegWrite 1 v s = writeCtrl v s := hostRegWrite_index .ctrl v s
  refine ⟨irq_iff s, ?completion, ?source, ?statusWrite, ?disable, ?softReset, ?launch, ?resetInput⟩
  case completion =>
    intro t ht
    obtain ⟨-, done, -, ie, -⟩ := completionStep_frame s t ht
    exact ⟨done, by rw [State.irq, done, ie, Bool.and_true]⟩
  case source =>
    intro t hstep before after
    obtain ⟨busy, rest, ht⟩ := completionStep_of_step_sets_done hstep before after
    obtain ⟨idle, -⟩ := completionStep_frame _ t ht
    exact ⟨phase_eq_busy busy, phase_eq_idle idle, rest, ht⟩
  case statusWrite =>
    intro v hbit
    have hwrite : hostRegWrite 2 v s = acknowledge v s := hostRegWrite_index .status v s
    exact irq_of_not_done (by rw [hwrite, acknowledge_status, hbit, Bool.not_true, Bool.and_false])
  case disable =>
    intro v hbit
    exact irq_of_not_enabled (by rw [hctrl, writeCtrl_ie, hbit, Bool.false_and])
  case softReset =>
    intro v hbit
    exact irq_of_not_enabled (by rw [hctrl, writeCtrl_ie, hbit, Bool.not_true, Bool.and_false])
  case launch =>
    intro v idle
    have hwrite : hostRegWrite 3 v s = launch { s with cmd := v } :=
      (hostRegWrite_index .cmd v s).trans (if_neg (Bool.eq_false_iff.1 idle))
    exact irq_of_not_done (by rw [hwrite, launch_status])
  case resetInput => exact irq_of_not_enabled (assertReset_ie s)

end Sys2Proof.Machine
end

section
/-! PROOFS. Register writes while a command is in flight: a CMD write is dropped and sets OVR (70_reset R281), and a descriptor
write is performed at once and spares the command, which works from the shadow (R282). -/

namespace Sys2Proof.Machine

/-! ## A write of CMD in either phase (10_state R43) -/

theorem hostRegWrite_cmd_of_busy (v : Reg) {s : State} (h : s.status.busy = true) :
    hostRegWrite 3 v s = { s with status := { s.status with ovr := true } } :=
  (hostRegWrite_index .cmd v s).trans (if_pos h)

theorem hostRegWrite_cmd_of_idle (v : Reg) {s : State} (h : s.status.busy = false) :
    hostRegWrite 3 v s = launch { s with cmd := v } :=
  (hostRegWrite_index .cmd v s).trans (if_neg (Bool.eq_false_iff.1 h))

/-- Settles O33: the write sets OVR and leaves BUSY at the 1 it has. -/
theorem cmdWriteWhileBusySetsOverrun : Obligations.CmdWriteWhileBusySetsOverrun := by
  intro s v busy
  simp only [hostRegWrite_cmd_of_busy v busy, busy]

/-! ## The descriptor registers (10_state R44) -/

/-- The six descriptor registers. -/
inductive RegName.IsDescriptor : RegName → Prop where
  | aBase : IsDescriptor .aBase
  | aLen : IsDescriptor .aLen
  | bBase : IsDescriptor .bBase
  | bLen : IsDescriptor .bLen
  | rBase : IsDescriptor .rBase
  | r2Base : IsDescriptor .r2Base

/-- The descriptors with `v` in the register `r`, where `r` is one of them; `writeReg_descriptor` says that a write of a
descriptor register leaves these. -/
def Descriptors.write (d : Descriptors) (r : RegName) (v : Reg) : Descriptors where
  aBase := if r = .aBase then v else d.aBase
  aLen := if r = .aLen then v else d.aLen
  bBase := if r = .bBase then v else d.bBase
  bLen := if r = .bLen then v else d.bLen
  rBase := if r = .rBase then v else d.rBase
  r2Base := if r = .r2Base then v else d.r2Base

/-- The descriptor registers have the indices 4 to 9 (10_state R33). -/
theorem exists_descriptor_index {k : BitVec 4} (lo : 4 ≤ k) (hi : k ≤ 9) : ∃ r : RegName, r.IsDescriptor ∧ r.index = k := by
  have six : k = 4 ∨ k = 5 ∨ k = 6 ∨ k = 7 ∨ k = 8 ∨ k = 9 := by bv_omega
  rcases six with rfl | rfl | rfl | rfl | rfl | rfl
  · exact ⟨.aBase, .aBase, rfl⟩
  · exact ⟨.aLen, .aLen, rfl⟩
  · exact ⟨.bBase, .bBase, rfl⟩
  · exact ⟨.bLen, .bLen, rfl⟩
  · exact ⟨.rBase, .rBase, rfl⟩
  · exact ⟨.r2Base, .r2Base, rfl⟩

/-- No two indices select one register (10_state R33). -/
theorem index_of_ofIndex {j : BitVec 4} {q : RegName} (h : RegName.ofIndex j = some q) : q.index = j := by
  cases q <;> decide +revert

/-! ## What a descriptor write does to the registers (10_state R34, R35) -/

theorem writeReg_descriptor (v : Reg) (s : State) {r : RegName} (h : r.IsDescriptor) :
    writeReg v s r = { s with desc := s.desc.write r v } := by
  cases h <;> rfl

theorem regValue_write_same (v : Reg) (s : State) {r : RegName} (h : r.IsDescriptor) :
    regValue { s with desc := s.desc.write r v } r = v := by
  cases h <;> rfl

theorem regValue_write_other (v : Reg) (s : State) {r q : RegName} (h : r ≠ q) :
    regValue { s with desc := s.desc.write r v } q = regValue s q := by
  cases q with
  | aBase | aLen | bBase | bLen | rBase | r2Base => exact if_neg h
  | id | ctrl | status | cmd | rLen | r2Len | res => rfl

theorem hostRegRead_write_other (v : Reg) (s : State) {r : RegName} {j : BitVec 4} (h : j ≠ r.index) :
    hostRegRead j { s with desc := s.desc.write r v } = hostRegRead j s := by
  rw [hostRegRead, hostRegRead]
  cases hj : RegName.ofIndex j with
  | none => rfl
  | some q => exact regValue_write_other v s fun hrq => h (hrq ▸ (index_of_ofIndex hj).symm)

/-! ## The command in flight does not read the descriptor registers (70_reset R282) -/

theorem effectOf_with_desc (i : Instr) (s : State) (d : Descriptors) : effectOf i { s with desc := d } = effectOf i s := by
  cases i <;> rfl

theorem check_with_desc (i : Instr) (s : State) (d : Descriptors) : check i { s with desc := d } = check i s := rfl

theorem exec_with_desc {i : Instr} {s t : State} (h : exec i s = .next t) (d : Descriptors) :
    exec i { s with desc := d } = .next { t with desc := d } := by
  rcases exec_cases i s with ⟨hc, hx⟩ | ⟨hc, hx⟩
  · cases hx.symm.trans h
    rw [exec_of_check i _ ((check_with_desc i s d).trans hc), effectOf_with_desc]
    rfl
  · cases hx.symm.trans h
    rw [exec_of_failed i _ _ (check_with_desc i s d) hc]
    rfl

theorem completionStep_with_desc {s t : State} (h : completionStep s = .next t) (d : Descriptors) :
    completionStep { s with desc := d } = .next { t with desc := d } := by
  rcases completionStep_cases s with ⟨e, he, ht⟩ | ⟨i, hi, ht⟩
  · cases ht.symm.trans h
    exact completionStep_of_illegalWord _ ((illegalWord_iff_decode_error _).2 ⟨e, he⟩)
  · rw [completionStep_of_decode (s := { s with desc := d }) hi]
    exact exec_with_desc (ht.symm.trans h) d

theorem completionStep_keeps_desc {s t : State} (h : completionStep s = .next t) : t.desc = s.desc := by
  rcases completionStep_next s t h with ⟨i, -, -, rfl⟩ | ⟨e, -, rfl⟩
  · exact finish_desc _ s
  · exact errorCompletion_desc e s

/-- Settles O35: the write replaces one descriptor, which the completion neither reads nor changes and a launch latches. -/
theorem descriptorWritesStoreEveryValue : Obligations.DescriptorWritesStoreEveryValue := by
  intro s v k lo hi
  obtain ⟨r, hr, rfl⟩ := exists_descriptor_index lo hi
  have hwrite (u : State) : hostRegWrite r.index v u = { u with desc := u.desc.write r v } :=
    (hostRegWrite_index r v u).trans (writeReg_descriptor v u hr)
  rw [hwrite s]
  refine ⟨?stored, fun j hj => hostRegRead_write_other v s hj, ⟨_, rfl⟩, ?inFlight, ?nextLaunch⟩
  case stored => exact (hostRegRead_index r _).trans (regValue_write_same v s hr)
  case inFlight =>
    intro t ht
    rw [hwrite t, completionStep_keeps_desc ht]
    exact completionStep_with_desc ht _
  case nextLaunch =>
    intro w idle
    exact congrArg State.shadow (hostRegWrite_cmd_of_idle w (s := { s with desc := s.desc.write r v }) idle)

end Sys2Proof.Machine
end

section
/-! PROOFS. The encoding (30_encoding R101 to R108): a command word is its command number and its fields at their places,
so that decoding and encoding are inverse of each other. -/

namespace Sys2Proof.Machine

/-! ## The fields of a command (30_encoding R101, R102) -/

/-- What the command puts in SHAMT. -/
def shamtField : Instr → Nat
  | .shl k => k
  | .shr k => k
  | .add | .sub | .mul | .div | .clz | .sconv _ _ | .neg | .isneg | .cmplt | .norm => 0

/-- What the command puts in ANEG. -/
def anegField : Instr → Nat
  | .sconv aneg _ => aneg.toNat
  | .add | .sub | .mul | .div | .shl _ | .shr _ | .clz | .neg | .isneg | .cmplt | .norm => 0

/-- What the command puts in RNEG. -/
def rnegField : Instr → Nat
  | .sconv _ rneg => rneg.toNat
  | .add | .sub | .mul | .div | .shl _ | .shr _ | .clz | .neg | .isneg | .cmplt | .norm => 0

theorem fieldBits_eq (i : Instr) : i.fieldBits = anegField i * 2 ^ 8 + rnegField i * 2 ^ 9 + shamtField i * 2 ^ 16 := by
  cases i <;> simp [Instr.fieldBits, anegField, rnegField, shamtField]

theorem opNumber_lt (i : Instr) : i.opNumber < 2 ^ 5 := by cases i <;> simp [Instr.opNumber]

theorem anegField_lt (i : Instr) : anegField i < 2 := by
  cases i with
  | sconv aneg rneg => exact aneg.toNat_lt
  | _ => exact Nat.two_pos

theorem rnegField_lt (i : Instr) : rnegField i < 2 := by
  cases i with
  | sconv aneg rneg => exact rneg.toNat_lt
  | _ => exact Nat.two_pos

/-- A command has an encoding iff its shift amount fits SHAMT. -/
theorem wellFormed_iff (i : Instr) : i.wellFormed = true ↔ shamtField i < 2 ^ 8 := by
  cases i <;> simp [Instr.wellFormed, shamtField]

/-- The word holds the command's number and fields at their places, and 0 in the reserved bits (30_encoding R101). -/
structure Carries (c : Reg) (i : Instr) : Prop where
  high : bits c 31 24 = 0
  middle : bits c 15 10 = 0
  low : bits c 7 5 = 0
  op : bits c 4 0 = i.opNumber
  shamt : bits c 23 16 = shamtField i
  aneg : bits c 8 8 = anegField i
  rneg : bits c 9 9 = rnegField i

/-! ## The word of a command (30_encoding R108) -/

/-- The fields do not run into one another. -/
theorem toNat_encode {i : Instr} (h : i.wellFormed = true) : (encode i).toNat =
    i.opNumber + (anegField i * 2 ^ 8 + rnegField i * 2 ^ 9 + shamtField i * 2 ^ 16) := by
  have hop := opNumber_lt i
  have haneg := anegField_lt i
  have hrneg := rnegField_lt i
  have hshamt := (wellFormed_iff i).1 h
  rw [encode, BitVec.toNat_ofNat, fieldBits_eq]
  omega

theorem carries_encode {i : Instr} (h : i.wellFormed = true) : Carries (encode i) i := by
  have hop := opNumber_lt i
  have haneg := anegField_lt i
  have hrneg := rnegField_lt i
  have hshamt := (wellFormed_iff i).1 h
  constructor <;> rw [bits, toNat_encode h, Nat.shiftRight_eq_div_pow] <;> omega

/-- A word is the sum of its fields, so the command it carries is its only one. -/
theorem encode_of_carries {c : Reg} {i : Instr} (h : Carries c i) (hi : i.wellFormed = true) : encode i = c := by
  obtain ⟨high, middle, low, op, shamt, aneg, rneg⟩ := h
  have hc := c.isLt
  apply BitVec.eq_of_toNat_eq
  rw [toNat_encode hi, ← op, ← shamt, ← aneg, ← rneg]
  simp only [bits, Nat.shiftRight_eq_div_pow] at *
  omega

/-! ## Decoding (30_encoding R104, R107) -/

theorem decode_of_carries {c : Reg} {i : Instr} (h : Carries c i) : decode c = .ok i := by
  obtain ⟨high, middle, low, op, shamt, aneg, rneg⟩ := h
  rw [decode, if_neg (by simp [high, middle, low]), op]
  cases i with
  | shl k => simp [Instr.opNumber, decodeShift, shamt, aneg, rneg, shamtField, anegField, rnegField]
  | shr k => simp [Instr.opNumber, decodeShift, shamt, aneg, rneg, shamtField, anegField, rnegField]
  | sconv a r => simp [Instr.opNumber, decodeSign, shamt, aneg, rneg, shamtField, anegField, rnegField]
  | _ => simp [Instr.opNumber, decodePlain, shamt, aneg, rneg, shamtField, anegField, rnegField]

theorem decodePlain_ok {c : Reg} {i j : Instr} (h : decodePlain c j = .ok i) :
    i = j ∧ bits c 23 16 = 0 ∧ bits c 8 8 = 0 ∧ bits c 9 9 = 0 := by
  rw [decodePlain] at h
  split_ifs at h with hshamt hsign
  simp_all

theorem decodeShift_ok {c : Reg} {i : Instr} {mk : Nat → Instr} (h : decodeShift c mk = .ok i) :
    i = mk (bits c 23 16) ∧ bits c 8 8 = 0 ∧ bits c 9 9 = 0 := by
  rw [decodeShift] at h
  split_ifs at h with hsign
  simp_all

theorem decodeSign_ok {c : Reg} {i : Instr} {mk : Bool → Bool → Instr} (h : decodeSign c mk = .ok i) :
    i = mk (decide (bits c 8 8 = 1)) (decide (bits c 9 9 = 1)) ∧ bits c 23 16 = 0 := by
  rw [decodeSign] at h
  split_ifs at h with hshamt
  simp_all

theorem toNat_decide_bit (c : Reg) (k : Nat) : (decide (bits c k k = 1)).toNat = bits c k k := by
  have : bits c k k < 2 := by
    rw [bits, Nat.sub_self]
    exact Nat.mod_lt _ Nat.two_pos
  interval_cases bits c k k <;> rfl

theorem carries_of_decode {c : Reg} {i : Instr} (h : decode c = .ok i) : Carries c i := by
  rw [decode] at h
  split at h
  case isTrue => cases h
  case isFalse reserved =>
    obtain ⟨high, middle, low⟩ : bits c 31 24 = 0 ∧ bits c 15 10 = 0 ∧ bits c 7 5 = 0 := by simpa using reserved
    split at h
    case h_5 op | h_6 op =>
      obtain ⟨rfl, aneg, rneg⟩ := decodeShift_ok h
      exact ⟨high, middle, low, op, rfl, aneg, rneg⟩
    case h_8 op =>
      obtain ⟨rfl, shamt⟩ := decodeSign_ok h
      exact ⟨high, middle, low, op, shamt, (toNat_decide_bit c 8).symm, (toNat_decide_bit c 9).symm⟩
    case h_13 => cases h
    all_goals
      rename_i op
      obtain ⟨rfl, shamt, aneg, rneg⟩ := decodePlain_ok h
      exact ⟨high, middle, low, op, shamt, aneg, rneg⟩

/-- SHAMT has 8 bits, so every decoded command has an encoding. -/
theorem wellFormed_of_carries {c : Reg} {i : Instr} (h : Carries c i) : i.wellFormed = true := by
  rw [wellFormed_iff, ← h.shamt]
  exact Nat.mod_lt _ (by decide)

/-- Settles O2: the encoded word carries the command, and the decoder reads what the word carries. -/
theorem encodedCommandDecodesBack : Obligations.EncodedCommandDecodesBack :=
  fun _ h => decode_of_carries (carries_encode h)

/-- Settles O3: what decodes is carried, and a word is the sum of its fields. -/
theorem decodedWordIsItsEncoding : Obligations.DecodedWordIsItsEncoding := by
  intro c i h
  have carried := carries_of_decode h
  have formed := wellFormed_of_carries carried
  exact ⟨formed, encode_of_carries carried formed⟩

/-- Settles O1: eight words, each with the fields that its command has. -/
theorem commandWordsDecode : Obligations.CommandWordsDecode := by
  refine ⟨?_, ?_, ?_, ?_, ?_, ?_, ?_, ?_⟩
  all_goals exact decode_of_carries (by constructor <;> rfl)

end Sys2Proof.Machine
end

section
/-! PROOFS. What a completion writes and what it leaves alone (20_memory R75, 60_exceptions R246, R247): the words of the
output regions, the result registers that the command's rule names, and nothing of the host's state. -/

namespace Sys2Proof.Machine

/-! ## A command ends in an error or in a success completion (60_exceptions R246, R247) -/

/-- The two ends of a command, by its next state. -/
theorem exec_next {i : Instr} {s t : State} (h : exec i s = .next t) :
    (check i s = .noError ∧ t = finish (effectOf i s) s) ∨
      (check i s ≠ .noError ∧ t = errorCompletion (check i s) s) := by
  rcases exec_cases i s with ⟨hc, hx⟩ | ⟨hc, hx⟩ <;> cases hx.symm.trans h
  · exact .inl ⟨hc, rfl⟩
  · exact .inr ⟨hc, rfl⟩

theorem completionStep_keeps_ovr {s t : State} (h : completionStep s = .next t) : t.status.ovr = s.status.ovr := by
  rcases completionStep_next s t h with ⟨i, -, -, rfl⟩ | ⟨e, -, rfl⟩ <;> rfl

/-- Settles O7: there is always an answer, and each of the two ends leaves the phase IDLE with DONE set. -/
theorem completionAlwaysReturnsToIdle : Obligations.CompletionAlwaysReturnsToIdle := by
  intro s
  obtain ⟨t, ht⟩ := completionStep_answers s
  obtain ⟨idle, done, -⟩ := completionStep_frame s t ht
  exact ⟨t, ht, phase_eq_idle idle, done, completionStep_keeps_ovr ht⟩

/-- Settles O29: neither end touches the host's state. -/
theorem commandsLeaveHostStateAlone : Obligations.CommandsLeaveHostStateAlone := by
  intro i s t h
  rcases exec_next h with ⟨-, rfl⟩ | ⟨-, rfl⟩ <;> exact ⟨rfl, rfl, rfl, rfl, rfl, rfl, rfl, rfl, rfl, rfl, rfl⟩

/-! ## The written words are the output regions (20_memory R75) -/

/-- What is written at R_BASE is the output region R, or nothing. -/
theorem effect_r_region (i : Instr) (s : State) :
    (effectOf i s).r = [] ∨ ⟨s.rAddr, (effectOf i s).r.length⟩ ∈ outputRegions i s.shadow.desc := by
  have hlen := length_effect_r i s
  cases hcap : capR s.shadow.desc.aLen.toNat s.shadow.desc.bLen.toNat i with
  | none => exact .inl (List.eq_nil_of_length_eq_zero (by rw [hlen, hcap, Option.getD_none]))
  | some n =>
    rw [hcap, Option.getD_some] at hlen
    exact .inr (List.mem_append_left _ (by rw [regionR, hcap, hlen]; exact List.mem_singleton_self _))

/-- What is written at R2_BASE is the output region R2, or nothing. -/
theorem effect_r2_region (i : Instr) (s : State) :
    (effectOf i s).r2 = [] ∨ ⟨s.r2Addr, (effectOf i s).r2.length⟩ ∈ outputRegions i s.shadow.desc := by
  have hlen := length_effect_r2 i s
  cases hcap : capR2 s.shadow.desc.bLen.toNat i with
  | none => exact .inl (List.eq_nil_of_length_eq_zero (by rw [hlen, hcap, Option.getD_none]))
  | some n =>
    rw [hcap, Option.getD_some] at hlen
    exact .inr (List.mem_append_right _ (by rw [regionR2, hcap, hlen]; exact List.mem_singleton_self _))

/-- An array that is empty or fills a region leaves every byte outside the region. -/
theorem read_writeArray_of_byteOutside {c : Config} {m : Memory} {xs : WordArray} {a b : Nat} (hm : m.wf)
    (h : xs = [] ∨ (Region.mk a xs.length).ByteOutside c b) : (writeArray c m a xs).read b = m.read b := by
  rcases h with rfl | h
  · rfl
  · exact read_writeArray_outside c xs m a hm b h

theorem read_finish_outside {i : Instr} {s : State} {b : Nat} (hm : s.wmem.wf)
    (hb : ∀ o ∈ outputRegions i s.shadow.desc, o.ByteOutside s.cfg b) :
    (finish (effectOf i s) s).wmem.read b = s.wmem.read b := by
  have written := wf_writeArray s.cfg (effectOf i s).r s.wmem s.rAddr hm
  exact (read_writeArray_of_byteOutside written ((effect_r2_region i s).imp_right (hb _))).trans
    (read_writeArray_of_byteOutside hm ((effect_r_region i s).imp_right (hb _)))

/-- Settles O27: a success writes the output regions, and an error, which alone records a new code, writes nothing. -/
theorem commandsWriteOnlyOutputRegions : Obligations.CommandsWriteOnlyOutputRegions := by
  intro i s t hm h
  rcases exec_next h with ⟨-, rfl⟩ | ⟨-, rfl⟩
  · exact ⟨fun b hb => read_finish_outside hm hb, fun hcode => absurd rfl hcode⟩
  · exact ⟨fun b _ => rfl, fun _ => rfl⟩

/-- The commands without an output region (20_memory R75). -/
theorem effect_of_no_output {i : Instr} (s : State) (h : i = .clz ∨ i = .isneg ∨ i = .cmplt ∨ i = .norm) :
    (effectOf i s).r = [] ∧ (effectOf i s).r2 = [] := by
  rcases h with rfl | rfl | rfl | rfl <;> exact ⟨rfl, rfl⟩

/-- With no word to write, a completion leaves WMEM as it is. -/
theorem exec_keeps_wmem {i : Instr} {s t : State} (hi : i = .clz ∨ i = .isneg ∨ i = .cmplt ∨ i = .norm)
    (h : exec i s = .next t) : t.wmem = s.wmem := by
  obtain ⟨hr, hr2⟩ := effect_of_no_output s hi
  rcases exec_next h with ⟨-, rfl⟩ | ⟨-, rfl⟩
  · rw [finish_wmem, hr, hr2]
    rfl
  · rfl

/-- Settles O28: each of the four writes no word. -/
theorem readingCommandsLeaveWmem : Obligations.ReadingCommandsLeaveWmem := by
  rintro s t (h | h | h | h)
  · exact exec_keeps_wmem (.inl rfl) h
  · exact exec_keeps_wmem (.inr (.inl rfl)) h
  · exact exec_keeps_wmem (.inr (.inr (.inl rfl))) h
  · exact exec_keeps_wmem (.inr (.inr (.inr rfl))) h

/-! ## The result registers (10_state R45) -/

theorem effect_rLen_none {i : Instr} (s : State) (h : i = .clz ∨ i = .isneg ∨ i = .cmplt) : (effectOf i s).rLen = none := by
  rcases h with rfl | rfl | rfl <;> rfl

theorem effect_r2Len_none {i : Instr} (s : State) (h : i ≠ .div) : (effectOf i s).r2Len = none := by
  cases i with
  | div => exact absurd rfl h
  | _ => rfl

theorem effect_res_none {i : Instr} (s : State) (hclz : i ≠ .clz) (hisneg : i ≠ .isneg) (hcmplt : i ≠ .cmplt) :
    (effectOf i s).res = none := by
  cases i with
  | clz => exact absurd rfl hclz
  | isneg => exact absurd rfl hisneg
  | cmplt => exact absurd rfl hcmplt
  | _ => rfl

/-- Settles O30: a success writes the registers for which the rule of the command gives a value, an error none. -/
theorem resultRegistersOnlyWhereNamed : Obligations.ResultRegistersOnlyWhereNamed := by
  intro i s t h
  rcases exec_next h with ⟨-, rfl⟩ | ⟨-, rfl⟩
  · refine ⟨fun hi => ?rLen, fun hi => ?r2Len, fun h1 h2 h3 => ?res, fun hcode => absurd rfl hcode⟩
    case rLen => rw [finish_rLen, effect_rLen_none s hi, resultReg]
    case r2Len => rw [finish_r2Len, effect_r2Len_none s hi, resultReg]
    case res => rw [finish_res, effect_res_none s h1 h2 h3, resultReg]
  · exact ⟨fun _ => rfl, fun _ => rfl, fun _ _ _ => rfl, fun _ => ⟨rfl, rfl, rfl⟩⟩

end Sys2Proof.Machine
end

section
/-! PROOFS. A command ignores every descriptor of the shadow that it does not use (20_memory R74): its check and its effect are
those of any shadow that agrees on the descriptors in use. -/

namespace Sys2Proof.Machine

/-- The two sets of descriptors agree on what the command uses (20_memory R74, R75). -/
structure AgreeOnUsed (i : Instr) (d e : Descriptors) : Prop where
  aBase : e.aBase = d.aBase
  aLen : e.aLen = d.aLen
  ofB : usesB i = true → e.bBase = d.bBase ∧ e.bLen = d.bLen
  rBase : e.rBase = d.rBase ∨ ∀ la lb, capR la lb i = none
  r2Base : e.r2Base = d.r2Base ∨ ∀ lb, capR2 lb i = none

/-- A command that does not use B has no capacity that depends on its length. -/
theorem capR_of_not_usesB {i : Instr} (h : usesB i = false) (la lb lb' : Nat) : capR la lb i = capR la lb' i := by
  cases i with
  | add | sub | mul | div | cmplt => cases h
  | _ => rfl

theorem capR2_of_not_usesB {i : Instr} (h : usesB i = false) (lb : Nat) : capR2 lb i = none := by
  cases i with
  | add | sub | mul | div | cmplt => cases h
  | _ => rfl

section
variable {i : Instr} {d e : Descriptors}

theorem AgreeOnUsed.regionA_eq (h : AgreeOnUsed i d e) : regionA e = regionA d := by
  rw [regionA, regionA, h.aBase, h.aLen]

theorem AgreeOnUsed.regionB_eq (h : AgreeOnUsed i d e) (uses : usesB i = true) :
    regionB e = regionB d := by
  obtain ⟨hbase, hlen⟩ := h.ofB uses
  rw [regionB, regionB, hbase, hlen]

theorem AgreeOnUsed.regionR_eq (h : AgreeOnUsed i d e) : regionR i e = regionR i d := by
  have hcap : capR e.aLen.toNat e.bLen.toNat i = capR d.aLen.toNat d.bLen.toNat i := by
    cases uses : usesB i with
    | false => rw [h.aLen, capR_of_not_usesB uses]
    | true => rw [h.aLen, (h.ofB uses).2]
  rw [regionR, regionR, hcap]
  rcases h.rBase with hbase | hnone
  · rw [hbase]
  · rw [hnone]
    rfl

theorem AgreeOnUsed.regionR2_eq (h : AgreeOnUsed i d e) : regionR2 i e = regionR2 i d := by
  have hcap : capR2 e.bLen.toNat i = capR2 d.bLen.toNat i := by
    cases uses : usesB i with
    | false => rw [capR2_of_not_usesB uses, capR2_of_not_usesB uses]
    | true => rw [(h.ofB uses).2]
  rw [regionR2, regionR2, hcap]
  rcases h.r2Base with hbase | hnone
  · rw [hbase]
  · rw [hnone]
    rfl

theorem AgreeOnUsed.outputRegions_eq (h : AgreeOnUsed i d e) : outputRegions i e = outputRegions i d := by
  rw [outputRegions, outputRegions, h.regionR_eq, h.regionR2_eq]

theorem AgreeOnUsed.inputRegions_eq (h : AgreeOnUsed i d e) : inputRegions i e = inputRegions i d := by
  rw [inputRegions, inputRegions, h.regionA_eq]
  cases uses : usesB i with
  | false => rfl
  | true => rw [h.regionB_eq uses]

theorem AgreeOnUsed.outputPlaced_eq (h : AgreeOnUsed i d e) (o : Region) : outputPlaced i e o = outputPlaced i d o := by
  rw [outputPlaced, outputPlaced, h.regionA_eq, h.aBase]
  cases uses : usesB i with
  | false => rfl
  | true => rw [h.regionB_eq uses]

theorem AgreeOnUsed.placementLegal_eq (h : AgreeOnUsed i d e) : placementLegal i e = placementLegal i d := by
  rw [placementLegal, placementLegal, outputsApart, outputsApart, h.outputRegions_eq, h.regionR_eq, h.regionR2_eq,
    funext h.outputPlaced_eq]

end

@[simp] theorem withShadowDesc_cfg (s : State) (e : Descriptors) : (s.withShadowDesc e).cfg = s.cfg := rfl

section
variable {i : Instr} {s : State} {e : Descriptors}

theorem AgreeOnUsed.inputA_eq (h : AgreeOnUsed i s.shadow.desc e) : (s.withShadowDesc e).inputA = s.inputA := by
  change readArray s.cfg s.wmem e.aBase.toNat e.aLen.toNat = _
  rw [h.aBase, h.aLen]
  rfl

theorem AgreeOnUsed.inputB_eq (h : AgreeOnUsed i s.shadow.desc e) (uses : usesB i = true) :
    (s.withShadowDesc e).inputB = s.inputB := by
  obtain ⟨hbase, hlen⟩ := h.ofB uses
  change readArray s.cfg s.wmem e.bBase.toNat e.bLen.toNat = _
  rw [hbase, hlen]
  rfl

theorem AgreeOnUsed.unnormalizedInput_eq (h : AgreeOnUsed i s.shadow.desc e) :
    unnormalizedInput i (s.withShadowDesc e) = unnormalizedInput i s := by
  rw [unnormalizedInput, unnormalizedInput, h.inputA_eq]
  cases uses : usesB i with
  | false => rfl
  | true => rw [h.inputB_eq uses]

theorem AgreeOnUsed.effectOf_eq (h : AgreeOnUsed i s.shadow.desc e) : effectOf i (s.withShadowDesc e) = effectOf i s := by
  have hA := h.inputA_eq
  cases i with
  | add | sub | mul | div | cmplt => simp only [effectOf, hA, h.inputB_eq rfl, withShadowDesc_cfg]
  | _ => simp only [effectOf, hA, withShadowDesc_cfg]

/-- The last two checks, on values, are of commands that use B. -/
theorem AgreeOnUsed.badDivisor_iff (h : AgreeOnUsed i s.shadow.desc e) :
    BadDivisor i (s.withShadowDesc e) ↔ BadDivisor i s := by
  refine and_congr_right fun hi => ?_
  rw [State.valB, h.inputB_eq (hi ▸ rfl)]
  rfl

theorem AgreeOnUsed.badDifference_iff (h : AgreeOnUsed i s.shadow.desc e) :
    BadDifference i (s.withShadowDesc e) ↔ BadDifference i s := by
  refine and_congr_right fun hi => ?_
  rw [State.valA, State.valB, h.inputA_eq, h.inputB_eq (hi ▸ rfl)]
  rfl

theorem AgreeOnUsed.check_eq (h : AgreeOnUsed i s.shadow.desc e) : check i (s.withShadowDesc e) = check i s := by
  have lengths : BadLen i (s.withShadowDesc e) ↔ BadLen i s := by
    refine or_congr (by rw [State.la, State.withShadowDesc, h.aLen]; rfl) (and_congr_right fun uses => ?_)
    rw [State.lb, State.withShadowDesc, (h.ofB uses).2]
    rfl
  have ranges : inputRegions i e ++ outputRegions i e = inputRegions i s.shadow.desc ++ outputRegions i s.shadow.desc := by
    rw [h.inputRegions_eq, h.outputRegions_eq]
  refine ite_congr rfl (fun _ => rfl) fun _ => ?_
  refine ite_congr (propext ((zeroLength_iff i _).trans (lengths.trans (zeroLength_iff i s).symm))) (fun _ => rfl) fun _ => ?_
  refine ite_congr (congrArg (fun l => (l.any fun r => !r.inRange s.cfg) = true) ranges) (fun _ => rfl) fun _ => ?_
  refine ite_congr (congrArg (fun b => ¬ b = true) h.placementLegal_eq) (fun _ => rfl) fun _ => ?_
  refine ite_congr (congrArg (· = true) h.unnormalizedInput_eq) (fun _ => rfl) fun _ => ?_
  exact ite_congr (propext h.badDivisor_iff) (fun _ => rfl) fun _ =>
    ite_congr (propext h.badDifference_iff) (fun _ => rfl) fun _ => rfl

theorem AgreeOnUsed.written_eq (h : AgreeOnUsed i s.shadow.desc e) (m : Memory) :
    writeArray s.cfg (writeArray s.cfg m e.rBase.toNat (effectOf i s).r) e.r2Base.toNat (effectOf i s).r2 =
      writeArray s.cfg (writeArray s.cfg m s.rAddr (effectOf i s).r) s.r2Addr (effectOf i s).r2 := by
  have hr : e.rBase.toNat = s.rAddr ∨ (effectOf i s).r = [] :=
    h.rBase.imp (congrArg _) fun hnone => List.eq_nil_of_length_eq_zero (by rw [length_effect_r, hnone, Option.getD_none])
  have hr2 : e.r2Base.toNat = s.r2Addr ∨ (effectOf i s).r2 = [] :=
    h.r2Base.imp (congrArg _) fun hnone => List.eq_nil_of_length_eq_zero (by rw [length_effect_r2, hnone, Option.getD_none])
  rcases hr with hr | hr <;> rcases hr2 with hr2 | hr2 <;> rw [hr, hr2] <;> rfl

/-- The command does the same on any shadow that agrees on what it uses. -/
theorem AgreeOnUsed.exec_eq (h : AgreeOnUsed i s.shadow.desc e) {t : State} (ht : exec i s = .next t) :
    exec i (s.withShadowDesc e) = .next (t.withShadowDesc e) := by
  rcases exec_next ht with ⟨hc, rfl⟩ | ⟨hc, rfl⟩
  · rw [exec_of_check i _ (h.check_eq.trans hc), h.effectOf_eq]
    exact congrArg (fun m => Host.Outcome.next { (finish (effectOf i s) s).withShadowDesc e with wmem := m })
      (h.written_eq s.wmem)
  · rw [exec_of_failed i _ _ h.check_eq hc]
    rfl

end

/-- Settles O31: in each clause the two shadows agree on what the command uses. -/
theorem unusedDescriptorsAreIgnored : Obligations.UnusedDescriptorsAreIgnored := by
  intro i s t x y ht
  refine ⟨fun h1 h2 h3 h4 h5 => ?ofB, fun h => ?ofR, fun h => ?ofR2⟩
  case ofB =>
    have unused : usesB i = false := by
      cases i with
      | add | sub | mul | div | cmplt => contradiction
      | _ => rfl
    have agree : AgreeOnUsed i s.shadow.desc { s.shadow.desc with bBase := x, bLen := y } :=
      ⟨rfl, rfl, fun uses => absurd (unused.symm.trans uses) nofun, .inl rfl, .inl rfl⟩
    exact agree.exec_eq ht
  case ofR =>
    have unused : ∀ la lb, capR la lb i = none := by rcases h with rfl | rfl | rfl | rfl <;> exact fun _ _ => rfl
    have agree : AgreeOnUsed i s.shadow.desc { s.shadow.desc with rBase := x } :=
      ⟨rfl, rfl, fun _ => ⟨rfl, rfl⟩, .inr unused, .inl rfl⟩
    exact agree.exec_eq ht
  case ofR2 =>
    have unused : ∀ lb, capR2 lb i = none := by
      cases i with
      | div => exact absurd rfl h
      | _ => exact fun _ => rfl
    have agree : AgreeOnUsed i s.shadow.desc { s.shadow.desc with r2Base := x } :=
      ⟨rfl, rfl, fun _ => ⟨rfl, rfl⟩, .inl rfl, .inr unused⟩
    exact agree.exec_eq ht

end Sys2Proof.Machine
end

section
/-! PROOFS. The register port, write by write (10_state R33 to R45): what a write can do, said of the index, and what the soft
reset leaves (70_reset R272). -/

namespace Sys2Proof.Machine

/-! ## Writes (10_state R35) -/

/-- What a write of an index can do: a soft reset, a dropped command, a launch, an acknowledgement, or a change of IE and the
descriptors alone; the reserved and the read-only indices change nothing, which the last case covers. -/
theorem hostRegWrite_cases (k : BitVec 4) (v : Reg) (s : State) :
    (k = 1 ∧ v.getLsbD 1 = true ∧ hostRegWrite k v s = softReset s) ∨
      (k = 3 ∧ s.status.busy = true ∧ hostRegWrite k v s = { s with status := { s.status with ovr := true } }) ∨
      (k = 3 ∧ s.status.busy = false ∧ hostRegWrite k v s = launch { s with cmd := v }) ∨
      (k = 2 ∧ hostRegWrite k v s = acknowledge v s) ∨
      (∃ ie d, hostRegWrite k v s = { s with ie := ie, desc := d }) := by
  rw [hostRegWrite]
  cases hk : RegName.ofIndex k with
  | none => exact .inr (.inr (.inr (.inr ⟨s.ie, s.desc, rfl⟩)))
  | some r =>
    obtain rfl := index_of_ofIndex hk
    rcases writeReg_cases v s r with ⟨rfl, h⟩ | ⟨rfl, h⟩ | ⟨rfl, h⟩ | ⟨rfl, h⟩ | h
    · exact .inl ⟨rfl, h⟩
    · exact .inr (.inl ⟨rfl, h⟩)
    · exact .inr (.inr (.inl ⟨rfl, h⟩))
    · exact .inr (.inr (.inr (.inl ⟨rfl, h⟩)))
    · exact .inr (.inr (.inr (.inr h)))

/-- What no register write touches. -/
theorem hostRegWrite_frame (k : BitVec 4) (v : Reg) (s : State) :
    (hostRegWrite k v s).cfg = s.cfg ∧ (hostRegWrite k v s).held = s.held ∧ (hostRegWrite k v s).resetIn = s.resetIn := by
  rcases hostRegWrite_cases k v s with ⟨-, -, h⟩ | ⟨-, -, h⟩ | ⟨-, -, h⟩ | ⟨-, h⟩ | ⟨ie, d, h⟩ <;> rw [h] <;>
    exact ⟨rfl, rfl, rfl⟩

/-- Settles O32: the launch of the word, field by field. -/
theorem cmdWriteLaunches : Obligations.CmdWriteLaunches := fun _ v idle => hostRegWrite_cmd_of_idle v idle

/-- Settles O36: ID and the result registers ignore a write, and the indices from 13 name no register. -/
theorem readOnlyWritesAreIgnored : Obligations.ReadOnlyWritesAreIgnored := by
  rintro s v k (rfl | hk)
  · exact hostRegWrite_index .id v s
  · have indices : k = 10 ∨ k = 11 ∨ k = 12 ∨ k = 13 ∨ k = 14 ∨ k = 15 := by bv_omega
    rcases indices with rfl | rfl | rfl | rfl | rfl | rfl <;> rfl

/-! ## Soft reset (70_reset R272) -/

theorem hostRegWrite_softReset {v : Reg} (h : v.getLsbD 1 = true) (s : State) : hostRegWrite 1 v s = softReset s :=
  (hostRegWrite_index .ctrl v s).trans (if_pos h)

/-- In phase IDLE no command is in flight, and the soft reset spares WMEM. -/
theorem softReset_wmem_of_idle {s : State} (idle : s.status.busy = false) : (softReset s).wmem = s.wmem := by
  rw [softReset_wmem, idle]
  rfl

theorem softReset_wmem_of_busy {s : State} (busy : s.status.busy = true) :
    (softReset s).wmem = (regionsInFlight s).foldl (drawRegion s.cfg s.draws) s.wmem := by
  rw [softReset_wmem, if_pos busy]

/-- Settles O40: bit 1 asks for the soft reset, which in phase IDLE leaves WMEM; without it bit 0 is the new IE. -/
theorem ctrlWriteSetsEnableOrResets : Obligations.CtrlWriteSetsEnableOrResets := by
  intro s v
  constructor
  · exact fun hbit => (hostRegWrite_index .ctrl v s).trans (if_neg (Bool.eq_false_iff.1 hbit))
  · intro hbit idle
    refine ⟨drawShadow s.draws, s.draws + 1, ?_⟩
    rw [hostRegWrite_softReset hbit, ← softReset_wmem_of_idle idle]
    rfl

/-- The draws of a soft reset keep the canonical form. -/
theorem wf_foldl_drawRegion (c : Config) (d : Nat) (rs : List Region) (m : Memory) (h : m.wf) :
    (rs.foldl (drawRegion c d) m).wf := by
  induction rs generalizing m with
  | nil => exact h
  | cons r rs ih => exact ih _ (wf_drawRegion c d m r h)

theorem within_foldl_drawRegion (c : Config) (d : Nat) (rs : List Region) (m : Memory) (h : Memory.within c m) :
    Memory.within c (rs.foldl (drawRegion c d) m) := by
  induction rs generalizing m with
  | nil => exact h
  | cons r rs ih => exact ih _ (within_drawRegion c d m r h)

/-- A byte outside every drawn region keeps its value. -/
theorem read_foldl_drawRegion_outside (c : Config) (d : Nat) (rs : List Region) (m : Memory) (b : Nat) (h : m.wf)
    (hb : ∀ o ∈ rs, o.ByteOutside c b) : (rs.foldl (drawRegion c d) m).read b = m.read b := by
  induction rs generalizing m with
  | nil => rfl
  | cons r rs ih =>
    obtain ⟨hr, hrs⟩ := List.forall_mem_cons.1 hb
    exact (ih _ (wf_drawRegion c d m r h) hrs).trans (read_drawRegion_outside c d m r b h hr)

/-- The command in flight has its own output regions, and an illegal word none (log 11). -/
theorem regionsInFlight_of_decode {s : State} {i : Instr} (h : decode s.shadow.cmd = .ok i) :
    regionsInFlight s = outputRegions i s.shadow.desc := by
  rw [regionsInFlight, h]

theorem regionsInFlight_of_illegalWord {s : State} (h : IllegalWord s.shadow.cmd) : regionsInFlight s = [] := by
  obtain ⟨e, he⟩ := (illegalWord_iff_decode_error _).1 h
  rw [regionsInFlight, he]

/-- Settles O41: the soft reset draws the output regions of the command in flight and no other byte. -/
theorem softResetAbortsCommand : Obligations.SoftResetAbortsCommand := by
  intro s v hm busy hbit
  rw [hostRegWrite_softReset hbit]
  refine ⟨⟨_, _, _, rfl⟩, irq_of_not_enabled (softReset_ie s), fun i b hi hb => ?_, fun illegal => ?_⟩
  · rw [softReset_wmem_of_busy busy, regionsInFlight_of_decode hi]
    exact read_foldl_drawRegion_outside _ _ _ _ b hm hb
  · rw [softReset_wmem_of_busy busy, regionsInFlight_of_illegalWord illegal]
    rfl

end Sys2Proof.Machine
end

section
/-! PROOFS. The invariant of a run (10_state R42, R51, 20_memory R73, R89): it holds at reset and every step keeps it, so that
every reachable state meets it. -/

namespace Sys2Proof.Machine

/-! ## WMEM stays canonical and inside its words (10_state R51) -/

/-- A command that passes the checks writes inside WMEM. -/
theorem not_badRange_of_check {i : Instr} {s : State} (h : check i s = .noError) : ¬ BadRange i s := by
  intro bad
  rw [check_eq_first_failed] at h
  split_ifs at h

theorem outputRegion_fits {i : Instr} {s : State} (h : check i s = .noError) {o : Region}
    (ho : o ∈ outputRegions i s.shadow.desc) : o.Fits s.cfg :=
  not_not.1 fun outside => not_badRange_of_check h ⟨o, List.mem_append_right _ ho, outside⟩

theorem within_finish {i : Instr} {s : State} (h : check i s = .noError) (hm : Memory.within s.cfg s.wmem) :
    Memory.within s.cfg (finish (effectOf i s) s).wmem := by
  have written := within_writeArray s.cfg (effectOf i s).r s.wmem s.rAddr hm
    fun hne => outputRegion_fits h ((effect_r_region i s).resolve_left hne)
  exact within_writeArray s.cfg (effectOf i s).r2 _ s.r2Addr written
    fun hne => outputRegion_fits h ((effect_r2_region i s).resolve_left hne)

theorem completionStep_keeps_wmemInv {s t : State} (h : completionStep s = .next t) (hs : s.WmemInv) : t.WmemInv := by
  obtain ⟨canonical, within⟩ := hs
  refine ⟨wf_completionStep s t h canonical, ?_⟩
  rcases completionStep_next s t h with ⟨i, -, hc, rfl⟩ | ⟨e, -, rfl⟩
  · exact within_finish hc within
  · exact within

theorem softReset_keeps_wmemInv {s : State} (hs : s.WmemInv) : (softReset s).WmemInv := by
  obtain ⟨canonical, within⟩ := hs
  rw [State.WmemInv, softReset_wmem]
  split
  · exact ⟨wf_foldl_drawRegion _ _ _ _ canonical, within_foldl_drawRegion _ _ _ _ within⟩
  · exact ⟨canonical, within⟩

theorem hostRegWrite_keeps_wmemInv (k : BitVec 4) (v : Reg) {s : State} (hs : s.WmemInv) :
    (hostRegWrite k v s).WmemInv := by
  rcases hostRegWrite_cases k v s with ⟨-, -, h⟩ | ⟨-, -, h⟩ | ⟨-, -, h⟩ | ⟨-, h⟩ | ⟨ie, d, h⟩ <;> rw [h]
  · exact softReset_keeps_wmemInv hs
  · exact hs
  · exact hs
  · exact hs
  · exact hs

theorem issue_keeps_wmemInv {r : Request} {s t : State} (h : issue r s = .next t) (hs : s.WmemInv) : t.WmemInv := by
  rcases issue_cases r s t h with ⟨k, -, rfl⟩ | ⟨k, v, -, rfl⟩ | ⟨-, -, rfl⟩ | ⟨-, a, -, -, rfl⟩ | ⟨-, a, v, -, ha, rfl⟩
  · exact hs
  · exact hostRegWrite_keeps_wmemInv k v hs
  · exact hs
  · exact hs
  · exact ⟨wf_writeWord _ _ _ _ hs.1, within_writeWord _ _ _ _ hs.2 ha⟩

theorem assertReset_keeps_wmemInv {s : State} (hs : s.WmemInv) : (assertReset s).WmemInv :=
  ⟨wf_drawBytes _ _ _ _ hs.1, within_drawBytes _ _ _ _ _ hs.2 (Nat.zero_add _).le⟩

/-! ## Held accesses (20_memory R73, R89) -/

/-- A master with nothing held is among no master that waits. -/
theorem not_mem_masters {s : State} {m : Nat} (free : s.isHeld m = false) : m ∉ s.held.map (·.master) := by
  intro hm
  obtain ⟨r, hr, rfl⟩ := List.mem_map.1 hm
  exact absurd (List.any_eq_true.2 ⟨r, hr, decide_eq_true rfl⟩) (Bool.eq_false_iff.1 free)

/-- An access of a master that waits for nothing keeps the invariant, whether it is held or not. -/
theorem issue_keeps_heldInv {r : Request} {s t : State} (h : issue r s = .next t) (free : s.isHeld r.master = false)
    (hs : s.HeldInv) : t.HeldInv := by
  rcases issue_cases r s t h with ⟨k, -, rfl⟩ | ⟨k, v, -, rfl⟩ | ⟨-, hr, rfl⟩ | ⟨-, a, -, -, rfl⟩ | ⟨-, a, v, -, -, rfl⟩
  · exact hs
  · obtain ⟨hcfg, hheld, -⟩ := hostRegWrite_frame k v s
    rw [State.HeldInv, hcfg, hheld]
    exact hs
  · obtain ⟨words, masters⟩ := hs
    refine ⟨List.forall_mem_append.2 ⟨words, List.forall_mem_singleton.2 hr⟩, ?_⟩
    rw [List.map_append]
    exact masters.append (List.nodup_singleton _) (List.disjoint_singleton.2 (not_mem_masters free))
  · exact hs
  · exact hs

/-- The first held access is to a word, its master waits for no other, and the rest meets the invariant. -/
theorem heldInv_tail {s : State} {r : Request} {rest : List Request} (hheld : s.held = r :: rest) (hs : s.HeldInv) :
    r.IsMemAccess s.cfg ∧ State.isHeld { s with held := rest } r.master = false ∧ State.HeldInv { s with held := rest } := by
  obtain ⟨words, masters⟩ := hs
  rw [hheld] at words masters
  rw [List.map_cons, List.nodup_cons] at masters
  obtain ⟨word, words⟩ := List.forall_mem_cons.1 words
  refine ⟨word, Bool.eq_false_iff.2 fun waits => ?_, words, masters.2⟩
  obtain ⟨q, hq, hmaster⟩ := List.any_eq_true.1 waits
  exact masters.1 (List.mem_map.2 ⟨q, hq, of_decide_eq_true hmaster⟩)

/-! ## Every step keeps the invariant -/

/-- An access leaves the reset input. -/
theorem issue_keeps_resetIn {r : Request} {s t : State} (h : issue r s = .next t) : t.resetIn = s.resetIn := by
  rcases issue_cases r s t h with ⟨k, -, rfl⟩ | ⟨k, v, -, rfl⟩ | ⟨-, -, rfl⟩ | ⟨-, a, -, -, rfl⟩ | ⟨-, a, v, -, -, rfl⟩
  · rfl
  · obtain ⟨-, -, hreset⟩ := hostRegWrite_frame k v s
    exact hreset
  · rfl
  · rfl
  · rfl

theorem issue_keeps_inv {r : Request} {s t : State} (h : issue r s = .next t) (free : s.isHeld r.master = false)
    (noReset : s.resetIn = false) (hs : s.Inv) : t.Inv := by
  obtain ⟨status, wmem, held, -⟩ := hs
  refine ⟨issue_keeps_status_inv r s t h status, issue_keeps_wmemInv h wmem, issue_keeps_heldInv h free held, fun hr => ?_⟩
  exact absurd ((issue_keeps_resetIn h).symm.trans hr) (by rw [noReset]; exact nofun)

theorem completionStep_keeps_inv {s t : State} (h : completionStep s = .next t) (busy : s.status.busy = true)
    (hs : s.Inv) : t.Inv := by
  obtain ⟨status, wmem, held, -⟩ := hs
  obtain ⟨idle, -, hcfg, -, hheld, -⟩ := completionStep_frame s t h
  refine ⟨completionStep_keeps_status_inv s t h busy status, completionStep_keeps_wmemInv h wmem, ?_, fun _ => idle⟩
  rw [State.HeldInv, hcfg, hheld]
  exact held

/-- Settles O52, by the moves a step can make. -/
theorem stepKeepsInvariant : Obligations.StepKeepsInvariant := by
  intro s t hs h
  obtain ⟨status, wmem, held, reset⟩ := id hs
  cases step_move s t h with
  | idle rest _ ht => exact ht ▸ hs
  | complete rest busy ht => exact completionStep_keeps_inv ht busy hs
  | unhold r rest hheld busy noReset ht =>
    obtain ⟨-, free, hrest⟩ := heldInv_tail hheld held
    exact issue_keeps_inv ht free noReset ⟨status, wmem, hrest, reset⟩
  | access r rest free noReset ht => exact issue_keeps_inv ht free noReset hs
  | assertReset rest ht =>
    exact ht ▸ ⟨Status.inv_zero, assertReset_keeps_wmemInv (s := { s with inputs := rest }) wmem, held, fun _ => rfl⟩
  | releaseReset rest ht => exact ht ▸ ⟨status, wmem, held, nofun⟩

/-- Settles O51: after reset STATUS is 0, no byte is listed and nothing is held. -/
theorem invariantHoldsAtReset : Obligations.InvariantHoldsAtReset :=
  fun _ => ⟨Status.inv_zero, ⟨Memory.wf_nil, nofun⟩, ⟨nofun, List.nodup_nil⟩, nofun⟩

end Sys2Proof.Machine
end

section
/-! PROOFS. What a step is, input by input (10_state R30, R47, 20_memory R73): the core's turn, an access of a master, an edge
of the reset input, a held access. -/

namespace Sys2Proof.Machine

/-! ## Which turn a step is -/

/-- Under reset the inputs are taken, whatever is held. -/
theorem step_eq_inputTurn_of_reset {s : State} (reset : s.resetIn = true) : step s = inputTurn s := by
  rw [step, takeTurn]
  split
  · rw [reset, Bool.or_true, if_pos rfl]
  · rfl

/-- In phase IDLE the oldest held access is performed before any input is taken (log 7). -/
theorem step_eq_issue_held {s : State} {r : Request} {rest : List Request} (hheld : s.held = r :: rest)
    (idle : s.status.busy = false) (noReset : s.resetIn = false) : step s = issue r { s with held := rest } := by
  rw [step, takeTurn, hheld, idle, noReset]
  rfl

theorem coreTurn_of_busy {s : State} (busy : s.status.busy = true) : coreTurn s = completionStep s := if_pos busy

theorem coreTurn_of_idle {s : State} (idle : s.status.busy = false) : coreTurn s = .next s :=
  if_neg (Bool.eq_false_iff.1 idle)

section
variable {s : State} {m : Nat} {rest : List Input} (ready : s.held = [] ∨ s.status.busy = true)
include ready

theorem step_of_core (hin : s.inputs = .core :: rest) : step s = coreTurn { s with inputs := rest } := by
  rw [step_eq_inputTurn s ready, inputTurn, hin]

theorem step_of_no_input (hin : s.inputs = []) : step s = coreTurn s := by
  rw [step_eq_inputTurn s ready, inputTurn, hin]

theorem step_of_host {a : Access} (hin : s.inputs = .host m a :: rest) :
    step s = hostTurn m (some a) false rest s := by
  rw [step_eq_inputTurn s ready, inputTurn, hin]

theorem step_of_bus {b : BusAccess} (hin : s.inputs = .bus m b :: rest) :
    step s = hostTurn m (busToPort s.cfg b) true rest s := by
  rw [step_eq_inputTurn s ready, inputTurn, hin]

theorem step_of_assertReset (hin : s.inputs = .assertReset :: rest) :
    step s = .next (assertReset { s with inputs := rest }) := by
  rw [step_eq_inputTurn s ready, inputTurn, hin]

end

/-! ## A master's turn -/

section
variable {s : State} {m : Nat} {acc : Option Access} {asBytes : Bool} {rest : List Input}

theorem hostTurn_of_reset (reset : s.resetIn = true) : hostTurn m acc asBytes rest s = .refused .accessDuringReset :=
  if_pos reset

theorem hostTurn_of_waiting (noReset : s.resetIn = false) (waits : s.isHeld m = true) :
    hostTurn m acc asBytes rest s = coreTurn s := by
  unfold hostTurn
  rw [if_neg (Bool.eq_false_iff.1 noReset), if_pos waits]

theorem hostTurn_of_free (noReset : s.resetIn = false) (free : s.isHeld m = false) {a : Access} :
    hostTurn m (some a) asBytes rest s = issue ⟨m, a, asBytes⟩ { s with inputs := rest } := by
  rw [hostTurn, if_neg (Bool.eq_false_iff.1 noReset), if_neg (Bool.eq_false_iff.1 free)]

theorem hostTurn_of_not_admitted (noReset : s.resetIn = false) (free : s.isHeld m = false) :
    hostTurn m none asBytes rest s = .refused .busAccessNotAdmitted := by
  rw [hostTurn, if_neg (Bool.eq_false_iff.1 noReset), if_neg (Bool.eq_false_iff.1 free)]

/-- A master's turn that goes through is the core's, or the access it makes. -/
theorem hostTurn_next {t : State} (h : hostTurn m acc asBytes rest s = .next t) :
    coreTurn s = .next t ∨ ∃ a, acc = some a ∧ issue ⟨m, a, asBytes⟩ { s with inputs := rest } = .next t := by
  unfold hostTurn at h
  split_ifs at h
  · exact .inl h
  · cases acc with
    | none => cases h
    | some a => exact .inr ⟨a, rfl, h⟩

end

/-! ## The core's turn and the accesses at the ports -/

/-- Settles O5: in each of the three ways the turn is the core's, which in phase BUSY is the completion. -/
theorem stepRunsDecodedCommand : Obligations.StepRunsDecodedCommand := by
  intro s i busy hi
  have core : coreTurn s = exec i s := (coreTurn_of_busy busy).trans (completionStep_of_decode hi)
  refine ⟨fun rest hin => ?_, fun hin => ?_, fun m a rest hin noReset waits => ?_, fun m b rest hin noReset waits => ?_⟩
  · rw [step_of_core (.inr busy) hin, coreTurn_of_busy (s := { s with inputs := rest }) busy]
    exact completionStep_of_decode hi
  · rw [step_of_no_input (.inr busy) hin, core]
  · rw [step_of_host (.inr busy) hin, hostTurn_of_waiting noReset waits, core]
  · rw [step_of_bus (.inr busy) hin, hostTurn_of_waiting noReset waits, core]

/-- Settles O6: the launched word puts the core's turn first, and the step after the launch is the completion. -/
theorem fetchedWordRunsNext : Obligations.FetchedWordRunsNext := by
  intro s w i hi hw
  rw [State.withFetchWord, Nat.mod_eq_of_lt hw]
  exact (step_of_core (s := launchWord _ s) (.inr rfl) rfl).trans (completionStep_of_decode hi)

theorem issue_regWrite (m : Nat) (k : BitVec 4) (v : Reg) (asBytes : Bool) (s : State) :
    issue ⟨m, .regWrite k v, asBytes⟩ s = .next (hostRegWrite k v s) := rfl

/-- Settles O8: the turn of a master that waits for nothing is its access. -/
theorem stepMakesHostAccess : Obligations.StepMakesHostAccess := by
  refine ⟨fun s m a rest hin noReset free ready => ?_, fun s m k v asBytes => issue_regWrite m k v asBytes s⟩
  have made : step s = issue ⟨m, a, false⟩ { s with inputs := rest } :=
    (step_of_host ready hin).trans (hostTurn_of_free noReset free)
  refine ⟨made, fun k v ha => ?_⟩
  rw [made, ha, issue_regWrite]

/-- Settles O9: under reset the input is taken and the access is refused. -/
theorem accessDuringResetIsRefused : Obligations.AccessDuringResetIsRefused := by
  intro s m rest reset
  constructor
  · intro a hin
    rw [step_eq_inputTurn_of_reset reset, inputTurn, hin]
    exact hostTurn_of_reset reset
  · intro b hin
    rw [step_eq_inputTurn_of_reset reset, inputTurn, hin]
    exact hostTurn_of_reset reset

/-! ## Registers after a reset (10_state R53, 70_reset R270) -/

/-- Every register but ID is 0. -/
structure Cleared (s : State) : Prop where
  ie : s.ie = false
  status : s.status = .zero
  cmd : s.cmd = 0
  desc : s.desc = .zero
  rLen : s.rLen = 0
  r2Len : s.r2Len = 0
  res : s.res = 0

theorem Cleared.regValue_eq_zero {s : State} (h : Cleared s) {r : RegName} (hr : r ≠ .id) : regValue s r = 0 := by
  cases r with
  | id => exact absurd rfl hr
  | ctrl => rw [regValue, h.ie]; rfl
  | status => rw [regValue, h.status]; decide
  | cmd => exact h.cmd
  | rLen => exact h.rLen
  | r2Len => exact h.r2Len
  | res => exact h.res
  | aBase | aLen | bBase | bLen | rBase | r2Base => rw [regValue, h.desc]; rfl

theorem Cleared.hostRegRead_eq_zero {s : State} (h : Cleared s) {k : BitVec 4} (hk : k ≠ 0) : hostRegRead k s = 0 := by
  rw [hostRegRead]
  cases hr : RegName.ofIndex k with
  | none => rfl
  | some r =>
    refine h.regValue_eq_zero ?_
    rintro rfl
    exact hk (index_of_ofIndex hr).symm

theorem Cleared.phase_eq_idle {s : State} (h : Cleared s) : s.phase = .idle :=
  Machine.phase_eq_idle (by rw [h.status]; rfl)

theorem cleared_resetOf (c : Config) : Cleared (State.resetOf c) := ⟨rfl, rfl, rfl, rfl, rfl, rfl, rfl⟩

theorem cleared_assertReset (s : State) : Cleared (assertReset s) := ⟨rfl, rfl, rfl, rfl, rfl, rfl, rfl⟩

/-- Settles O48: the reset state is cleared in every configuration. -/
theorem resetClearsEveryRegister : Obligations.ResetClearsEveryRegister :=
  ⟨fun c _ hk => (cleared_resetOf c).hostRegRead_eq_zero hk,
    fun c => ⟨(cleared_resetOf c).phase_eq_idle, irq_of_not_enabled rfl⟩, by decide, by decide, by decide⟩

theorem hostRegRead_id (s : State) : hostRegRead 0 s = idValue s.cfg := hostRegRead_index .id s

/-- Settles O49: the assertion clears the state and keeps the configuration. -/
theorem resetInputClearsEveryRegister : Obligations.ResetInputClearsEveryRegister := by
  intro s rest hin ready
  have cleared := cleared_assertReset { s with inputs := rest }
  exact ⟨_, step_of_assertReset ready hin, fun k hk => cleared.hostRegRead_eq_zero hk, rfl, cleared.phase_eq_idle,
    irq_of_not_enabled cleared.ie, rfl, rfl⟩

end Sys2Proof.Machine
end

section
/-! PROOFS. What every step leaves as it is: the configuration (00_scope R8), what a command in flight must not show (10_state
R45 to R48), the result registers outside a success and a reset (R45), and the phase outside a launch (60_exceptions R245). -/

namespace Sys2Proof.Machine

/-! ## The configuration (00_scope R8) -/

theorem issue_keeps_cfg {r : Request} {s t : State} (h : issue r s = .next t) : t.cfg = s.cfg := by
  rcases issue_cases r s t h with ⟨k, -, rfl⟩ | ⟨k, v, -, rfl⟩ | ⟨-, -, rfl⟩ | ⟨-, a, -, -, rfl⟩ | ⟨-, a, v, -, -, rfl⟩
  · rfl
  · exact (hostRegWrite_frame k v s).1
  · rfl
  · rfl
  · rfl

theorem step_keeps_cfg {s t : State} (h : step s = .next t) : t.cfg = s.cfg := by
  cases step_move s t h with
  | idle rest _ ht => rw [ht]
  | complete rest _ ht =>
    obtain ⟨-, -, hcfg, -⟩ := completionStep_frame _ t ht
    exact hcfg
  | unhold r rest _ _ _ ht => exact (issue_keeps_cfg ht :)
  | access r rest _ _ ht => exact (issue_keeps_cfg ht :)
  | assertReset rest ht => rw [ht]; rfl
  | releaseReset rest ht => rw [ht]

/-- Settles O54: no move touches the configuration, and ID is a function of it. -/
theorem configurationNeverChanges : Obligations.ConfigurationNeverChanges := by
  intro s t h
  have hcfg := step_keeps_cfg h
  exact ⟨hcfg, by rw [hostRegRead_id, hostRegRead_id, hcfg]⟩

/-! ## A command in flight (10_state R45 to R48, 20_memory R73) -/

theorem busy_of_phase {s : State} (h : s.phase = .busy) : s.status.busy = true := by
  by_contra idle
  rw [phase_eq_idle (Bool.eq_false_iff.2 idle)] at h
  cases h

theorem idle_of_phase {s : State} (h : s.phase = .idle) : s.status.busy = false := by
  by_contra busy
  rw [phase_eq_busy (Bool.not_eq_false _ ▸ busy)] at h
  cases h

/-- What a command in flight works on and will change. -/
def State.SameForCommand (s t : State) : Prop :=
  t.wmem = s.wmem ∧ t.shadow = s.shadow ∧ t.rLen = s.rLen ∧ t.r2Len = s.r2Len ∧ t.res = s.res ∧
    t.status.flag = s.status.flag

/-- In phase BUSY a register write changes nothing of this, but for the soft reset, which ends the phase. -/
theorem hostRegWrite_sameForCommand {k : BitVec 4} {v : Reg} {s : State} (busy : s.status.busy = true)
    (still : (hostRegWrite k v s).status.busy = true) : s.SameForCommand (hostRegWrite k v s) := by
  rcases hostRegWrite_cases k v s with ⟨-, -, h⟩ | ⟨-, -, h⟩ | ⟨-, idle, -⟩ | ⟨-, h⟩ | ⟨ie, d, h⟩
  · rw [h] at still
    cases still
  · exact h ▸ ⟨rfl, rfl, rfl, rfl, rfl, rfl⟩
  · exact absurd (busy.symm.trans idle) nofun
  · exact h ▸ ⟨rfl, rfl, rfl, rfl, rfl, rfl⟩
  · exact h ▸ ⟨rfl, rfl, rfl, rfl, rfl, rfl⟩

theorem issue_sameForCommand {r : Request} {s t : State} (h : issue r s = .next t) (busy : s.status.busy = true)
    (still : t.status.busy = true) : s.SameForCommand t := by
  rcases issue_cases r s t h with ⟨k, -, rfl⟩ | ⟨k, v, -, rfl⟩ | ⟨-, -, rfl⟩ | ⟨idle, -⟩ | ⟨idle, -⟩
  · exact ⟨rfl, rfl, rfl, rfl, rfl, rfl⟩
  · exact hostRegWrite_sameForCommand busy still
  · exact ⟨rfl, rfl, rfl, rfl, rfl, rfl⟩
  · exact absurd (busy.symm.trans idle) nofun
  · exact absurd (busy.symm.trans idle) nofun

/-- Settles O55: a step that stays in phase BUSY is an access of a master or the release of the reset input. -/
theorem commandInFlightIsNotObservable : Obligations.CommandInFlightIsNotObservable := by
  intro s t h before after
  have busy := busy_of_phase before
  have still := busy_of_phase after
  cases step_move s t h with
  | idle rest idle _ => exact absurd (busy.symm.trans idle) nofun
  | complete rest _ ht => exact absurd (still.symm.trans (completionStep_frame _ t ht).1) nofun
  | unhold r rest _ idle _ _ => exact absurd (busy.symm.trans idle) nofun
  | access r rest _ _ ht => exact (issue_sameForCommand ht busy still :)
  | assertReset rest ht => subst ht; cases still
  | releaseReset rest ht => subst ht; exact ⟨rfl, rfl, rfl, rfl, rfl, rfl⟩

/-! ## The result registers (10_state R45) -/

/-- The result registers as they were, or all of them and STATUS at 0. -/
def State.ResultsKeptOrCleared (s t : State) : Prop :=
  (t.rLen = s.rLen ∧ t.r2Len = s.r2Len ∧ t.res = s.res) ∨ (t.rLen = 0 ∧ t.r2Len = 0 ∧ t.res = 0 ∧ t.status = .zero)

theorem hostRegWrite_results (k : BitVec 4) (v : Reg) (s : State) : s.ResultsKeptOrCleared (hostRegWrite k v s) := by
  rcases hostRegWrite_cases k v s with ⟨-, -, h⟩ | ⟨-, -, h⟩ | ⟨-, -, h⟩ | ⟨-, h⟩ | ⟨ie, d, h⟩ <;> rw [h]
  · exact .inr ⟨rfl, rfl, rfl, rfl⟩
  · exact .inl ⟨rfl, rfl, rfl⟩
  · exact .inl ⟨rfl, rfl, rfl⟩
  · exact .inl ⟨rfl, rfl, rfl⟩
  · exact .inl ⟨rfl, rfl, rfl⟩

theorem issue_results {r : Request} {s t : State} (h : issue r s = .next t) : s.ResultsKeptOrCleared t := by
  rcases issue_cases r s t h with ⟨k, -, rfl⟩ | ⟨k, v, -, rfl⟩ | ⟨-, -, rfl⟩ | ⟨-, a, -, -, rfl⟩ | ⟨-, a, v, -, -, rfl⟩
  · exact .inl ⟨rfl, rfl, rfl⟩
  · exact hostRegWrite_results k v s
  · exact .inl ⟨rfl, rfl, rfl⟩
  · exact .inl ⟨rfl, rfl, rfl⟩
  · exact .inl ⟨rfl, rfl, rfl⟩

/-- Settles O56: a completion is a success or leaves them, and every other move leaves or clears them. -/
theorem resultsChangeOnlyAtSuccessOrReset : Obligations.ResultsChangeOnlyAtSuccessOrReset := by
  intro s t h
  cases step_move s t h with
  | idle rest _ ht => exact .inl (ht ▸ ⟨rfl, rfl, rfl⟩)
  | complete rest busy ht =>
    rcases completionStep_next _ t ht with ⟨i, -, -, rfl⟩ | ⟨e, -, rfl⟩
    · exact .inr (.inl ⟨phase_eq_busy busy, rfl, rfl, rfl, rfl⟩)
    · exact .inl ⟨rfl, rfl, rfl⟩
  | unhold r rest _ _ _ ht => exact (issue_results ht).imp_right .inr
  | access r rest _ _ ht => exact (issue_results ht).imp_right .inr
  | assertReset rest ht => exact .inr (.inr (ht ▸ ⟨rfl, rfl, rfl, rfl⟩))
  | releaseReset rest ht => exact .inl (ht ▸ ⟨rfl, rfl, rfl⟩)

/-! ## The phase (60_exceptions R245) -/

/-- Of the accesses only a write of CMD enters phase BUSY, and it is a launch. -/
theorem issue_enters_busy {r : Request} {s t : State} (h : issue r s = .next t) (idle : s.status.busy = false)
    (busy : t.status.busy = true) : ∃ v, r.access = .regWrite 3 v ∧ t = launch { s with cmd := v } := by
  have unchanged : t.status ≠ s.status := by
    intro same
    rw [same, idle] at busy
    cases busy
  rcases issue_cases r s t h with ⟨k, -, rfl⟩ | ⟨k, v, hr, rfl⟩ | ⟨held, -⟩ | ⟨-, a, -, -, rfl⟩ | ⟨-, a, v, -, -, rfl⟩
  · exact absurd rfl unchanged
  · rcases hostRegWrite_cases k v s with ⟨-, -, hw⟩ | ⟨-, held, -⟩ | ⟨rfl, -, hw⟩ | ⟨-, hw⟩ | ⟨ie, d, hw⟩
    · rw [hw] at busy
      cases busy
    · exact absurd (held.symm.trans idle) nofun
    · exact ⟨v, hr, hw⟩
    · rw [hw] at busy
      exact absurd (busy.symm.trans idle) nofun
    · exact absurd (hw ▸ rfl) unchanged
  · exact absurd (held.symm.trans idle) nofun
  · exact absurd rfl unchanged
  · exact absurd rfl unchanged

/-- The access that the first input makes, and how it came. -/
def State.FirstAccess (s : State) (m : Nat) (a : Access) (rest : List Input) : Prop :=
  s.inputs = .host m a :: rest ∨ ∃ b, s.inputs = .bus m b :: rest ∧ busToPort s.cfg b = some a

/-- An input that enters phase BUSY is an access. -/
theorem inputTurn_enters_busy {s t : State} (h : inputTurn s = .next t) (idle : s.status.busy = false)
    (busy : t.status.busy = true) :
    ∃ m a asBytes rest, s.FirstAccess m a rest ∧ issue ⟨m, a, asBytes⟩ { s with inputs := rest } = .next t := by
  have noCore (rest : List Input) : coreTurn { s with inputs := rest } ≠ .next t := by
    rw [coreTurn_of_idle (s := { s with inputs := rest }) idle]
    rintro ⟨⟩
    exact absurd (busy.symm.trans idle) nofun
  rw [inputTurn] at h
  split at h
  case h_1 => exact absurd h (noCore s.inputs)
  case h_2 => exact absurd h (noCore _)
  case h_3 => cases h; cases busy
  case h_4 => cases h; exact absurd (busy.symm.trans idle) nofun
  case h_5 m a rest hin =>
    obtain hcore | ⟨_, ⟨⟩, ht⟩ := hostTurn_next h
    · exact absurd hcore (noCore s.inputs)
    · exact ⟨m, a, false, rest, .inl hin, ht⟩
  case h_6 m b rest hin =>
    obtain hcore | ⟨a, ha, ht⟩ := hostTurn_next h
    · exact absurd hcore (noCore s.inputs)
    · exact ⟨m, a, true, rest, .inr ⟨b, hin, ha⟩, ht⟩

/-- A held access is no register write, so it enters no phase. -/
theorem step_enters_busy {s t : State} (hs : s.HeldInv) (h : step s = .next t) (idle : s.status.busy = false)
    (busy : t.status.busy = true) : inputTurn s = .next t := by
  rw [step, takeTurn] at h
  split at h
  case h_1 r rest hheld =>
    split at h
    case isTrue => exact h
    case isFalse =>
      obtain ⟨v, hv, -⟩ := issue_enters_busy h idle busy
      rcases (heldInv_tail hheld hs).1 with ⟨a, ha, -⟩ | ⟨a, x, ha, -⟩ <;> exact absurd (hv.symm.trans ha) nofun
  case h_2 => exact h

/-- Settles O57: the step is the first input, an access, and of these only the CMD write launches. -/
theorem onlyLaunchEntersBusy : Obligations.OnlyLaunchEntersBusy := by
  intro s t hs h before after
  have idle := idle_of_phase before
  have busy := busy_of_phase after
  obtain ⟨m, a, asBytes, rest, first, ht⟩ := inputTurn_enters_busy (step_enters_busy hs h idle busy) idle busy
  obtain ⟨v, rfl, rfl⟩ := issue_enters_busy ht idle busy
  exact ⟨m, v, rest, first, rfl, rfl, rfl, rfl, rfl⟩

end Sys2Proof.Machine
end

section
/-! PROOFS. The ports and the byte bus: what a register reads (10_state R34, R38, R40), a WMEM access in each phase (20_memory
R71 to R73), the admitted byte bus accesses (R81) and the byte order (R79). -/

namespace Sys2Proof.Machine

/-! ## Register reads (10_state R34) -/

/-- Settles O37: the port answers with the register and changes nothing else. -/
theorem registerReadsHaveNoSideEffect : Obligations.RegisterReadsHaveNoSideEffect := by
  refine ⟨fun s m k => rfl, fun s k hk => ?_, fun s => ⟨rfl, rfl, rfl, rfl, rfl, rfl, rfl, rfl, rfl, rfl⟩⟩
  have reserved : k = 13 ∨ k = 14 ∨ k = 15 := by bv_omega
  rcases reserved with rfl | rfl | rfl <;> rfl

/-- The fields of STATUS at their places, and 0 elsewhere (10_state R40). -/
theorem Status.value_fields (t : Status) :
    t.value.getLsbD 0 = t.busy ∧ t.value.getLsbD 1 = t.done ∧ t.value.getLsbD 2 = t.err ∧ t.value.getLsbD 3 = t.flag ∧
      t.value.getLsbD 4 = t.ovr ∧ t.value.extractLsb' 5 3 = 0 ∧ (t.value.extractLsb' 8 4).toNat = t.ecode.code ∧
      t.value.extractLsb' 12 20 = 0 := by
  obtain ⟨busy, done, err, flag, ovr, ecode⟩ := t
  cases ecode <;> revert busy done err flag ovr <;> decide

/-- Settles O39: index 2 reads STATUS and index 1 reads IE. -/
theorem statusAndCtrlReadTheirFields : Obligations.StatusAndCtrlReadTheirFields := by
  intro s
  have hstatus : hostRegRead 2 s = s.status.value := hostRegRead_index .status s
  have hctrl : hostRegRead 1 s = BitVec.ofNat 32 s.ie.toNat := hostRegRead_index .ctrl s
  obtain ⟨busy, done, err, flag, ovr, low, code, high⟩ := s.status.value_fields
  rw [hstatus, hctrl]
  refine ⟨busy, done, err, flag, ovr, low, code, high, ?_⟩
  cases s.ie <;> decide

/-! ## WMEM accesses (20_memory R71 to R73) -/

theorem issue_memRead_of_idle {r : Request} {s : State} {a : Nat} (hr : r.access = .memRead a)
    (idle : s.status.busy = false) (ha : a < s.cfg.depth) :
    issue r s = .next (respond r (.word (readWord s.cfg s.wmem a)) s) := by
  simp [issue, hr, memAccess, idle, Nat.not_le.2 ha]

theorem issue_memWrite_of_idle {r : Request} {s : State} {a v : Nat} (hr : r.access = .memWrite a v)
    (idle : s.status.busy = false) (ha : a < s.cfg.depth) :
    issue r s = .next { s with wmem := writeWord s.cfg s.wmem a v } := by
  simp [issue, hr, memAccess, idle, Nat.not_le.2 ha]

/-- Settles O43: in phase BUSY a read and a write of a word are put behind the held ones. -/
theorem busyWmemAccessIsHeld : Obligations.BusyWmemAccessIsHeld := by
  rintro s r busy (⟨a, hr, ha⟩ | ⟨a, v, hr, ha⟩)
  · simp [issue, hr, memAccess, busy, Nat.not_le.2 ha]
  · simp [issue, hr, memAccess, busy, Nat.not_le.2 ha]

/-- Settles O44: the address is looked at before the phase. -/
theorem addressBeyondDepthFaults : Obligations.AddressBeyondDepthFaults := by
  intro s m a v ha
  exact ⟨if_pos ha, if_pos ha⟩

/-- Settles O42: the word read is the word of WMEM, and the write is the write of one word. -/
theorem idleWmemAccessIsPerformedAtOnce : Obligations.IdleWmemAccessIsPerformedAtOnce := by
  intro s m a hm idle ha
  refine ⟨issue_memRead_of_idle rfl idle ha, fun v asBytes => ⟨_, issue_memWrite_of_idle rfl idle ha, ?_⟩⟩
  exact ⟨wf_writeWord _ _ _ _ hm, readWord_writeWord_same _ _ _ _ hm, fun b hb => readWord_writeWord_other _ _ _ _ _ hm hb,
    fun b hb => read_writeWord_outside _ _ _ _ hm b hb⟩

/-! ## The byte order (20_memory R79) -/

/-- Bytes are the bytes of the value they stand for. -/
theorem toBytes_fromBytes (bs : List Byte) : toBytes bs.length (fromBytes bs) = bs := by
  induction bs with
  | nil => rfl
  | cons b bs ih =>
    have hb := b.isLt
    have low : BitVec.ofNat 8 (fromBytes (b :: bs)) = b := by
      apply BitVec.eq_of_toNat_eq
      rw [BitVec.toNat_ofNat, fromBytes]
      omega
    have high : fromBytes (b :: bs) / 256 = fromBytes bs := by
      rw [fromBytes]
      omega
    rw [List.length_cons, toBytes, low, high, ih]

theorem littleEndian_fromBytes (bs : List Byte) : LittleEndian bs bs.length (fromBytes bs) := by
  have h := littleEndian_toBytes bs.length (fromBytes bs)
  rwa [toBytes_fromBytes] at h

/-- The bytes of a word of WMEM are the bytes of the byte view at its place. -/
theorem toBytes_readWord (c : Config) (m : Memory) (a : Nat) : toBytes c.bytesPerWord (readWord c m a) =
    (List.range c.bytesPerWord).map fun j => m.read (a * c.bytesPerWord + j) := by
  have h := toBytes_fromBytes ((List.range c.bytesPerWord).map fun j => m.read (a * c.bytesPerWord + j))
  rwa [List.length_map, List.length_range] at h

/-- Settles O47: a value goes out as `toBytes` of it and comes in as `fromBytes`, and these are inverse. -/
theorem busReadsLeastSignificantByteFirst : Obligations.BusReadsLeastSignificantByteFirst := by
  refine ⟨fun c v x hx => ⟨⟨_, rfl, littleEndian_toBytes _ _, ?_⟩, ⟨_, rfl, littleEndian_toBytes _ _, ?_⟩⟩,
    fun s m k => ⟨_, rfl, littleEndian_toBytes _ _⟩,
    fun s m a idle ha => ⟨_, issue_memRead_of_idle rfl idle ha, littleEndian_toBytes _ _, fun j hj => ?_⟩,
    fun data => ⟨littleEndian_fromBytes data, ?_⟩⟩
  · rw [fromBytes_toBytes]
    exact Nat.mod_eq_of_lt v.isLt
  · rw [fromBytes_toBytes, c.pow_bytesPerWord, Nat.mod_eq_of_lt hx]
  · rw [toBytes_readWord]
    simp [hj]
  · rw [Nat.pow_mul]
    exact fromBytes_lt data

/-! ## The admitted accesses (20_memory R81) -/

section
variable {c : Config} {addr size off : Nat}

/-- A place of the register window admits 4 bytes at a multiple of 4 and nothing else. -/
theorem busSlot_in_regWindow (haddr : addr = c.regBase + off) (hoff : off < 64) (bad : size ≠ 4 ∨ off % 4 ≠ 0) :
    busSlot c addr size = none := by
  rw [busSlot, if_pos (by omega), if_neg (by omega)]

/-- A place of the WMEM window admits the bytes of a word at a multiple of their number and nothing else. -/
theorem busSlot_in_wmemWindow
    (apart : c.regBase + 64 ≤ c.wmemBase ∨ c.wmemBase + c.depth * c.bytesPerWord ≤ c.regBase)
    (haddr : addr = c.wmemBase + off) (hoff : off < c.depth * c.bytesPerWord)
    (bad : size ≠ c.bytesPerWord ∨ off % c.bytesPerWord ≠ 0) : busSlot c addr size = none := by
  have hdiff : addr - c.wmemBase = off := by omega
  rw [busSlot, if_neg (by omega), if_pos (by omega), hdiff, if_neg (by tauto)]

theorem busSlot_outside (outReg : addr < c.regBase ∨ c.regBase + 64 ≤ addr)
    (outWmem : addr < c.wmemBase ∨ c.wmemBase + c.depth * c.bytesPerWord ≤ addr) : busSlot c addr size = none := by
  rw [busSlot, if_neg (by omega), if_neg (by omega)]

end

/-- Settles O46: an access with a slot is the access of that slot at the ports, and one without a slot is refused. -/
theorem busReachesRegistersAndWords : Obligations.BusReachesRegistersAndWords := by
  intro s m rest noReset free ready apart
  have admitted {b : BusAccess} {a : Access} (ha : busToPort s.cfg b = some a) (hin : s.inputs = .bus m b :: rest) :
      step s = issue ⟨m, a, true⟩ { s with inputs := rest } := by
    rw [step_of_bus ready hin, ha, hostTurn_of_free noReset free]
  refine ⟨fun k => ⟨admitted ?regRead, fun data hlen => admitted ?regWrite⟩,
    fun a ha => ⟨admitted ?memRead, fun data hlen => admitted ?memWrite⟩, fun b addr size hb hin => ?refused⟩
  case regRead => rw [busToPort, busSlot_reg]
  case regWrite => rw [busToPort, hlen, busSlot_reg]
  case memRead => rw [busToPort, busSlot_word _ a ha apart]
  case memWrite => rw [busToPort, hlen, busSlot_word _ a ha apart]
  case refused =>
    have refused (hslot : busSlot s.cfg addr size = none) : step s = .refused .busAccessNotAdmitted := by
      rw [step_of_bus ready hin, busToPort_of_no_slot _ b addr size hb hslot, hostTurn_of_not_admitted noReset free]
    exact ⟨fun off haddr hoff bad => refused (busSlot_in_regWindow haddr hoff bad),
      fun off haddr hoff bad => refused (busSlot_in_wmemWindow apart haddr hoff bad),
      fun outReg outWmem => refused (busSlot_outside outReg outWmem)⟩

end Sys2Proof.Machine
end

section
/-! PROOFS. Runs with held accesses (20_memory R73, 70_reset R283): a held access is performed in the step after the hold
ends, all of them are performed in order, and polls do not change the completion. -/

namespace Sys2Proof.Machine

/-! ## One held access (20_memory R73) -/

/-- After a completion the oldest held access comes next. -/
theorem step_after_completion {s t : State} {r : Request} {rest : List Request} (ht : completionStep s = .next t)
    (hheld : s.held = r :: rest) (noReset : s.resetIn = false) : step t = issue r { t with held := rest } := by
  obtain ⟨idle, -, -, -, held, reset, -⟩ := completionStep_frame s t ht
  exact step_eq_issue_held (held.trans hheld) idle (reset.trans noReset)

/-- Settles O60: the phase is IDLE after a completion and after a soft reset, and neither touches the held accesses. -/
theorem heldAccessIsPerformedWhenIdle : Obligations.HeldAccessIsPerformedWhenIdle := by
  intro s r rest noReset hheld
  refine ⟨fun idle => step_eq_issue_held hheld idle noReset, fun t ht => step_after_completion ht hheld noReset,
    fun v hbit => ?softReset, fun t a v hm ht hr ha => ?write⟩
  case softReset =>
    rw [hostRegWrite_softReset hbit]
    exact step_eq_issue_held hheld rfl noReset
  case write =>
    obtain ⟨idle, -, hcfg, -⟩ := completionStep_frame s t ht
    have canonical := wf_completionStep s t ht hm
    rw [step_after_completion ht hheld noReset,
      issue_memWrite_of_idle (s := { t with held := rest }) hr idle (hcfg ▸ ha)]
    exact ⟨_, rfl, wf_writeWord _ _ _ _ canonical, readWord_writeWord_same _ _ _ _ canonical,
      fun b hb => readWord_writeWord_other _ _ _ _ _ canonical hb⟩

/-- Settles O45: the answer is the word of WMEM after the completion, on the byte bus as its bytes. -/
theorem heldReadSeesTheResult : Obligations.HeldReadSeesTheResult := by
  intro s t m a asBytes rest noReset ha hheld ht
  obtain ⟨idle, -, hcfg, -⟩ := completionStep_frame s t ht
  have performed := (step_after_completion ht hheld noReset).trans
    (issue_memRead_of_idle (s := { t with held := rest }) rfl idle (hcfg ▸ ha))
  refine ⟨_, performed, ?_, ?_⟩
  · rintro rfl
    rfl
  · rintro rfl
    exact ⟨_, rfl, littleEndian_toBytes _ _⟩

/-! ## Runs -/

theorem run_succ_of_next {M : Host.Core} {s t : M.State} (h : M.step s = .next t) (n : Nat) :
    M.run (n + 1) s = M.run n t := by
  simp only [Host.Core.run, h]

/-- A run goes on from the state its first step leads to. -/
theorem run_succ_of_step {s t : State} (h : step s = .next t) (n : Nat) :
    Host.Core.run Sys2Proof.core (n + 1) s = Host.Core.run Sys2Proof.core n t :=
  run_succ_of_next (M := Sys2Proof.core) h n

/-- Settles O58, by induction on the polls: each of them changes the port's answer alone. -/
theorem pollingDoesNotChangeTheCompletion : Obligations.PollingDoesNotChangeTheCompletion := by
  intro n
  induction n with
  | zero =>
    intro s m rest busy _ _ hin
    obtain ⟨t, ht⟩ := completionStep_answers { s with inputs := rest }
    have completes : step s = .next t := by
      rw [step_of_core (.inr busy) hin, coreTurn_of_busy (s := { s with inputs := rest }) busy, ht]
    exact (run_succ_of_step completes 0).trans ht.symm
  | succ n ih =>
    intro s m rest busy noReset free hin
    have polled : step s = .next { s with
        inputs := List.replicate n (.host m (asmRd .status)) ++ .core :: rest
        readData := some ⟨m, .reg s.status.value⟩ } := by
      rw [step_of_host (.inr busy) hin, hostTurn_of_free noReset free]
      rfl
    rw [if_neg (Nat.succ_ne_zero n)]
    exact ((run_succ_of_step polled (n + 1)).trans (ih _ m rest busy noReset free rfl)).trans
      (congrArg (fun x => completionStep { s with inputs := rest, readData := x }) (ite_self _))

/-- Held accesses to words are performed one by one in phase IDLE, and change the port's answer and WMEM alone. -/
theorem run_held (l : List Request) (c : State) (hheld : c.held = l) (idle : c.status.busy = false)
    (noReset : c.resetIn = false) (words : ∀ r ∈ l, r.IsMemAccess c.cfg) :
    ∃ data mem, performInOrder l { c with held := [] } = .next { c with held := [], readData := data, wmem := mem } ∧
      Host.Core.run Sys2Proof.core l.length c = .next { c with held := [], readData := data, wmem := mem } := by
  induction l generalizing c with
  | nil =>
    have nothing : c = { c with held := [] } := by rw [← hheld]
    exact ⟨c.readData, c.wmem, rfl, congrArg Host.Outcome.next nothing⟩
  | cons r l ih =>
    obtain ⟨word, words⟩ := List.forall_mem_cons.1 words
    obtain ⟨data, mem, performed⟩ := issue_of_isMemAccess r c idle word
    obtain ⟨data', mem', inOrder, runs⟩ :=
      ih { c with held := l, readData := data, wmem := mem } rfl idle noReset words
    refine ⟨data', mem', ?_, ?_⟩
    · rw [performInOrder_cons r l _ _ (performed [])]
      exact inOrder
    · have stepped := (step_eq_issue_held hheld idle noReset).trans (performed l)
      exact (run_succ_of_step stepped l.length).trans runs

/-- Settles O59: the first step is the completion, which leaves the held accesses, and these are then performed. -/
theorem heldAccessesAreAllPerformed : Obligations.HeldAccessesAreAllPerformed := by
  intro s rest hs busy noReset hin
  obtain ⟨c, hc⟩ := completionStep_answers { s with inputs := rest }
  have completes : step s = .next c := by
    rcases hin with ⟨hnil, rfl⟩ | hcore
    · rw [step_of_no_input (.inr busy) hnil, coreTurn_of_busy busy, ← hc, ← hnil]
    · rw [step_of_core (.inr busy) hcore, coreTurn_of_busy (s := { s with inputs := rest }) busy, hc]
  obtain ⟨idle, done, hcfg, -, hheld, hreset, hinputs⟩ := completionStep_frame _ c hc
  obtain ⟨data, mem, inOrder, runs⟩ := run_held s.held c hheld idle (hreset.trans noReset) (hcfg ▸ hs.1)
  refine ⟨c, _, hc, inOrder, ?_, phase_eq_idle idle, rfl, done, hinputs⟩
  rw [Nat.add_comm]
  exact (run_succ_of_step completes _).trans runs

end Sys2Proof.Machine
end

section
/-! PROOFS. The commands of one input and the commands that only report, and MUL: which checks they pass (60_exceptions R242), and
what they leave in WMEM and in the result registers (40_bit_primitives, 42_multiply, 44_shift, 45_compare_normalize,
46_twos_complement). -/

namespace Sys2Proof.Machine

/-! ## The checks (60_exceptions R242 to R244, R249) -/

theorem check_eq_noError {i : Instr} {s : State} (shift : ¬ BadShift i s) (len : ¬ BadLen i s) (range : ¬ BadRange i s)
    (place : ¬ BadPlacement i s) (norm : ¬ BadNorm i s) (div : ¬ BadDivisor i s) (diff : ¬ BadDifference i s) :
    check i s = .noError := by
  rw [check_eq_first_failed, if_neg shift, if_neg len, if_neg range, if_neg place, if_neg norm, if_neg div, if_neg diff]

/-- An output region of a command of one input: in WMEM, and clear of A or in place where the command admits it
(20_memory R78). -/
def PlacedByA (i : Instr) (s : State) (o : Region) : Prop :=
  o.Fits s.cfg ∧ (o.Apart (regionA s.shadow.desc) ∨ (mayBeInPlace i = true ∧ o.base = s.shadow.desc.aBase.toNat))

/-- A command that does not use B is checked on A, its shift amount and its output regions alone. -/
theorem check_of_oneInput {i : Instr} {s : State} (unused : usesB i = false) (shift : ¬ BadShift i s) (hA : s.UsableA)
    (outs : ∀ o ∈ outputRegions i s.shadow.desc, PlacedByA i s o) (norm : needsNormalized i = true → Normalized s.inputA) :
    check i s = .noError := by
  have noB : ¬ usesB i = true := Bool.eq_false_iff.1 unused
  obtain ⟨la, fitsA⟩ := hA
  refine check_eq_noError shift ?len ?range ?place ?norm ?div ?diff
  case len =>
    rintro (hzero | ⟨uses, -⟩)
    · exact la.ne' hzero
    · exact noB uses
  case range =>
    rintro ⟨r, hr, outside⟩
    rcases List.mem_append.1 hr with hin | hout
    · rw [inputRegions, unused] at hin
      exact outside (List.mem_singleton.1 hin ▸ fitsA)
    · exact outside (outs r hout).1
  case place =>
    rintro (⟨o, ho, ⟨uses, -⟩ | ⟨meets, misplaced⟩⟩ | ⟨r, -, r2, hr2, -⟩)
    · exact noB uses
    · exact (outs o ho).2.elim meets misplaced
    · rw [regionR2, capR2_of_not_usesB unused] at hr2
      cases hr2
  case norm =>
    rintro ⟨needs, unnormalized | ⟨uses, -⟩⟩
    · exact unnormalized (norm needs)
    · exact noB uses
  case div =>
    rintro ⟨rfl, -⟩
    exact noB rfl
  case diff =>
    rintro ⟨rfl, -⟩
    exact noB rfl

/-- CMPLT has two inputs and no output. -/
theorem check_cmplt_of_twoInputs {s : State} (h : s.TwoInputs) : check .cmplt s = .noError := by
  obtain ⟨⟨la, fitsA⟩, ⟨lb, fitsB⟩, normA, normB⟩ := h
  refine check_eq_noError nofun ?len ?range ?place ?norm nofun nofun
  case len =>
    rintro (hzero | ⟨-, hzero⟩)
    · exact la.ne' hzero
    · exact lb.ne' hzero
  case range =>
    have regions : inputRegions .cmplt s.shadow.desc ++ outputRegions .cmplt s.shadow.desc =
        [regionA s.shadow.desc, regionB s.shadow.desc] := rfl
    rintro ⟨r, hr, outside⟩
    rw [regions, List.mem_pair] at hr
    rcases hr with rfl | rfl
    · exact outside fitsA
    · exact outside fitsB
  case place => rintro (⟨o, ho, -⟩ | ⟨r, hr, -⟩) <;> [cases ho; cases hr]
  case norm =>
    rintro ⟨-, unnormalized | ⟨-, unnormalized⟩⟩
    · exact unnormalized normA
    · exact unnormalized normB

theorem not_badShift_of_lt {i : Instr} {s : State} {k : Nat} (hi : i = .shl k ∨ i = .shr k) (hk : k < s.W) :
    ¬ BadShift i s := by
  rw [← shiftTooFar_iff]
  rcases hi with rfl | rfl <;> simpa [shiftTooFar, State.W] using hk

/-! ## Commands that report (60_exceptions R247) -/

/-- Where no check fails, an effect without words is the success completion that leaves WMEM. -/
theorem exec_reports {i : Instr} {s : State} {rLen res : Option Nat} {f : Bool} (hcheck : check i s = .noError)
    (heffect : effectOf i s = { rLen := rLen, res := res, flag := f }) :
    exec i s = .next (s.completedWith s.wmem (resultReg s.rLen rLen) s.r2Len (resultReg s.res res) f) := by
  rw [exec_of_check i s hcheck, heffect]
  rfl

/-- The top word of A, at its address (00_scope R16, R17). -/
theorem topWord_inputA {s : State} (la : 0 < s.la) :
    topWord s.inputA = readWord s.cfg s.wmem (s.shadow.desc.aBase.toNat + s.la - 1) := by
  rw [topWord_eq_getD, length_inputA_eq_la, Nat.add_sub_assoc la]
  exact getD_readArray s.cfg s.wmem _ (Nat.sub_lt la Nat.one_pos)

/-- `clz` counts the bits above the highest set one (00_scope R14). -/
theorem clz_spec {w x : Nat} (hx : x < 2 ^ w) (h0 : x ≠ 0) :
    clz w x < w ∧ 2 ^ (w - 1 - clz w x) ≤ x ∧ x < 2 ^ (w - clz w x) := by
  have hlog : Nat.log2 x < w := (Nat.log2_lt h0).2 hx
  have hclz : clz w x = w - 1 - Nat.log2 x := if_neg h0
  have hback : w - 1 - clz w x = Nat.log2 x := by omega
  refine ⟨by omega, ?_, lt_pow_sub_clz w x hx⟩
  rw [hback]
  exact Nat.log2_self_le h0

/-- Settles O17: CLZ reports `clz` of the top word. -/
theorem clzCountsTopWord : Obligations.ClzCountsTopWord := by
  intro s hA x
  have htop : topWord s.inputA = x := topWord_inputA hA.1
  have hx : x < 2 ^ s.W := readWord_lt _ _ _
  have hcheck : check .clz s = .noError := check_of_oneInput rfl nofun hA nofun nofun
  have heffect : effectOf .clz s = { res := some (clz s.W x), flag := decide (x = 0) } := by
    rw [← htop]
    rfl
  exact ⟨clz s.W x, exec_reports hcheck heffect, fun h0 => if_pos h0, clz_spec hx⟩

/-- Settles O20: ISNEG reports the top bit, which is set from half of `2^W` on. -/
theorem isnegReportsSign : Obligations.IsnegReportsSign := by
  intro s hA sign
  have hsign : topBit s.W s.inputA = sign := by
    rw [topBit, topWord_inputA hA.1, Bool.eq_iff_iff, decide_eq_true_iff]
    exact testBit_top_iff s.cfg.W_pos (readWord_lt _ _ _)
  have hcheck : check .isneg s = .noError := check_of_oneInput rfl nofun hA nofun nofun
  have heffect : effectOf .isneg s = { res := some sign.toNat, flag := sign } := by
    rw [← hsign]
    rfl
  exact exec_reports hcheck heffect

/-- Settles O21: the comparison of normalized arrays is the comparison of their values. -/
theorem cmpltComparesValues : Obligations.CmpltComparesValues := by
  intro s h
  have hcheck := check_cmplt_of_twoInputs h
  obtain ⟨⟨la, -⟩, ⟨lb, -⟩, normA, normB⟩ := h
  have hless : lessThan s.inputA s.inputB = decide (s.valA < s.valB) := by
    rw [Bool.eq_iff_iff, decide_eq_true_iff]
    exact lessThan_iff s.W _ _ (inputA_bounded s) (inputB_bounded s) normA normB (la.trans_eq (length_inputA_eq_la s).symm)
      (lb.trans_eq (length_inputB_eq_lb s).symm)
  have heffect : effectOf .cmplt s =
      { res := some (decide (s.valA < s.valB)).toNat, flag := decide (s.valA < s.valB) } := by
    rw [← hless]
    rfl
  exact exec_reports hcheck heffect

/-- An array has the value 0 iff all its words are 0. -/
theorem val_eq_zero_iff_forall (w : Nat) (xs : WordArray) : val w xs = 0 ↔ ∀ x ∈ xs, x = 0 := by
  induction xs with
  | nil => simp
  | cons x xs ih =>
    rw [val_cons, Nat.add_eq_zero_iff, Nat.mul_eq_zero, or_iff_right (Nat.two_pow_pos w).ne', ih, List.forall_mem_cons]

/-- Settles O22: NORM reports `norm_len`, and FLAG where the value is 0. -/
theorem normReportsLength : Obligations.NormReportsLength := by
  intro s hA
  have hcheck : check .norm s = .noError := check_of_oneInput rfl nofun hA nofun nofun
  have heffect : effectOf .norm s = { rLen := some (normLen s.inputA), flag := decide (s.valA = 0) } := rfl
  exact ⟨_, exec_reports hcheck heffect, isNormLen_normLen _ (hA.1.trans_eq (length_inputA_eq_la s).symm),
    val_eq_zero_iff_forall s.W s.inputA⟩

/-! ## MUL (42_multiply R160, R161) -/

/-- A value that reaches the word `m` counts it in `norm_len`. -/
theorem lt_normLen_of_pow_le {w m : Nat} {xs : WordArray} (hx : Bounded w xs) (lx : 1 ≤ xs.length)
    (h : 2 ^ (w * m) ≤ val w xs) : m < normLen xs := by
  have upper := val_lt w _ (take_bounded (normLen xs) hx)
  rw [val_take_normLen, (take_normLen_normalized xs lx).1] at upper
  exact lt_of_pow_mul_lt (Nat.lt_of_le_of_lt h upper)

theorem effectOf_mul (s : State) : effectOf .mul s =
    { r := wordsOf s.W (s.la + s.lb) (s.valA * s.valB)
      rLen := some (normLen (wordsOf s.W (s.la + s.lb) (s.valA * s.valB)))
      flag := false } := by
  rw [← length_inputA_eq_la, ← length_inputB_eq_lb, State.valA, State.valB,
    ← mulEffect_eq s.W s.inputA s.inputB (inputA_bounded s) (inputB_bounded s)]
  rfl

theorem valA_lt (s : State) : s.valA < 2 ^ (s.W * s.la) :=
  length_inputA_eq_la s ▸ val_lt s.W s.inputA (inputA_bounded s)

theorem valB_lt (s : State) : s.valB < 2 ^ (s.W * s.lb) :=
  length_inputB_eq_lb s ▸ val_lt s.W s.inputB (inputB_bounded s)

/-- A product needs no more words than both factors together. -/
theorem val_product (s : State) : val s.W (wordsOf s.W (s.la + s.lb) (s.valA * s.valB)) = s.valA * s.valB := by
  apply val_wordsOf_of_lt
  rw [Nat.mul_add, Nat.pow_add]
  exact Nat.mul_lt_mul'' (valA_lt s) (valB_lt s)

/-- A nonzero product of normalized arrays reaches the word `la + lb − 2`. -/
theorem pow_le_product {s : State} (normA : Normalized s.inputA) (normB : Normalized s.inputB)
    (h0 : s.valA * s.valB ≠ 0) : 2 ^ (s.W * (s.la - 1 + (s.lb - 1))) ≤ s.valA * s.valB := by
  obtain ⟨hA0, hB0⟩ := Nat.mul_ne_zero_iff.1 h0
  have hA : 2 ^ (s.W * (s.inputA.length - 1)) ≤ s.valA := normA.pow_le (Nat.le_refl _) hA0
  have hB : 2 ^ (s.W * (s.inputB.length - 1)) ≤ s.valB := normB.pow_le (Nat.le_refl _) hB0
  rw [length_inputA_eq_la] at hA
  rw [length_inputB_eq_lb] at hB
  rw [Nat.mul_add, Nat.pow_add]
  exact Nat.mul_le_mul hA hB

/-- Settles O13: MUL passes the checks and stores the words of the product. -/
theorem mulStoresExactProduct : Obligations.MulStoresExactProduct := by
  intro s hwf hplaced product
  obtain ⟨⟨⟨la, -⟩, ⟨lb, -⟩, normA, normB⟩, -⟩ := id hplaced
  have hcheck : check .mul s = .noError :=
    check_of_twoInputsOneOutput hplaced (Nat.add_pos_left la _) rfl rfl rfl nofun nofun
  obtain ⟨m, hexec, hread⟩ := exec_stores_words hwf hcheck (effectOf_mul s) (wordsOf_bounded _ _ _)
  rw [length_wordsOf] at hread
  have hlen : product.length = s.la + s.lb := length_wordsOf ..
  have nonempty : 1 ≤ product.length := hlen ▸ Nat.add_pos_left la _
  have hval : val s.W product = s.valA * s.valB := val_product s
  refine ⟨m, normLen product, hexec, hread, hval, isNormLen_normLen product nonempty, fun h0 => ?_⟩
  have above : s.la - 1 + (s.lb - 1) < normLen product :=
    lt_normLen_of_pow_le (wordsOf_bounded _ _ _) nonempty (hval ▸ pow_le_product normA normB h0)
  have below := hlen ▸ normLen_le product nonempty
  omega

/-! ## SHL and SHR (44_shift R185 to R187, R190) -/

theorem check_of_shiftInputs {i : Instr} {s : State} {k n : Nat} (hi : i = .shl k ∨ i = .shr k)
    (outs : outputRegions i s.shadow.desc = [⟨s.rAddr, n⟩]) (h : s.ShiftInputs k n) : check i s = .noError := by
  obtain ⟨hk, hA, normA, fits, place⟩ := h
  have unused : usesB i = false := by rcases hi with rfl | rfl <;> rfl
  have inPlace : mayBeInPlace i = true := by rcases hi with rfl | rfl <;> rfl
  refine check_of_oneInput unused (not_badShift_of_lt hi hk) hA ?_ fun _ => normA
  rw [outs]
  exact List.forall_mem_singleton.2 ⟨fits, place.imp_right fun hbase => ⟨inPlace, hbase⟩⟩

theorem effectOf_shl {s : State} {k : Nat} (hk : k < s.W) : effectOf (.shl k) s =
    { r := wordsOf s.W (s.la + 1) (s.valA * 2 ^ k)
      rLen := some (normLen (wordsOf s.W (s.la + 1) (s.valA * 2 ^ k)))
      flag := decide (2 ^ (s.W * s.la) ≤ s.valA * 2 ^ k) } := by
  obtain ⟨hr, hflag⟩ := shlEffect_eq s.W k s.inputA (inputA_bounded s) hk
  rw [← length_inputA_eq_la, State.valA, ← hr, ← hflag]
  rfl

theorem effectOf_shr {s : State} {k : Nat} (hk : k < s.W) : effectOf (.shr k) s =
    { r := wordsOf s.W s.la (s.valA / 2 ^ k)
      rLen := some (normLen (wordsOf s.W s.la (s.valA / 2 ^ k)))
      flag := false } := by
  rw [← length_inputA_eq_la, State.valA, ← shrEffect_eq s.W k s.inputA (inputA_bounded s) hk]
  rfl

/-- `norm_len` of `n + 1` words counts the top one iff the value reaches it. -/
theorem normLen_eq_succ_iff {w n v : Nat} (hn : 1 ≤ n) (hv : v < 2 ^ (w * (n + 1))) :
    normLen (wordsOf w (n + 1) v) = n + 1 ↔ 2 ^ (w * n) ≤ v := by
  have nonempty : 1 ≤ (wordsOf w (n + 1) v).length := by simp
  constructor
  · intro hlen
    by_contra hlt
    have htop : (wordsOf w (n + 1) v).getD n 0 = 0 := by simp [wordsOf_succ_of_lt (Nat.lt_of_not_le hlt)]
    have := (isNormLen_normLen _ nonempty).le_of_top_zero (length_wordsOf ..) hn htop
    omega
  · intro hle
    exact normLen_eq_of_val (wordsOf_bounded _ _ _) nonempty (by rwa [val_wordsOf_of_lt hv]) (by rwa [val_wordsOf_of_lt hv])

/-- Settles O15: SHL passes the checks and stores the words of `val(A)·2^s`; the top one counts iff a carry escaped into it. -/
theorem shlStoresExactProduct : Obligations.ShlStoresExactProduct := by
  intro s k hwf hshift shifted escaped
  have hcheck := check_of_shiftInputs (.inl rfl) rfl hshift
  obtain ⟨hk, ⟨la, -⟩, -⟩ := hshift
  obtain ⟨m, hexec, hread⟩ := exec_stores_words hwf hcheck (effectOf_shl hk) (wordsOf_bounded _ _ _)
  rw [length_wordsOf] at hread
  have hval : val s.W shifted = s.valA * 2 ^ k := by
    have h := val_wordsOf_shl (inputA_bounded s) hk
    rwa [length_inputA_eq_la] at h
  have hlt : s.valA * 2 ^ k < 2 ^ (s.W * (s.la + 1)) := by
    have h := val_lt s.W shifted (wordsOf_bounded _ _ _)
    rwa [hval, length_wordsOf] at h
  refine ⟨m, normLen shifted, hexec, hread, hval, isNormLen_normLen shifted (by simp [shifted]), ?_⟩
  rw [decide_eq_true_iff]
  exact normLen_eq_succ_iff la hlt

/-- `floor(val(A)/2^s)` reaches the word `la − 2`, where it is not 0: less than one word is shifted out. -/
theorem pow_le_shifted {s : State} {k : Nat} (hk : k < s.W) (normA : Normalized s.inputA) (h : 2 ^ k ≤ s.valA) :
    2 ^ (s.W * (s.la - 2)) ≤ s.valA / 2 ^ k := by
  rw [Nat.le_div_iff_mul_le (Nat.two_pow_pos k)]
  rcases Nat.lt_or_ge s.la 2 with hshort | hlong
  · rw [Nat.sub_eq_zero_of_le hshort.le, Nat.mul_zero, Nat.pow_zero, Nat.one_mul]
    exact h
  · have h0 : s.valA ≠ 0 := Nat.ne_of_gt (Nat.lt_of_lt_of_le (Nat.two_pow_pos k) h)
    have hA : 2 ^ (s.W * (s.inputA.length - 1)) ≤ s.valA := normA.pow_le (Nat.le_refl _) h0
    rw [length_inputA_eq_la] at hA
    calc 2 ^ (s.W * (s.la - 2)) * 2 ^ k ≤ 2 ^ (s.W * (s.la - 2)) * 2 ^ s.W :=
          Nat.mul_le_mul_left _ (Nat.pow_le_pow_right Nat.two_pos hk.le)
      _ = 2 ^ (s.W * (s.la - 2 + 1)) := by rw [← Nat.pow_add, Nat.mul_succ]
      _ = 2 ^ (s.W * (s.la - 1)) := by rw [show s.la - 2 + 1 = s.la - 1 by omega]
      _ ≤ s.valA := hA

/-- Settles O16: SHR passes the checks and stores the words of `floor(val(A)/2^s)`. -/
theorem shrStoresFloor : Obligations.ShrStoresFloor := by
  intro s k hwf hshift shifted
  have hcheck := check_of_shiftInputs (.inr rfl) rfl hshift
  obtain ⟨hk, ⟨la, -⟩, normA, -⟩ := hshift
  obtain ⟨m, hexec, hread⟩ := exec_stores_words hwf hcheck (effectOf_shr hk) (wordsOf_bounded _ _ _)
  rw [length_wordsOf] at hread
  have hlen : shifted.length = s.la := length_wordsOf ..
  have nonempty : 1 ≤ shifted.length := hlen ▸ la
  have hval : val s.W shifted = s.valA / 2 ^ k := by
    have h := val_wordsOf_shr (inputA_bounded s) k
    rwa [length_inputA_eq_la] at h
  refine ⟨m, normLen shifted, hexec, hread, hval, isNormLen_normLen shifted nonempty, fun h => ?_⟩
  have above : s.la - 2 < normLen shifted :=
    lt_normLen_of_pow_le (wordsOf_bounded _ _ _) nonempty (hval ▸ pow_le_shifted hk normA h)
  have below := hlen ▸ normLen_le shifted nonempty
  omega

/-! ## NEG and SCONV (46_twos_complement R215, R216, R220, R221) -/

theorem effectOf_neg (s : State) : effectOf .neg s =
    { r := wordsOf s.W s.la (2 ^ (s.W * s.la) - s.valA), rLen := some s.la, flag := decide (s.valA = 0) } := by
  obtain ⟨hr, hflag⟩ := negEffect_eq s.W s.inputA (inputA_bounded s)
  rw [← length_inputA_eq_la, State.valA, ← hr, ← hflag]
  rfl

/-- Settles O19: NEG passes the checks and stores the words of the two's complement, as many as A has. -/
theorem negStoresTwosComplement : Obligations.NegStoresTwosComplement := by
  rintro s hwf hA ⟨fits, place⟩
  have hcheck : check .neg s = .noError :=
    check_of_oneInput rfl nofun hA
      (List.forall_mem_singleton.2 ⟨fits, place.imp_right fun hbase => ⟨rfl, hbase⟩⟩) nofun
  obtain ⟨m, hexec, hread⟩ := exec_stores_words hwf hcheck (effectOf_neg s) (wordsOf_bounded _ _ _)
  rw [length_wordsOf] at hread
  have hlen : BitVec.ofNat 32 s.la = s.shadow.desc.aLen := by simp [State.la]
  exact ⟨m, hlen ▸ hexec, by rw [hread, val_wordsOf]⟩

/-- The first words of an array in WMEM. -/
theorem take_readArray (c : Config) (m : Memory) (a : Nat) {k n : Nat} (h : k ≤ n) :
    (readArray c m a n).take k = readArray c m a k := by
  rw [readArray, ← List.map_take, List.take_range, Nat.min_eq_left h, readArray]

/-- The body of SCONV by the value of A. -/
theorem sconvBody_eq {w : Nat} (aneg rneg : Bool) {a : WordArray} (ha : Bounded w a) : sconvBody w aneg rneg a =
    if aneg = rneg then a else wordsOf w a.length (2 ^ (w * a.length) - val w a) :=
  ite_congr rfl (fun _ => rfl) fun _ => (negEffect_eq w a ha).1

theorem sconvLast_eq (w : Nat) (aneg rneg : Bool) (a : WordArray) : sconvLast w aneg rneg a =
    if sconvGuard w aneg rneg a = true ∧ rneg = true then 2 ^ w - 1 else 0 := by
  rw [sconvLast]
  cases sconvGuard w aneg rneg a <;> cases rneg <;> rfl

theorem sconvLast_lt (w : Nat) (aneg rneg : Bool) (a : WordArray) : sconvLast w aneg rneg a < 2 ^ w := by
  have := Nat.two_pow_pos w
  rw [sconvLast_eq]
  split <;> omega

theorem sconvEffect_eq (w : Nat) (aneg rneg : Bool) (a : WordArray) : sconvEffect w aneg rneg a =
    { r := sconvBody w aneg rneg a ++ [sconvLast w aneg rneg a]
      rLen := some (a.length + (sconvGuard w aneg rneg a).toNat)
      flag := sconvGuard w aneg rneg a } := by
  rw [sconvEffect]
  cases sconvGuard w aneg rneg a <;> rfl

/-- Settles O18: SCONV passes the checks and stores its body and the guard or spare word, and its first R_LEN words read with
the sign wanted. -/
theorem sconvStoresSignedArray : Obligations.SconvStoresSignedArray := by
  rintro s aneg rneg hwf hA ⟨fits, apart⟩ body guard last len
  have hcheck : check (.sconv aneg rneg) s = .noError :=
    check_of_oneInput rfl nofun hA (List.forall_mem_singleton.2 ⟨fits, .inl apart⟩) nofun
  have hbody : sconvBody s.W aneg rneg s.inputA = body := by
    rw [sconvBody_eq (w := s.W) aneg rneg (inputA_bounded s), length_inputA_eq_la]
    rfl
  have hguard : sconvGuard s.W aneg rneg s.inputA = guard := by
    rw [sconvGuard, hbody]
  have hlast : sconvLast s.W aneg rneg s.inputA = last := by
    rw [sconvLast_eq, hguard]
  have heffect : effectOf (.sconv aneg rneg) s = { r := body ++ [last], rLen := some len, flag := guard } := by
    have h := sconvEffect_eq s.W aneg rneg s.inputA
    rwa [hbody, hlast, hguard, length_inputA_eq_la] at h
  have bounded : Bounded s.W (body ++ [last]) :=
    bounded_append.2 ⟨hbody ▸ sconvBody_bounded aneg rneg (inputA_bounded s),
      List.forall_mem_singleton.2 (hlast ▸ sconvLast_lt s.W aneg rneg s.inputA)⟩
  have hlength : (body ++ [last]).length = s.la + 1 := by
    rw [List.length_append, ← hbody, length_sconvBody, length_inputA_eq_la]
    rfl
  obtain ⟨m, hexec, hread⟩ := exec_stores_words hwf hcheck heffect bounded
  rw [hlength] at hread
  have hresult : readArray s.cfg m s.rAddr len = sconvResult s.W aneg rneg s.inputA := by
    have hfirst : sconvResult s.W aneg rneg s.inputA = (body ++ [last]).take len := by
      rw [sconvResult, sconvEffect_eq, hbody, hlast, hguard, length_inputA_eq_la]
      rfl
    rw [hfirst, ← hread, take_readArray]
    exact Nat.add_le_add_left guard.toNat_le _
  exact ⟨m, hexec, hread, hresult ▸ topBit_sconvResult s.cfg.W_pos aneg rneg s.inputA⟩

end Sys2Proof.Machine
end
